-- ==== Sys2Proof/Word.lean ====
section
/-! DEFINITION. The words of the unit: bytes, 64-bit registers, 32-bit command words, and the size of
the address space (spec/10_state.md R31, R34, R41; spec/20_memory.md R70). -/

namespace Sys2Proof

/-- A byte of memory (spec/10_state.md R41). -/
abbrev Byte := BitVec 8

/-- A data register (spec/10_state.md R31). -/
abbrev Word := BitVec 64

/-- A command word (spec/30_encoding.md R100). -/
abbrev CmdWord := BitVec 32

/-- The number of byte addresses, `2^64` (spec/20_memory.md R70, R76). -/
abbrev addressLimit : Nat := 18446744073709551616

end Sys2Proof
end

