-- ==== Sys2Proof/Config.lean ====
section
/-! DEFINITION. What the spec leaves free, as constants without a body: the draws of `any()`
(spec/00_scope.md R17, notes/assumptions/1.md) and the platform's memory content
(spec/10_state.md R47, notes/assumptions/3.md). Nothing in Lean can compute or prove a value of one. -/

namespace Sys2Proof.Config

/-- The `k`-th draw of `any()` as a register value (R17). -/
opaque freeWord : Nat → Word

/-- The `k`-th draw of `any()` as a byte (R17). -/
opaque freeByte : Nat → Byte

/-- The `k`-th draw where a rule lets the unit take any one of two outcomes (R288, R289, R316). -/
opaque freeChoice : Nat → Bool

/-- What the byte at an address holds while nothing has written it: the platform's (R47, D36). -/
opaque powerUpByte : Nat → Byte

end Sys2Proof.Config
end

