-- ==== Sys2Proof/Fields.lean ====
section
/-! DEFINITION. What the fields of a command word select (spec/30_encoding.md R101, R102). -/

namespace Sys2Proof

/-- The element width field `WS` (R102): 8, 16, 32 or 64 bits. -/
inductive Width where
  | w8
  | w16
  | w32
  | w64
deriving DecidableEq, Repr

/-- `W = 8 << WS` (R102). -/
def Width.bits : Width → Nat
  | .w8 => 8
  | .w16 => 16
  | .w32 => 32
  | .w64 => 64

/-- `E = W/8`, the element size in bytes (spec/40_bitwidth.md R140). -/
def Width.bytes : Width → Nat
  | .w8 => 1
  | .w16 => 2
  | .w32 => 4
  | .w64 => 8

/-- The transform field `TR` (R102); 6 and 7 are reserved and have no value here. -/
inductive Transform where
  | ident
  | delta
  | delta1
  | zigzag
  | ddelta
  | xorPrev
deriving DecidableEq, Repr

/-- The lane strategy field `LANE` (R102); 3 is reserved and has no value here. -/
inductive Lane where
  | scalar
  | lane128
  | lane256
deriving DecidableEq, Repr

/-- The TurboByte group size field `GS` (R102). -/
inductive GroupSize where
  | g4
  | g8
  | g16
  | g32
deriving DecidableEq, Repr

/-- `G = 4 << GS` (R102). -/
def GroupSize.count : GroupSize → Nat
  | .g4 => 4
  | .g8 => 8
  | .g16 => 16
  | .g32 => 32

/-- The block size field `BM1`, eight bits as the word holds them (R101). -/
abbrev BlockField := BitVec 8

/-- `B = BM1 + 1` (R102), between 1 and 256. -/
def blockSize (bm1 : BlockField) : Nat := bm1.toNat + 1

/-- The packing width field `PW`, seven bits as the word holds them (R101). -/
abbrev PackField := BitVec 7

end Sys2Proof
end

