-- ==== Sys2Proof/Syntax.lean ====
section
/-! DEFINITION. The 29 commands of DZX-1, one constructor per row of spec/opcode_table.json
(spec/30_encoding.md R103). A constructor carries the fields its row lists, in the row's order. -/

namespace Sys2Proof

/-- A command of DZX-1 (spec/30_encoding.md R103). -/
inductive Instr where
  /-- `BITW`, OP 0x01 (spec/40_bitwidth.md R141). -/
  | bitw (ws : Width)
  /-- `BLKBITW`, OP 0x02 (spec/40_bitwidth.md R142). -/
  | blkbitw (ws : Width)
  /-- `VBLEN`, OP 0x03 (spec/40_bitwidth.md R143). -/
  | vblen (ws : Width)
  /-- `VBVLEN`, OP 0x04 (spec/40_bitwidth.md R144). -/
  | vbvlen
  /-- `XF_FWD`, OP 0x05 (spec/41_transform.md R163). -/
  | xfFwd (ws : Width) (tr : Transform)
  /-- `XF_INV`, OP 0x06 (spec/41_transform.md R164). -/
  | xfInv (ws : Width) (tr : Transform)
  /-- `BP_PACK`, OP 0x07 (spec/44_bitpack.md R201). -/
  | bpPack (ws : Width) (lane : Lane) (pw : PackField)
  /-- `BP_UNPACK`, OP 0x08 (spec/44_bitpack.md R202). -/
  | bpUnpack (ws : Width) (lane : Lane) (pw : PackField)
  /-- `PF_SELW`, OP 0x09 (spec/45_pfor.md R217). -/
  | pfSelw (ws : Width) (bm1 : BlockField)
  /-- `VB_ENC`, OP 0x0A (spec/42_vbyte.md R173). -/
  | vbEnc (ws : Width) (tr : Transform)
  /-- `VB_DEC`, OP 0x0B (spec/42_vbyte.md R174). -/
  | vbDec (ws : Width) (tr : Transform)
  /-- `VB_GETX`, OP 0x0C (spec/47_random_access.md R253). -/
  | vbGetx (ws : Width) (tr : Transform)
  /-- `VB_GETEQ`, OP 0x0D (spec/47_random_access.md R254). -/
  | vbGeteq (ws : Width) (tr : Transform)
  /-- `VB_GETGEQ`, OP 0x0E (spec/47_random_access.md R255). -/
  | vbGetgeq (ws : Width) (tr : Transform)
  /-- `TB_ENC`, OP 0x0F (spec/43_turbobyte.md R188). -/
  | tbEnc (ws : Width) (tr : Transform) (lane : Lane) (gs : GroupSize)
  /-- `TB_DEC`, OP 0x10 (spec/43_turbobyte.md R189). -/
  | tbDec (ws : Width) (tr : Transform) (lane : Lane) (gs : GroupSize)
  /-- `TB_GETX`, OP 0x11 (spec/47_random_access.md R256). -/
  | tbGetx (ws : Width) (tr : Transform) (lane : Lane) (gs : GroupSize)
  /-- `TB_GETEQ`, OP 0x12 (spec/47_random_access.md R257). -/
  | tbGeteq (ws : Width) (tr : Transform) (lane : Lane) (gs : GroupSize)
  /-- `TB_GETGEQ`, OP 0x13 (spec/47_random_access.md R258). -/
  | tbGetgeq (ws : Width) (tr : Transform) (lane : Lane) (gs : GroupSize)
  /-- `PF_ENC`, OP 0x14 (spec/45_pfor.md R215). -/
  | pfEnc (ws : Width) (tr : Transform) (lane : Lane) (bm1 : BlockField)
  /-- `PF_DEC`, OP 0x15 (spec/45_pfor.md R216). -/
  | pfDec (ws : Width) (tr : Transform) (lane : Lane) (bm1 : BlockField)
  /-- `PF_GETX`, OP 0x16 (spec/47_random_access.md R259). -/
  | pfGetx (ws : Width) (tr : Transform) (lane : Lane) (bm1 : BlockField)
  /-- `PF_GETEQ`, OP 0x17 (spec/47_random_access.md R260). -/
  | pfGeteq (ws : Width) (tr : Transform) (lane : Lane) (bm1 : BlockField)
  /-- `PF_GETGEQ`, OP 0x18 (spec/47_random_access.md R261). -/
  | pfGetgeq (ws : Width) (tr : Transform) (lane : Lane) (bm1 : BlockField)
  /-- `EF_ENC`, OP 0x19 (spec/46_eliasfano.md R236). -/
  | efEnc (ws : Width) (tr : Transform) (lane : Lane) (bm1 : BlockField)
  /-- `EF_DEC`, OP 0x1A (spec/46_eliasfano.md R237). -/
  | efDec (ws : Width) (tr : Transform) (lane : Lane) (bm1 : BlockField)
  /-- `EF_GETX`, OP 0x1B (spec/47_random_access.md R262). -/
  | efGetx (ws : Width) (tr : Transform) (lane : Lane) (bm1 : BlockField)
  /-- `EF_GETEQ`, OP 0x1C (spec/47_random_access.md R263). -/
  | efGeteq (ws : Width) (tr : Transform) (lane : Lane) (bm1 : BlockField)
  /-- `EF_GETGEQ`, OP 0x1D (spec/47_random_access.md R264). -/
  | efGetgeq (ws : Width) (tr : Transform) (lane : Lane) (bm1 : BlockField)
deriving DecidableEq, Repr

end Sys2Proof
end

