-- ==== Sys2Proof/WellFormed.lean ====
section
/-! DEFINITION. The parameter combinations a command may have: checks 6, 7 and 8 of
spec/30_encoding.md R105 (the other checks are about bits a constructor does not hold). -/

namespace Sys2Proof

/-- Check 6 of R105: `PW <= W`. -/
def packWidthLegal (ws : Width) (pw : PackField) : Bool := decide (pw.toNat ≤ ws.bits)

/-- Check 7 of R105, the legal `(LANE, W, G)` of a `TB_` command (spec/43_turbobyte.md R185). -/
def turboLegal (ws : Width) (lane : Lane) (gs : GroupSize) : Bool :=
  match lane with
  | .scalar => ws != .w64
  | .lane128 => (ws == .w16 || ws == .w32) && gs == .g4
  | .lane256 => (ws == .w16 || ws == .w32) && gs != .g4

/-- Check 8 of R105, the legal `W` and `TR` of an `EF_` command (spec/46_eliasfano.md R230). -/
def eliasFanoLegal (ws : Width) (tr : Transform) : Bool :=
  (ws == .w32 || ws == .w64) && (tr == .delta || tr == .delta1)

/-- The command passes checks 6, 7 and 8 of spec/30_encoding.md R105. -/
def wellFormed : Instr → Bool
  | .bitw _ => true
  | .blkbitw _ => true
  | .vblen _ => true
  | .vbvlen => true
  | .xfFwd _ _ => true
  | .xfInv _ _ => true
  | .bpPack ws _ pw => packWidthLegal ws pw
  | .bpUnpack ws _ pw => packWidthLegal ws pw
  | .pfSelw _ _ => true
  | .vbEnc _ _ => true
  | .vbDec _ _ => true
  | .vbGetx _ _ => true
  | .vbGeteq _ _ => true
  | .vbGetgeq _ _ => true
  | .tbEnc ws _ lane gs => turboLegal ws lane gs
  | .tbDec ws _ lane gs => turboLegal ws lane gs
  | .tbGetx ws _ lane gs => turboLegal ws lane gs
  | .tbGeteq ws _ lane gs => turboLegal ws lane gs
  | .tbGetgeq ws _ lane gs => turboLegal ws lane gs
  | .pfEnc _ _ _ _ => true
  | .pfDec _ _ _ _ => true
  | .pfGetx _ _ _ _ => true
  | .pfGeteq _ _ _ _ => true
  | .pfGetgeq _ _ _ _ => true
  | .efEnc ws tr _ _ => eliasFanoLegal ws tr
  | .efDec ws tr _ _ => eliasFanoLegal ws tr
  | .efGetx ws tr _ _ => eliasFanoLegal ws tr
  | .efGeteq ws tr _ _ => eliasFanoLegal ws tr
  | .efGetgeq ws tr _ _ => eliasFanoLegal ws tr

end Sys2Proof
end

