-- ==== Sys2Proof/Decode.lean ====
section
/-! DEFINITION. The decoder and the encoder of a command word (spec/30_encoding.md R100 to R106). The
decoder is total: every 32-bit word selects one command with legal fields or is rejected by the
name of the check of R105 it fails. -/

namespace Sys2Proof

/-- The check of spec/30_encoding.md R105 a word fails. All raise the same fault, so which name a word
gets when it fails several is not observable. -/
inductive DecodeError where
  /-- Check 1: bits 31..29 are not 0. -/
  | reservedBits
  /-- Check 2: `OP` is 0x00, 0x1E or 0x1F. -/
  | reservedOp
  /-- Check 3: a field the command does not use is not 0. -/
  | unusedField
  /-- Check 4: `TR` is 6 or 7. -/
  | reservedTransform
  /-- Check 5: `LANE` is 3. -/
  | reservedLane
  /-- Checks 6, 7 and 8: `PW > W`, an illegal TurboByte combination, an illegal Elias-Fano width or variant. -/
  | illegalCombination
deriving DecidableEq, Repr

/-- The raw fields of a command word (R101). -/
structure Fields where
  op : BitVec 5
  ws : BitVec 2
  tr : BitVec 3
  lane : BitVec 2
  bm1 : BitVec 8
  gs : BitVec 2
  pw : BitVec 7
  rsv : BitVec 3
deriving DecidableEq, Repr

/-- The field layout of R101, read from a word. -/
def fieldsOf (c : CmdWord) : Fields where
  op := c.extractLsb' 0 5
  ws := c.extractLsb' 5 2
  tr := c.extractLsb' 7 3
  lane := c.extractLsb' 10 2
  bm1 := c.extractLsb' 12 8
  gs := c.extractLsb' 20 2
  pw := c.extractLsb' 22 7
  rsv := c.extractLsb' 29 3

/-- The pattern string of R101, most significant field first. -/
def wordOf (f : Fields) : CmdWord :=
  f.rsv ++ f.pw ++ f.gs ++ f.bm1 ++ f.lane ++ f.tr ++ f.ws ++ f.op

/-- The operation codes of R103, without their fields. -/
inductive Op where
  | bitw | blkbitw | vblen | vbvlen | xfFwd | xfInv | bpPack | bpUnpack | pfSelw
  | vbEnc | vbDec | vbGetx | vbGeteq | vbGetgeq
  | tbEnc | tbDec | tbGetx | tbGeteq | tbGetgeq
  | pfEnc | pfDec | pfGetx | pfGeteq | pfGetgeq
  | efEnc | efDec | efGetx | efGeteq | efGetgeq
deriving DecidableEq, Repr

/-- Column `OP` of R103. -/
def opCode : Op → BitVec 5
  | .bitw => 0x01#5
  | .blkbitw => 0x02#5
  | .vblen => 0x03#5
  | .vbvlen => 0x04#5
  | .xfFwd => 0x05#5
  | .xfInv => 0x06#5
  | .bpPack => 0x07#5
  | .bpUnpack => 0x08#5
  | .pfSelw => 0x09#5
  | .vbEnc => 0x0A#5
  | .vbDec => 0x0B#5
  | .vbGetx => 0x0C#5
  | .vbGeteq => 0x0D#5
  | .vbGetgeq => 0x0E#5
  | .tbEnc => 0x0F#5
  | .tbDec => 0x10#5
  | .tbGetx => 0x11#5
  | .tbGeteq => 0x12#5
  | .tbGetgeq => 0x13#5
  | .pfEnc => 0x14#5
  | .pfDec => 0x15#5
  | .pfGetx => 0x16#5
  | .pfGeteq => 0x17#5
  | .pfGetgeq => 0x18#5
  | .efEnc => 0x19#5
  | .efDec => 0x1A#5
  | .efGetx => 0x1B#5
  | .efGeteq => 0x1C#5
  | .efGetgeq => 0x1D#5

/-- The operation an `OP` value selects, none for the reserved values (R103, R106). -/
def opOf (b : BitVec 5) : Option Op :=
  match b.toNat with
  | 1 => some .bitw
  | 2 => some .blkbitw
  | 3 => some .vblen
  | 4 => some .vbvlen
  | 5 => some .xfFwd
  | 6 => some .xfInv
  | 7 => some .bpPack
  | 8 => some .bpUnpack
  | 9 => some .pfSelw
  | 10 => some .vbEnc
  | 11 => some .vbDec
  | 12 => some .vbGetx
  | 13 => some .vbGeteq
  | 14 => some .vbGetgeq
  | 15 => some .tbEnc
  | 16 => some .tbDec
  | 17 => some .tbGetx
  | 18 => some .tbGeteq
  | 19 => some .tbGetgeq
  | 20 => some .pfEnc
  | 21 => some .pfDec
  | 22 => some .pfGetx
  | 23 => some .pfGeteq
  | 24 => some .pfGetgeq
  | 25 => some .efEnc
  | 26 => some .efDec
  | 27 => some .efGetx
  | 28 => some .efGeteq
  | 29 => some .efGetgeq
  | _ => none

/-- Which of the fields WS, TR, LANE, BM1, GS and PW an operation uses (column *fields* of R103). -/
structure FieldUse where
  ws : Bool := false
  tr : Bool := false
  lane : Bool := false
  bm1 : Bool := false
  gs : Bool := false
  pw : Bool := false
deriving DecidableEq, Repr

/-- Column *fields* of R103. -/
def fieldUse : Op → FieldUse
  | .bitw | .blkbitw | .vblen => { ws := true }
  | .vbvlen => {}
  | .xfFwd | .xfInv | .vbEnc | .vbDec | .vbGetx | .vbGeteq | .vbGetgeq => { ws := true, tr := true }
  | .bpPack | .bpUnpack => { ws := true, lane := true, pw := true }
  | .pfSelw => { ws := true, bm1 := true }
  | .tbEnc | .tbDec | .tbGetx | .tbGeteq | .tbGetgeq => { ws := true, tr := true, lane := true, gs := true }
  | .pfEnc | .pfDec | .pfGetx | .pfGeteq | .pfGetgeq
  | .efEnc | .efDec | .efGetx | .efGeteq | .efGetgeq =>
    { ws := true, tr := true, lane := true, bm1 := true }

/-- Check 3 of R105: every field the operation does not use is 0. -/
def unusedFieldsZero (u : FieldUse) (f : Fields) : Bool :=
  (u.ws || f.ws == 0#2) && (u.tr || f.tr == 0#3) && (u.lane || f.lane == 0#2) &&
  (u.bm1 || f.bm1 == 0#8) && (u.gs || f.gs == 0#2) && (u.pw || f.pw == 0#7)

/-- `WS` of R102. -/
def widthOf (b : BitVec 2) : Width :=
  match b.toNat with
  | 0 => .w8
  | 1 => .w16
  | 2 => .w32
  | _ => .w64

/-- `TR` of R102, none for 6 and 7. -/
def transformOf (b : BitVec 3) : Option Transform :=
  match b.toNat with
  | 0 => some .ident
  | 1 => some .delta
  | 2 => some .delta1
  | 3 => some .zigzag
  | 4 => some .ddelta
  | 5 => some .xorPrev
  | _ => none

/-- `LANE` of R102, none for 3. -/
def laneOf (b : BitVec 2) : Option Lane :=
  match b.toNat with
  | 0 => some .scalar
  | 1 => some .lane128
  | 2 => some .lane256
  | _ => none

/-- `GS` of R102. -/
def groupSizeOf (b : BitVec 2) : GroupSize :=
  match b.toNat with
  | 0 => .g4
  | 1 => .g8
  | 2 => .g16
  | _ => .g32

/-- The command an operation and the values of its fields make; fields it does not use are dropped. -/
def instrOf (op : Op) (ws : Width) (tr : Transform) (lane : Lane) (bm1 : BlockField)
    (gs : GroupSize) (pw : PackField) : Instr :=
  match op with
  | .bitw => .bitw ws
  | .blkbitw => .blkbitw ws
  | .vblen => .vblen ws
  | .vbvlen => .vbvlen
  | .xfFwd => .xfFwd ws tr
  | .xfInv => .xfInv ws tr
  | .bpPack => .bpPack ws lane pw
  | .bpUnpack => .bpUnpack ws lane pw
  | .pfSelw => .pfSelw ws bm1
  | .vbEnc => .vbEnc ws tr
  | .vbDec => .vbDec ws tr
  | .vbGetx => .vbGetx ws tr
  | .vbGeteq => .vbGeteq ws tr
  | .vbGetgeq => .vbGetgeq ws tr
  | .tbEnc => .tbEnc ws tr lane gs
  | .tbDec => .tbDec ws tr lane gs
  | .tbGetx => .tbGetx ws tr lane gs
  | .tbGeteq => .tbGeteq ws tr lane gs
  | .tbGetgeq => .tbGetgeq ws tr lane gs
  | .pfEnc => .pfEnc ws tr lane bm1
  | .pfDec => .pfDec ws tr lane bm1
  | .pfGetx => .pfGetx ws tr lane bm1
  | .pfGeteq => .pfGeteq ws tr lane bm1
  | .pfGetgeq => .pfGetgeq ws tr lane bm1
  | .efEnc => .efEnc ws tr lane bm1
  | .efDec => .efDec ws tr lane bm1
  | .efGetx => .efGetx ws tr lane bm1
  | .efGeteq => .efGeteq ws tr lane bm1
  | .efGetgeq => .efGetgeq ws tr lane bm1

/-- Decoding of the raw fields: R104, with the checks of R105. -/
def decodeFields (f : Fields) : Except DecodeError Instr :=
  if f.rsv = 0#3 then
    match opOf f.op with
    | none => .error .reservedOp
    | some op =>
      if unusedFieldsZero (fieldUse op) f then
        match transformOf f.tr, laneOf f.lane with
        | none, _ => .error .reservedTransform
        | some _, none => .error .reservedLane
        | some tr, some lane =>
          let i := instrOf op (widthOf f.ws) tr lane f.bm1 (groupSizeOf f.gs) f.pw
          if wellFormed i then .ok i else .error .illegalCombination
      else .error .unusedField
  else .error .reservedBits

/-- The decoder (R104): total on 32-bit words. -/
def decode (c : CmdWord) : Except DecodeError Instr := decodeFields (fieldsOf c)

/-- `WS` of R102, as bits. -/
def widthBits : Width → BitVec 2
  | .w8 => 0#2
  | .w16 => 1#2
  | .w32 => 2#2
  | .w64 => 3#2

/-- `TR` of R102, as bits. -/
def transformBits : Transform → BitVec 3
  | .ident => 0#3
  | .delta => 1#3
  | .delta1 => 2#3
  | .zigzag => 3#3
  | .ddelta => 4#3
  | .xorPrev => 5#3

/-- `LANE` of R102, as bits. -/
def laneBits : Lane → BitVec 2
  | .scalar => 0#2
  | .lane128 => 1#2
  | .lane256 => 2#2

/-- `GS` of R102, as bits. -/
def groupSizeBits : GroupSize → BitVec 2
  | .g4 => 0#2
  | .g8 => 1#2
  | .g16 => 2#2
  | .g32 => 3#2

/-- The fields of an encoded command; every field a constructor does not carry is 0 (R105 check 3). -/
def rawFields (op : Op) (ws : BitVec 2) (tr : BitVec 3 := 0#3) (lane : BitVec 2 := 0#2)
    (bm1 : BlockField := 0#8) (gs : BitVec 2 := 0#2) (pw : PackField := 0#7) : Fields where
  op := opCode op
  ws := ws
  tr := tr
  lane := lane
  bm1 := bm1
  gs := gs
  pw := pw
  rsv := 0#3

/-- The raw fields of a command, by its row of R103. -/
def fieldsOfInstr : Instr → Fields
  | .bitw ws => rawFields .bitw (widthBits ws)
  | .blkbitw ws => rawFields .blkbitw (widthBits ws)
  | .vblen ws => rawFields .vblen (widthBits ws)
  | .vbvlen => rawFields .vbvlen 0#2
  | .xfFwd ws tr => rawFields .xfFwd (widthBits ws) (transformBits tr)
  | .xfInv ws tr => rawFields .xfInv (widthBits ws) (transformBits tr)
  | .bpPack ws lane pw => rawFields .bpPack (widthBits ws) (lane := laneBits lane) (pw := pw)
  | .bpUnpack ws lane pw => rawFields .bpUnpack (widthBits ws) (lane := laneBits lane) (pw := pw)
  | .pfSelw ws bm1 => rawFields .pfSelw (widthBits ws) (bm1 := bm1)
  | .vbEnc ws tr => rawFields .vbEnc (widthBits ws) (transformBits tr)
  | .vbDec ws tr => rawFields .vbDec (widthBits ws) (transformBits tr)
  | .vbGetx ws tr => rawFields .vbGetx (widthBits ws) (transformBits tr)
  | .vbGeteq ws tr => rawFields .vbGeteq (widthBits ws) (transformBits tr)
  | .vbGetgeq ws tr => rawFields .vbGetgeq (widthBits ws) (transformBits tr)
  | .tbEnc ws tr lane gs => rawFields .tbEnc (widthBits ws) (transformBits tr) (laneBits lane) (gs := groupSizeBits gs)
  | .tbDec ws tr lane gs => rawFields .tbDec (widthBits ws) (transformBits tr) (laneBits lane) (gs := groupSizeBits gs)
  | .tbGetx ws tr lane gs => rawFields .tbGetx (widthBits ws) (transformBits tr) (laneBits lane) (gs := groupSizeBits gs)
  | .tbGeteq ws tr lane gs => rawFields .tbGeteq (widthBits ws) (transformBits tr) (laneBits lane) (gs := groupSizeBits gs)
  | .tbGetgeq ws tr lane gs => rawFields .tbGetgeq (widthBits ws) (transformBits tr) (laneBits lane) (gs := groupSizeBits gs)
  | .pfEnc ws tr lane bm1 => rawFields .pfEnc (widthBits ws) (transformBits tr) (laneBits lane) bm1
  | .pfDec ws tr lane bm1 => rawFields .pfDec (widthBits ws) (transformBits tr) (laneBits lane) bm1
  | .pfGetx ws tr lane bm1 => rawFields .pfGetx (widthBits ws) (transformBits tr) (laneBits lane) bm1
  | .pfGeteq ws tr lane bm1 => rawFields .pfGeteq (widthBits ws) (transformBits tr) (laneBits lane) bm1
  | .pfGetgeq ws tr lane bm1 => rawFields .pfGetgeq (widthBits ws) (transformBits tr) (laneBits lane) bm1
  | .efEnc ws tr lane bm1 => rawFields .efEnc (widthBits ws) (transformBits tr) (laneBits lane) bm1
  | .efDec ws tr lane bm1 => rawFields .efDec (widthBits ws) (transformBits tr) (laneBits lane) bm1
  | .efGetx ws tr lane bm1 => rawFields .efGetx (widthBits ws) (transformBits tr) (laneBits lane) bm1
  | .efGeteq ws tr lane bm1 => rawFields .efGeteq (widthBits ws) (transformBits tr) (laneBits lane) bm1
  | .efGetgeq ws tr lane bm1 => rawFields .efGetgeq (widthBits ws) (transformBits tr) (laneBits lane) bm1

/-- The encoder: the command word of a command (R101). -/
def encode (i : Instr) : CmdWord := wordOf (fieldsOfInstr i)

/-- The command word whose bits are `w` when an instruction gives `nbits` of them: every bit above
them is 0. A command word is a register value (R100), so it has no byte order. -/
def tableWord (nbits w : Nat) : CmdWord := BitVec.ofNat 32 (w % 2 ^ nbits)

/-- What the decoder reads from the table's numbering of a word; there is no command of more than
32 bits (R100). -/
def decodeTableWord (nbits w : Nat) : Option Instr :=
  if nbits ≤ 32 then (decode (tableWord nbits w)).toOption else none

end Sys2Proof
end

