-- ==== Sys2Proof/Machine/State.lean ====
section
/-! DEFINITION. The state of the unit and its memory (spec/10_state.md), as plain data, and its reset
values (R47). The fields the spec does not name are the model's own and say so. -/

namespace Sys2Proof.Machine

/-- The four synchronous faults (spec/60_exceptions.md R280). -/
inductive FaultCode where
  /-- `ILLEGAL_CMD`, code 1 (R282). -/
  | illegalCmd
  /-- `ARG`, code 2 (R283). -/
  | arg
  /-- `SRC_BOUNDS`, code 3 (R284). -/
  | srcBounds
  /-- `DST_CAPACITY`, code 4 (R285). -/
  | dstCapacity
deriving DecidableEq, Repr

/-- `STATUS`: the field `STATE`, and with `FAULT` the field `FCODE`, which is nonzero exactly then
(spec/10_state.md R35). -/
inductive Status where
  /-- `IDLE`: no command since reset. -/
  | idle
  /-- `BUSY`: a command was accepted and has not completed. -/
  | busy
  /-- `DONE`: the last command completed without fault. -/
  | done
  /-- `FAULT`: the last command faulted; sticky. -/
  | fault (code : FaultCode)
deriving DecidableEq, Repr

/-- The operand registers `x[0] .. x[8]` (spec/10_state.md R31). -/
structure OperandRegs where
  srcBase : Word := 0#64
  srcLen : Word := 0#64
  dstBase : Word := 0#64
  dstCap : Word := 0#64
  n : Word := 0#64
  seed : Word := 0#64
  seed2 : Word := 0#64
  index : Word := 0#64
  key : Word := 0#64
deriving DecidableEq, Repr

/-- The result registers `x[9] .. x[13]` (spec/10_state.md R31). A register a command does not name
gets 0 (R46), which is the default of every field. -/
structure ResultRegs where
  res : Word := 0#64
  srcEnd : Word := 0#64
  dstEnd : Word := 0#64
  rseed : Word := 0#64
  rseed2 : Word := 0#64
deriving DecidableEq, Repr

/-- Memory: the bytes that something has written, by strictly rising address (spec/10_state.md R41).
An address that is not listed holds the platform's content (`Memory.read`, notes/assumptions/3.md). -/
abbrev Memory := List Host.Cell

/-- What can happen next besides the unit's own turn: the host's steps (spec/10_state.md R44), the
hardware reset (spec/70_reset_and_hazards.md R310), and the unit's turn written out. The list of events
is the model's own (notes/assumptions/5.md). -/
inductive Event where
  /-- A host write of `size` bytes at byte offset `off` of the register block (R31, R34 to R37). -/
  | regWrite (size off : Nat) (value : Word)
  /-- A host read of `size` bytes at byte offset `off` of the register block. -/
  | regRead (size off : Nat)
  /-- A write of a memory byte by the host or by any other agent than the unit (R44, R316). -/
  | memWrite (address : Nat) (value : Byte)
  /-- A read of a memory byte by the host or by any other agent than the unit. -/
  | memRead (address : Nat)
  /-- The hardware reset (R310). -/
  | hardReset
  /-- The unit's turn: its execute step if it is BUSY, nothing otherwise (R45, R300). -/
  | unitTurn
deriving DecidableEq, Repr

/-- The whole state. -/
structure State where
  /-- `x[0] .. x[8]` (spec/10_state.md R31). -/
  operands : OperandRegs
  /-- `x[9] .. x[13]` (spec/10_state.md R31). -/
  results : ResultRegs
  /-- Bits 31..0 of `CMD`; bits 63..32 read as 0 (spec/10_state.md R34). -/
  cmd : CmdWord
  /-- `STATUS` (spec/10_state.md R35). -/
  status : Status
  /-- The memory (spec/10_state.md R41). -/
  mem : Memory
  /-- The model's own: how many draws of `any()` have been made (notes/assumptions/2.md). -/
  draws : Nat
  /-- The model's own: what happens next, in order (notes/assumptions/5.md). -/
  events : List Event
  /-- The model's own: the value the last host read returned (notes/assumptions/6.md). -/
  readData : Word
  /-- The model's own: a byte of the running command's source window was written while BUSY
  (spec/70_reset_and_hazards.md R316, notes/assumptions/8.md). -/
  srcTouched : Bool
  /-- The model's own: the addresses of the running command's destination window that another agent
  wrote while BUSY (R316, notes/assumptions/8.md). -/
  dstTouched : List Nat
deriving DecidableEq, Repr

/-- Why the machine stops with a fault of the model. The unit's four faults are states, not stops. -/
inductive Fault where
  /-- Raised by a memory access of the host at an address at or above `2^64`, which does not exist
  (spec/20_memory.md R70). Safe: the spec gives such an access no meaning. -/
  | noSuchAddress (address : Nat)
deriving DecidableEq, Repr

/-- Why the model has no meaning for a step. -/
inductive Refusal where
  /-- Raised by `exec` for a command that has no meaning yet; no arm raises it. Safe. -/
  | notModelled (mnemonic : String)
  /-- Raised by a host access of the register block of another size than 64 bits, or at an offset that is
  not one of a register (spec/93_implementation_defined.md U9: refuse). Safe. -/
  | undefinedHostAccess (size off : Nat)
deriving DecidableEq, Repr

/-- The machine right after a hardware reset with nothing written to memory (spec/10_state.md R47,
spec/70_reset_and_hazards.md R310). The values of `draws`, `events`, `readData`, `srcTouched` and
`dstTouched` are the model's (notes/assumptions/2.md, 5.md, 6.md, 8.md). -/
def State.reset : State where
  operands := {}
  results := {}
  cmd := 0#32
  status := .idle
  mem := []
  draws := 0
  events := []
  readData := 0#64
  srcTouched := false
  dstTouched := []

end Sys2Proof.Machine
end

