-- ==== Sys2Proof/Machine/Flags.lean ====
section
/-! DEFINITION. The fields of `STATUS`, the unit's only status bits: it has no condition codes and no
command sets a flag (spec/10_state.md R35, R39). -/

namespace Sys2Proof.Machine

/-- `STATUS.STATE`, bits 1:0 (R35). -/
def stateField : Status → BitVec 2
  | .idle => 0#2
  | .busy => 1#2
  | .done => 2#2
  | .fault _ => 3#2

/-- The code of a fault (spec/60_exceptions.md R280). -/
def faultField : FaultCode → BitVec 4
  | .illegalCmd => 1#4
  | .arg => 2#4
  | .srcBounds => 3#4
  | .dstCapacity => 4#4

/-- `STATUS.FCODE`, bits 7:4: 0 unless the state is `FAULT` (R35). -/
def fcodeField : Status → BitVec 4
  | .fault code => faultField code
  | .idle => 0#4
  | .busy => 0#4
  | .done => 0#4

/-- What a read of `STATUS` returns: reserved bits read as 0 (R35). -/
def statusWord (st : Status) : Word := 0#56 ++ fcodeField st ++ 0#2 ++ stateField st

end Sys2Proof.Machine
end

