-- ==== Sys2Proof/Machine/Bits.lean ====
section
/-! DEFINITION. The pure functions of the spec's notation (spec/00_scope.md R10 to R16): bit width,
PACK, UNPACK, LE, LEV, zigzag. -/

namespace Sys2Proof.Machine

/-- `bw(x)` (R10): the position of the highest set bit plus one, 0 for 0. -/
def bw (x : Nat) : Nat := if x = 0 then 0 else Nat.log2 x + 1

/-- `ceil(a/8)` (R6). -/
def bytesFor (bits : Nat) : Nat := (bits + 7) / 8

/-- `ceil(a/b)` (R6), for `b` at least 1. -/
def ceilDiv (a b : Nat) : Nat := (a + b - 1) / b

/-- `LE(v, k)` (R14): the `k` low-order bytes of `v`, least significant first. -/
def leBytes : Nat → Nat → List Byte
  | 0, _ => []
  | k + 1, v => BitVec.ofNat 8 v :: leBytes k (v / 256)

/-- `LEV(bs)` (R14). -/
def leValue : List Byte → Nat
  | [] => 0
  | b :: bs => b.toNat + 256 * leValue bs

/-- `sum_i (xs[i] mod 2^w) * 2^(i*w)` (R12). -/
def packNat (w : Nat) : List Nat → Nat
  | [] => 0
  | x :: xs => x % 2 ^ w + 2 ^ w * packNat w xs

/-- `PACK(w, xs)` (R12). -/
def pack (w : Nat) (xs : List Nat) : List Byte := leBytes (bytesFor (w * xs.length)) (packNat w xs)

/-- The `m` fields of width `w` of a bit stream read as a number (R11, R13). -/
def unpackNat (w : Nat) : Nat → Nat → List Nat
  | 0, _ => []
  | m + 1, v => v % 2 ^ w :: unpackNat w m (v / 2 ^ w)

/-- `UNPACK(w, bs, m)` (R13). -/
def unpack (w : Nat) (bs : List Byte) (m : Nat) : List Nat := unpackNat w m (leValue bs)

/-- `zz_W(d)` (R15). -/
def zz {w : Nat} (d : BitVec w) : BitVec w :=
  (d <<< 1) ^^^ (if d.msb then BitVec.allOnes w else 0#w)

/-- `unzz_W(u)` (R16). -/
def unzz {w : Nat} (u : BitVec w) : BitVec w :=
  (u >>> 1) ^^^ (if u.getLsbD 0 then BitVec.allOnes w else 0#w)

/-- `max` of a list of naturals, 0 for the empty list (spec/40_bitwidth.md R142). -/
def listMax : List Nat → Nat
  | [] => 0
  | x :: xs => max x (listMax xs)

/-- `ARR(W, xs)` (spec/20_memory.md R71): the little-endian elements one after another. -/
def arrBytes {w : Nat} (xs : List (BitVec w)) : List Byte :=
  xs.flatMap fun x => leBytes (w / 8) x.toNat

/-- The first `n` elements of a byte list (R71). -/
def elements (w : Nat) : Nat → List Byte → List (BitVec w)
  | 0, _ => []
  | n + 1, bs => BitVec.ofNat w (leValue (bs.take (w / 8))) :: elements w n (bs.drop (w / 8))

/-- The consecutive runs of `b` elements a list is cut into, the last possibly shorter, in at most
`fuel` runs (spec/45_pfor.md R210, spec/43_turbobyte.md R187). -/
def chunksFuel {α : Type} (b : Nat) : Nat → List α → List (List α)
  | 0, _ => []
  | _ + 1, [] => []
  | fuel + 1, x :: xs => (x :: xs).take b :: chunksFuel b fuel ((x :: xs).drop b)

/-- The runs of `b` elements, `b` at least 1, of a list (R210). -/
def chunks {α : Type} (b : Nat) (xs : List α) : List (List α) := chunksFuel b xs.length xs

end Sys2Proof.Machine
end

