-- ==== Sys2Proof/Machine/Operands.lean ====
section
/-! DEFINITION. Operand forms: the registers as elements and as windows (spec/10_state.md R31 to R33,
spec/20_memory.md R73), which memory each command touches (spec/30_encoding.md R103), and the register
block the host sees (spec/10_state.md R31, R34 to R37). -/

namespace Sys2Proof.Machine

/-- `SEED[W-1:0]` (spec/10_state.md R33). -/
def seedElem (w : Nat) (s : State) : BitVec w := s.operands.seed.setWidth w

/-- `SEED2[W-1:0]` (spec/10_state.md R33). -/
def seed2Elem (w : Nat) (s : State) : BitVec w := s.operands.seed2.setWidth w

/-- `KEY[W-1:0]` (spec/10_state.md R33). -/
def keyElem (w : Nat) (s : State) : BitVec w := s.operands.key.setWidth w

/-- A `W`-bit value written to a result register: `zext` of it (spec/10_state.md R33). -/
def resultOfElem {w : Nat} (v : BitVec w) : Word := v.setWidth 64

/-- A natural written to a result register (spec/10_state.md R33). -/
def resultOfNat (v : Nat) : Word := BitVec.ofNat 64 v

/-- `n = N` (spec/10_state.md R33). -/
def count (s : State) : Nat := s.operands.n.toNat

/-- The mandatory step `s` of an Elias-Fano variant: 1 for `DELTA1`, 0 for `DELTA` (spec/46_eliasfano.md R230, R236). -/
def strictStep (tr : Transform) : Nat := if tr = .delta1 then 1 else 0

/-- The element width field of a command; `VBVLEN` has none, and its field is 0 (R103, R105). -/
def widthOfInstr : Instr → Width
  | .bitw ws => ws
  | .blkbitw ws => ws
  | .vblen ws => ws
  | .vbvlen => .w8
  | .xfFwd ws _ => ws
  | .xfInv ws _ => ws
  | .bpPack ws _ _ => ws
  | .bpUnpack ws _ _ => ws
  | .pfSelw ws _ => ws
  | .vbEnc ws _ => ws
  | .vbDec ws _ => ws
  | .vbGetx ws _ => ws
  | .vbGeteq ws _ => ws
  | .vbGetgeq ws _ => ws
  | .tbEnc ws _ _ _ => ws
  | .tbDec ws _ _ _ => ws
  | .tbGetx ws _ _ _ => ws
  | .tbGeteq ws _ _ _ => ws
  | .tbGetgeq ws _ _ _ => ws
  | .pfEnc ws _ _ _ => ws
  | .pfDec ws _ _ _ => ws
  | .pfGetx ws _ _ _ => ws
  | .pfGeteq ws _ _ _ => ws
  | .pfGetgeq ws _ _ _ => ws
  | .efEnc ws _ _ _ => ws
  | .efDec ws _ _ _ => ws
  | .efGetx ws _ _ _ => ws
  | .efGeteq ws _ _ _ => ws
  | .efGetgeq ws _ _ _ => ws

/-- Column *mem* of R103: does the command read the source window. -/
def readsMem : Instr → Bool
  | .bitw _ => false
  | .blkbitw _ => true
  | .vblen _ => false
  | .vbvlen => true
  | .xfFwd _ _ => true
  | .xfInv _ _ => true
  | .bpPack _ _ _ => true
  | .bpUnpack _ _ _ => true
  | .pfSelw _ _ => true
  | .vbEnc _ _ => true
  | .vbDec _ _ => true
  | .vbGetx _ _ => true
  | .vbGeteq _ _ => true
  | .vbGetgeq _ _ => true
  | .tbEnc _ _ _ _ => true
  | .tbDec _ _ _ _ => true
  | .tbGetx _ _ _ _ => true
  | .tbGeteq _ _ _ _ => true
  | .tbGetgeq _ _ _ _ => true
  | .pfEnc _ _ _ _ => true
  | .pfDec _ _ _ _ => true
  | .pfGetx _ _ _ _ => true
  | .pfGeteq _ _ _ _ => true
  | .pfGetgeq _ _ _ _ => true
  | .efEnc _ _ _ _ => true
  | .efDec _ _ _ _ => true
  | .efGetx _ _ _ _ => true
  | .efGeteq _ _ _ _ => true
  | .efGetgeq _ _ _ _ => true

/-- Column *mem* of R103: does the command write the destination window. -/
def writesMem : Instr → Bool
  | .bitw _ => false
  | .blkbitw _ => false
  | .vblen _ => false
  | .vbvlen => false
  | .xfFwd _ _ => true
  | .xfInv _ _ => true
  | .bpPack _ _ _ => true
  | .bpUnpack _ _ _ => true
  | .pfSelw _ _ => false
  | .vbEnc _ _ => true
  | .vbDec _ _ => true
  | .vbGetx _ _ => false
  | .vbGeteq _ _ => false
  | .vbGetgeq _ _ => false
  | .tbEnc _ _ _ _ => true
  | .tbDec _ _ _ _ => true
  | .tbGetx _ _ _ _ => false
  | .tbGeteq _ _ _ _ => false
  | .tbGetgeq _ _ _ _ => false
  | .pfEnc _ _ _ _ => true
  | .pfDec _ _ _ _ => true
  | .pfGetx _ _ _ _ => false
  | .pfGeteq _ _ _ _ => false
  | .pfGetgeq _ _ _ _ => false
  | .efEnc _ _ _ _ => true
  | .efDec _ _ _ _ => true
  | .efGetx _ _ _ _ => false
  | .efGeteq _ _ _ _ => false
  | .efGetgeq _ _ _ _ => false

/-- `XF_FWD` and `XF_INV` accept `SRC_BASE = DST_BASE` (spec/20_memory.md R77). -/
def inPlaceAllowed : Instr → Bool
  | .xfFwd _ _ => true
  | .xfInv _ _ => true
  | _ => false

/-- The argument check of a command beyond its windows: `INDEX >= N` for a `_GETX`, `N > B` for
`PF_SELW` (spec/60_exceptions.md R283 d, e). -/
def indexFault (i : Instr) (o : OperandRegs) : Bool :=
  match i with
  | .vbGetx _ _ => decide (o.n.toNat ≤ o.index.toNat)
  | .tbGetx _ _ _ _ => decide (o.n.toNat ≤ o.index.toNat)
  | .pfGetx _ _ _ _ => decide (o.n.toNat ≤ o.index.toNat)
  | .efGetx _ _ _ _ => decide (o.n.toNat ≤ o.index.toNat)
  | .pfSelw _ bm1 => decide (blockSize bm1 < o.n.toNat)
  | _ => false

/-- A window whose end exceeds `2^64` (spec/20_memory.md R76). -/
def windowWraps (base len : Word) : Bool := decide (addressLimit < base.toNat + len.toNat)

/-- Both windows are non-empty and share a byte (spec/20_memory.md R77). -/
def windowsOverlap (o : OperandRegs) : Bool :=
  decide (0 < o.srcLen.toNat) && decide (0 < o.dstCap.toNat) &&
  decide (o.srcBase.toNat < o.dstBase.toNat + o.dstCap.toNat) &&
  decide (o.dstBase.toNat < o.srcBase.toNat + o.srcLen.toNat)

/-- The argument checks, from the command and the operand registers alone (spec/60_exceptions.md R283 a
to e). -/
def argFault (i : Instr) (o : OperandRegs) : Bool :=
  (readsMem i && windowWraps o.srcBase o.srcLen) ||
  (writesMem i && windowWraps o.dstBase o.dstCap) ||
  (writesMem i && windowsOverlap o && !(inPlaceAllowed i && o.srcBase == o.dstBase)) ||
  indexFault i o

/-- An address lies in the source window (spec/20_memory.md R73). -/
def inSrcWindow (o : OperandRegs) (a : Nat) : Bool :=
  decide (o.srcBase.toNat ≤ a) && decide (a < o.srcBase.toNat + o.srcLen.toNat)

/-- An address lies in the destination window (spec/20_memory.md R73). -/
def inDstWindow (o : OperandRegs) (a : Nat) : Bool :=
  decide (o.dstBase.toNat ≤ a) && decide (a < o.dstBase.toNat + o.dstCap.toNat)

/-- The operand registers by name (spec/10_state.md R31). -/
inductive OperandReg where
  | srcBase | srcLen | dstBase | dstCap | n | seed | seed2 | index | key
deriving DecidableEq, Repr

/-- The result registers by name (spec/10_state.md R31). -/
inductive ResultReg where
  | res | srcEnd | dstEnd | rseed | rseed2
deriving DecidableEq, Repr

/-- The 17 registers of the register block (spec/10_state.md R31, R34 to R37). -/
inductive HostReg where
  | cmd
  | status
  | ctrl
  | operand (r : OperandReg)
  | result (r : ResultReg)
deriving DecidableEq, Repr

/-- The value of an operand register. -/
def getOperand (r : OperandReg) (o : OperandRegs) : Word :=
  match r with
  | .srcBase => o.srcBase
  | .srcLen => o.srcLen
  | .dstBase => o.dstBase
  | .dstCap => o.dstCap
  | .n => o.n
  | .seed => o.seed
  | .seed2 => o.seed2
  | .index => o.index
  | .key => o.key

/-- An operand register written. -/
def setOperand (r : OperandReg) (v : Word) (o : OperandRegs) : OperandRegs :=
  match r with
  | .srcBase => { o with srcBase := v }
  | .srcLen => { o with srcLen := v }
  | .dstBase => { o with dstBase := v }
  | .dstCap => { o with dstCap := v }
  | .n => { o with n := v }
  | .seed => { o with seed := v }
  | .seed2 => { o with seed2 := v }
  | .index => { o with index := v }
  | .key => { o with key := v }

/-- The value of a result register. -/
def getResult (r : ResultReg) (o : ResultRegs) : Word :=
  match r with
  | .res => o.res
  | .srcEnd => o.srcEnd
  | .dstEnd => o.dstEnd
  | .rseed => o.rseed
  | .rseed2 => o.rseed2

/-- The register at a byte offset of the register block: `CMD`, `STATUS`, `CTRL`, then `x[i]` at
`0x18 + 8*i` (spec/10_state.md R31, R34 to R36). -/
def hostRegAt (off : Nat) : Option HostReg :=
  match off with
  | 0x00 => some .cmd
  | 0x08 => some .status
  | 0x10 => some .ctrl
  | 0x18 => some (.operand .srcBase)
  | 0x20 => some (.operand .srcLen)
  | 0x28 => some (.operand .dstBase)
  | 0x30 => some (.operand .dstCap)
  | 0x38 => some (.operand .n)
  | 0x40 => some (.operand .seed)
  | 0x48 => some (.operand .seed2)
  | 0x50 => some (.operand .index)
  | 0x58 => some (.operand .key)
  | 0x60 => some (.result .res)
  | 0x68 => some (.result .srcEnd)
  | 0x70 => some (.result .dstEnd)
  | 0x78 => some (.result .rseed)
  | 0x80 => some (.result .rseed2)
  | _ => none

end Sys2Proof.Machine
end

