-- ==== Sys2Proof/Machine/Ops.lean ====
section
/-! DEFINITION. The named operations: memory (spec/20_memory.md), the free draws (spec/00_scope.md R17),
raising a fault (spec/60_exceptions.md R281, R286), completing a command (spec/10_state.md R46), the
outcomes the rules leave free (R288, R289, R316), the reset (spec/70_reset_and_hazards.md R310, R311), and
the one shape every command runs in (spec/10_state.md R45). -/

namespace Sys2Proof.Machine

/-! ### Memory -/

/-- One byte of memory; an address nothing has written holds the platform's content
(spec/10_state.md R47, notes/assumptions/3.md). -/
def Memory.read : Memory → Nat → Byte
  | [], a => Config.powerUpByte a
  | (x, b) :: m, a => if x = a then b else Memory.read m a

/-- The cells of bytes at consecutive addresses from `a` on. -/
def cellsAt : Nat → List Byte → Memory
  | _, [] => []
  | a, b :: bs => (a, b) :: cellsAt (a + 1) bs

/-- `MemWrite(a, |bs|, bs)` (spec/20_memory.md R72): the new cells stand before the first listed address
that is not below `a`, and replace those they cover. -/
def Memory.writeBytes : Memory → Nat → List Byte → Memory
  | [], a, bs => cellsAt a bs
  | (x, y) :: m, a, bs =>
    if x < a then (x, y) :: Memory.writeBytes m a bs
    else cellsAt a bs ++ ((x, y) :: m).filter fun c => decide (c.1 < a) || decide (a + bs.length ≤ c.1)

/-- One byte of memory written. -/
def Memory.write (m : Memory) (a : Nat) (b : Byte) : Memory := m.writeBytes a [b]

/-- Addresses rise strictly from `lo` and exist. -/
def Memory.risingFrom : Nat → Memory → Bool
  | _, [] => true
  | lo, (a, _) :: m => decide (lo ≤ a) && decide (a < addressLimit) && Memory.risingFrom (a + 1) m

/-- The canonical form: addresses strictly rising and below `2^64` (spec/10_state.md R41). -/
def Memory.wf (m : Memory) : Bool := Memory.risingFrom 0 m

/-- The `k` bytes a byte-indexed source gives from offset `off` on. -/
def bytesFrom (f : Nat → Byte) : Nat → Nat → List Byte
  | _, 0 => []
  | off, k + 1 => f off :: bytesFrom f (off + 1) k

/-! ### The source window -/

/-- The source window as a command sees it: its length, and its bytes by offset (R73, R74). -/
structure Src where
  len : Nat
  byte : Nat → Byte

/-- The source window of a state (spec/20_memory.md R73). -/
def srcWindow (s : State) : Src where
  len := s.operands.srcLen.toNat
  byte := fun off => s.mem.read (s.operands.srcBase.toNat + off)

/-- Why a command's rule ends before it has a result. -/
inductive Stop where
  /-- A `SrcRead` beyond the source window (spec/60_exceptions.md R284). -/
  | srcBounds
  /-- A malformed input (spec/60_exceptions.md R288). -/
  | malformed
  /-- A non-monotone block at `EF_ENC` (spec/60_exceptions.md R289). -/
  | contract
deriving DecidableEq, Repr

/-- `SrcRead(off, k)` (spec/20_memory.md R74). -/
def srcRead (v : Src) (off k : Nat) : Except Stop (List Byte) :=
  if v.len < off + k then .error .srcBounds else .ok (bytesFrom v.byte off k)

/-- The elements of `SrcRead(0, n*E)` (spec/20_memory.md R71). -/
def srcElements (v : Src) (w n : Nat) : Except Stop (List (BitVec w)) :=
  match srcRead v 0 (n * (w / 8)) with
  | .ok bs => .ok (elements w n bs)
  | .error e => .error e

/-! ### Free draws -/

/-- Five result registers, each an `any()` of its own. -/
def freeResults (k : Nat) : ResultRegs where
  res := Config.freeWord k
  srcEnd := Config.freeWord (k + 1)
  dstEnd := Config.freeWord (k + 2)
  rseed := Config.freeWord (k + 3)
  rseed2 := Config.freeWord (k + 4)

/-- `len` bytes, each an `any()` of its own, from the `k`-th draw on. -/
def freeBytes : Nat → Nat → List Byte
  | _, 0 => []
  | k, len + 1 => Config.freeByte k :: freeBytes (k + 1) len

/-- The number of bytes of the destination window that exist: all of them unless the window would wrap
(spec/20_memory.md R76, notes/assumptions/10.md). -/
def dstWindowSize (o : OperandRegs) : Nat := min o.dstCap.toNat (addressLimit - o.dstBase.toNat)

/-- Every byte of the destination window becomes an `any()`. -/
def freeDstWindow (s : State) : State :=
  { s with
    mem := s.mem.writeBytes s.operands.dstBase.toNat (freeBytes s.draws (dstWindowSize s.operands))
    draws := s.draws + dstWindowSize s.operands }

/-- Each result register becomes an `any()`, and, if the command writes memory, so does every byte of
its destination window (spec/60_exceptions.md R286 b). -/
def freeOutputs (writes : Bool) (s : State) : State :=
  let t := { s with results := freeResults s.draws, draws := s.draws + 5 }
  if writes then freeDstWindow t else t

/-! ### Taking a fault, completing, resetting -/

/-- `raise F` (spec/60_exceptions.md R281) with the effects of R286: after `ILLEGAL_CMD` and `ARG` nothing
but `STATUS` has changed; after `SRC_BOUNDS` and `DST_CAPACITY` the outputs are free. -/
def raise (code : FaultCode) (writes : Bool) (s : State) : State :=
  match code with
  | .illegalCmd => { s with status := .fault .illegalCmd }
  | .arg => { s with status := .fault .arg }
  | .srcBounds => { freeOutputs writes s with status := .fault .srcBounds }
  | .dstCapacity => { freeOutputs writes s with status := .fault .dstCapacity }

/-- The reset of the unit, the way out of `FAULT` and the counterpart of a return (spec/60_exceptions.md
R292): every register takes its reset value and memory is not touched (spec/10_state.md R47,
spec/70_reset_and_hazards.md R310). `leavesFree` says that a command running now leaves its destination
window free: so does a soft reset of a command that writes memory (R311), and never a hardware reset. -/
def resetUnit (leavesFree : Bool) (s : State) : State :=
  let t := if s.status = .busy ∧ leavesFree = true then freeDstWindow s else s
  { t with
    operands := {}
    results := {}
    cmd := 0#32
    status := .idle
    srcTouched := false
    dstTouched := [] }

/-- What a command's rule gives when nothing stops it: the bytes of its one `DstWrite(0, ..)` and the
five result registers (spec/10_state.md R46). -/
structure Output where
  bytes : List Byte := []
  results : ResultRegs := {}
deriving DecidableEq, Repr

/-- The end of a command without fault (spec/10_state.md R43, R46; spec/20_memory.md R81). -/
def complete (o : Output) (s : State) : State :=
  { s with
    mem := s.mem.writeBytes s.operands.dstBase.toNat o.bytes
    results := o.results
    status := .done }

/-- The completion of spec/60_exceptions.md R288 a: `DONE` with free outputs. -/
def completeFree (writes : Bool) (s : State) : State :=
  { freeOutputs writes s with status := .done }

/-- Malformed input (spec/60_exceptions.md R288): one of (a) completion with free outputs, (b)
`SRC_BOUNDS`, (c) `DST_CAPACITY`; (a) only when nothing is written or the array of `need` bytes fits,
(c) only when it does not fit. -/
def malformedOutcome (writes : Bool) (need : Nat) (s : State) : State :=
  let t := { s with draws := s.draws + 1 }
  if Config.freeChoice s.draws then raise .srcBounds writes t
  else if writes ∧ s.operands.dstCap.toNat < need then raise .dstCapacity writes t
  else completeFree writes t

/-- A non-monotone array at `EF_ENC` (spec/60_exceptions.md R289): `DST_CAPACITY`, or completion with an
exact `SRC_END`, a free `DST_END` not above `DST_CAP`, a free `RSEED` and a free destination window. -/
def contractOutcome (need : Nat) (s : State) : State :=
  let t := { s with draws := s.draws + 1 }
  if Config.freeChoice s.draws then raise .dstCapacity true t
  else
    { freeDstWindow { t with draws := t.draws + 2 } with
      results :=
        { srcEnd := resultOfNat need
          dstEnd := resultOfNat ((Config.freeWord t.draws).toNat % (s.operands.dstCap.toNat + 1))
          rseed := Config.freeWord (t.draws + 1) }
      status := .done }

/-- What another agent's write into the source window of a running command makes of its outcome
(spec/70_reset_and_hazards.md R316): `DONE`, `SRC_BOUNDS` or, if the command writes memory,
`DST_CAPACITY`, with free outputs in every case. -/
def touchedOutcome (writes : Bool) (s : State) : State :=
  let t := { s with draws := s.draws + 2 }
  if Config.freeChoice s.draws then completeFree writes t
  else if writes ∧ Config.freeChoice (s.draws + 1) then raise .dstCapacity writes t
  else raise .srcBounds writes t

/-- Each listed byte becomes an `any()` (spec/70_reset_and_hazards.md R316). -/
def freeTouched : List Nat → State → State
  | [], s => s
  | a :: as, s =>
    freeTouched as { s with mem := s.mem.write a (Config.freeByte s.draws), draws := s.draws + 1 }

/-- The execute step of a decoded command (spec/10_state.md R45): the argument checks, then the
command's rule, then the one destination write with its capacity check, in that order
(spec/60_exceptions.md R287). -/
def runCommand (i : Instr) (rule : Except Stop Output) (s : State) : State :=
  if argFault i s.operands then raise .arg (writesMem i) s
  else
    match rule with
    | .ok o =>
      if s.operands.dstCap.toNat < o.bytes.length then raise .dstCapacity (writesMem i) s
      else complete o s
    | .error .srcBounds => raise .srcBounds (writesMem i) s
    | .error .malformed => malformedOutcome (writesMem i) (count s * (widthOfInstr i).bytes) s
    | .error .contract => contractOutcome (count s * (widthOfInstr i).bytes) s

end Sys2Proof.Machine
end

