-- ==== Sys2Proof/Machine/BitWidth.lean ====
section
/-! DEFINITION. The bit-width utilities (spec/40_bitwidth.md R141 to R144). -/

namespace Sys2Proof.Machine

/-- `BITW` (R141). -/
def execBitw (ws : Width) (s : State) : Host.Outcome State Fault Refusal :=
  .next (runCommand (.bitw ws) (.ok { results := { res := resultOfNat (bw (keyElem ws.bits s).toNat) } }) s)

/-- The rule of `BLKBITW` (R142). -/
def blkbitwRule (w : Nat) (s : State) : Except Stop Output :=
  match srcElements (srcWindow s) w (count s) with
  | .error e => .error e
  | .ok xs =>
    .ok { results := { res := resultOfNat (bw (listMax (xs.map BitVec.toNat)))
                       srcEnd := resultOfNat (count s * (w / 8)) } }

/-- `BLKBITW` (R142). -/
def execBlkbitw (ws : Width) (s : State) : Host.Outcome State Fault Refusal :=
  .next (runCommand (.blkbitw ws) (blkbitwRule ws.bits s) s)

/-- `vblen(v) = max(1, ceil(bw(v)/7))` (R143). -/
def vblenOf (v : Nat) : Nat := max 1 (ceilDiv (bw v) 7)

/-- `VBLEN` (R143). -/
def execVblen (ws : Width) (s : State) : Host.Outcome State Fault Refusal :=
  .next (runCommand (.vblen ws) (.ok { results := { res := resultOfNat (vblenOf (keyElem ws.bits s).toNat) } }) s)

/-- The bytes of a VByte value from offset `pos` on, up to and with the first byte whose bit 7 is clear
(R144, spec/42_vbyte.md R172); `fuel` above the bytes left in the window never runs out. -/
def vbScan (v : Src) : Nat → Nat → Except Stop (List Byte)
  | 0, _ => .error .srcBounds
  | fuel + 1, pos =>
    match srcRead v pos 1 with
    | .error e => .error e
    | .ok bs =>
      if bs.all fun b => decide (b.toNat < 128) then .ok bs
      else
        match vbScan v fuel (pos + 1) with
        | .error e => .error e
        | .ok rest => .ok (bs ++ rest)

/-- The bytes of the VByte value at offset `pos` of the source window. -/
def vbValueBytes (v : Src) (pos : Nat) : Except Stop (List Byte) := vbScan v (v.len + 1) pos

/-- The rule of `VBVLEN` (R144). -/
def vbvlenRule (s : State) : Except Stop Output :=
  match vbValueBytes (srcWindow s) 0 with
  | .error e => .error e
  | .ok bs => .ok { results := { res := resultOfNat bs.length, srcEnd := resultOfNat bs.length } }

/-- `VBVLEN` (R144). -/
def execVbvlen (s : State) : Host.Outcome State Fault Refusal :=
  .next (runCommand .vbvlen (vbvlenRule s) s)

end Sys2Proof.Machine
end

