-- ==== Sys2Proof/Machine/Transform.lean ====
section
/-! DEFINITION. The transform stage and its two commands (spec/41_transform.md). -/

namespace Sys2Proof.Machine

/-- One forward step: from the state `(p, q)` and the element `x` to the output and the next state
(R151 to R156). -/
def xfStep {w : Nat} (tr : Transform) (p q x : BitVec w) : BitVec w × BitVec w × BitVec w :=
  match tr with
  | .ident => (x, p, q)
  | .delta => (x - p, x, q)
  | .delta1 => (x - p - 1#w, x, q)
  | .zigzag => (zz (x - p), x, q)
  | .ddelta => (x - p - q, x, x - p)
  | .xorPrev => (x ^^^ p, x, q)

/-- One inverse step: from the state `(p, q)` and the stored value `y` to the element and the next
state (R157 to R162). -/
def xfiStep {w : Nat} (tr : Transform) (p q y : BitVec w) : BitVec w × BitVec w × BitVec w :=
  match tr with
  | .ident => (y, p, q)
  | .delta => (p + y, p + y, q)
  | .delta1 => (p + y + 1#w, p + y + 1#w, q)
  | .zigzag => (p + unzz y, p + unzz y, q)
  | .ddelta => (p + (y + q), p + (y + q), y + q)
  | .xorPrev => (y ^^^ p, y ^^^ p, q)

/-- An array with the running seed after its last element (R150). -/
structure Seeded (w : Nat) where
  xs : List (BitVec w)
  p : BitVec w
  q : BitVec w
deriving DecidableEq, Repr

/-- `XF(TR, W, p0, q0, xs)` (R150). -/
def xf {w : Nat} (tr : Transform) : BitVec w → BitVec w → List (BitVec w) → Seeded w
  | p, q, [] => { xs := [], p := p, q := q }
  | p, q, x :: xs =>
    let st := xfStep tr p q x
    let rest := xf tr st.2.1 st.2.2 xs
    { rest with xs := st.1 :: rest.xs }

/-- `XFI(TR, W, p0, q0, ys)` (R150). -/
def xfi {w : Nat} (tr : Transform) : BitVec w → BitVec w → List (BitVec w) → Seeded w
  | p, q, [] => { xs := [], p := p, q := q }
  | p, q, y :: ys =>
    let st := xfiStep tr p q y
    let rest := xfi tr st.2.1 st.2.2 ys
    { rest with xs := st.1 :: rest.xs }

/-- The result registers of a command that returns cursors and both running seeds (R163). -/
def seededResults {w : Nat} (srcEnd dstEnd : Nat) (r : Seeded w) : ResultRegs :=
  { srcEnd := resultOfNat srcEnd, dstEnd := resultOfNat dstEnd
    rseed := resultOfElem r.p, rseed2 := resultOfElem r.q }

/-- The shape of the encoders that start with the transform stage (R163, R168): read the array,
transform it, lay out the result, return the cursors and the running seed. -/
def encodeRule (w : Nat) (tr : Transform) (layout : List (BitVec w) → List Byte) (s : State) :
    Except Stop Output :=
  match srcElements (srcWindow s) w (count s) with
  | .error e => .error e
  | .ok xs =>
    let r := xf tr (seedElem w s) (seed2Elem w s) xs
    let out := layout r.xs
    .ok { bytes := out, results := seededResults (count s * (w / 8)) out.length r }

/-- `XF_FWD` (R163). -/
def execXfFwd (ws : Width) (tr : Transform) (s : State) : Host.Outcome State Fault Refusal :=
  .next (runCommand (.xfFwd ws tr) (encodeRule ws.bits tr arrBytes s) s)

/-- The rule of `XF_INV` (R164). -/
def xfInvRule (w : Nat) (tr : Transform) (s : State) : Except Stop Output :=
  match srcElements (srcWindow s) w (count s) with
  | .error e => .error e
  | .ok ys =>
    let r := xfi tr (seedElem w s) (seed2Elem w s) ys
    .ok { bytes := arrBytes r.xs
          results := seededResults (count s * (w / 8)) (count s * (w / 8)) r }

/-- `XF_INV` (R164). -/
def execXfInv (ws : Width) (tr : Transform) (s : State) : Host.Outcome State Fault Refusal :=
  .next (runCommand (.xfInv ws tr) (xfInvRule ws.bits tr s) s)

end Sys2Proof.Machine
end

