-- ==== Sys2Proof/Machine/VByte.lean ====
section
/-! DEFINITION. The scalar VByte codec (spec/42_vbyte.md). -/

namespace Sys2Proof.Machine

/-- What a backend's decoder computes before its `DstWrite` (spec/47_random_access.md R250): the array
with the running seed, and the cursor. -/
structure Decoded (w : Nat) where
  seeded : Seeded w
  pos : Nat
deriving DecidableEq, Repr

/-- The shape of the decoders: decode `n` elements, write the array, return the cursors and the running
seed (R174, spec/43_turbobyte.md R189, spec/45_pfor.md R216, spec/46_eliasfano.md R237). -/
def decodeRule {w : Nat} (decoder : Nat → Except Stop (Decoded w)) (s : State) : Except Stop Output :=
  match decoder (count s) with
  | .error e => .error e
  | .ok d =>
    .ok { bytes := arrBytes d.seeded.xs
          results := seededResults d.pos (count s * (w / 8)) d.seeded }

/-- The repetition of `vb_put` (R171), in at most `fuel` bytes. -/
def vbPutFuel : Nat → Nat → List Byte
  | 0, _ => []
  | fuel + 1, v =>
    if v / 128 = 0 then [BitVec.ofNat 8 (v % 128)]
    else BitVec.ofNat 8 (v % 128 + 128) :: vbPutFuel fuel (v / 128)

/-- `vb_put(v)` (R171): a natural below `2^64` needs at most ten bytes. -/
def vbPut (v : Nat) : List Byte := vbPutFuel 10 v

/-- The VByte buffer of an array (R170). -/
def vbLayout {w : Nat} (t : List (BitVec w)) : List Byte := t.flatMap fun v => vbPut v.toNat

/-- `VB_ENC` (R173). -/
def execVbEnc (ws : Width) (tr : Transform) (s : State) : Host.Outcome State Fault Refusal :=
  .next (runCommand (.vbEnc ws tr) (encodeRule ws.bits tr vbLayout s) s)

/-- The payload of the bytes of a VByte value: seven bits a byte, least significant group first (R172). -/
def vbPayload : List Byte → Nat
  | [] => 0
  | b :: bs => b.toNat % 128 + 128 * vbPayload bs

/-- `vb_get(W, pos)` (R172). -/
def vbGet (v : Src) (w pos : Nat) : Except Stop (BitVec w × Nat) :=
  match vbValueBytes v pos with
  | .error e => .error e
  | .ok bs =>
    if ceilDiv w 7 < bs.length ∨ 2 ^ w ≤ vbPayload bs then .error .malformed
    else .ok (BitVec.ofNat w (vbPayload bs), pos + bs.length)

/-- `n` values from offset `pos` on, with the cursor after them (R174). -/
def vbGetAll (v : Src) (w : Nat) : Nat → Nat → Except Stop (List (BitVec w) × Nat)
  | 0, pos => .ok ([], pos)
  | n + 1, pos =>
    match vbGet v w pos with
    | .error e => .error e
    | .ok (x, pos') =>
      match vbGetAll v w n pos' with
      | .error e => .error e
      | .ok (xs, pos'') => .ok (x :: xs, pos'')

/-- `DECODE_VB(m)` (spec/47_random_access.md R250; R174). -/
def vbDecode (w : Nat) (tr : Transform) (s : State) (m : Nat) : Except Stop (Decoded w) :=
  match vbGetAll (srcWindow s) w m 0 with
  | .error e => .error e
  | .ok (t, pos) => .ok { seeded := xfi tr (seedElem w s) (seed2Elem w s) t, pos := pos }

/-- `VB_DEC` (R174). -/
def execVbDec (ws : Width) (tr : Transform) (s : State) : Host.Outcome State Fault Refusal :=
  .next (runCommand (.vbDec ws tr) (decodeRule (vbDecode ws.bits tr s) s) s)

end Sys2Proof.Machine
end

