-- ==== Sys2Proof/Machine/EliasFano.lean ====
section
/-! DEFINITION. The Elias-Fano codec (spec/46_eliasfano.md). -/

namespace Sys2Proof.Machine

/-- `ef_L(U, Bk)` (R231). -/
def efL (u bk : Nat) : Nat := if bk ≤ u then bw (u / bk) - 1 else 0

/-- `ef_hb(U, Bk)` (R232). -/
def efHb (u bk : Nat) : Nat := bk + 2 ^ (bw u - efL u bk)

/-- The high-bits bit stream as a number: bit `(u[i] >> L) + i` set for each value, counted from `i` on (R233). -/
def efHighBits (l : Nat) : Nat → List Nat → Nat
  | _, [] => 0
  | i, v :: us => 2 ^ (v / 2 ^ l + i) ||| efHighBits l (i + 1) us

/-- The last value of a block, 0 for none. -/
def lastOr (d : Nat) : List Nat → Nat
  | [] => d
  | x :: xs => lastOr x xs

/-- `ef_block(W, u)` (R233). -/
def efBlock (w : Nat) (us : List Nat) : List Byte :=
  let ul := lastOr 0 us
  let l := efL (ul + 1) us.length
  leBytes (w / 8) ul ++ pack l us ++
    leBytes (bytesFor (efHb (ul + 1) us.length)) (efHighBits l 0 us)

/-- Non-decreasing as unsigned numbers (R235). -/
def nonDecreasing : List Nat → Bool
  | [] => true
  | [_] => true
  | x :: y :: xs => decide (x ≤ y) && nonDecreasing (y :: xs)

/-- Rebasing (R235): `u[i] = x[i] - p - s*(i+1)`, counted from `i` on. -/
def efRebase {w : Nat} (st : Nat) (p : BitVec w) : Nat → List (BitVec w) → List (BitVec w)
  | _, [] => []
  | i, x :: xs => (x - p - BitVec.ofNat w (st * (i + 1))) :: efRebase st p (i + 1) xs

/-- The inverse of rebasing (R235): `x[i] = p + u[i] + s*(i+1)`. -/
def efUnbase {w : Nat} (st : Nat) (p : BitVec w) : Nat → List (BitVec w) → List (BitVec w)
  | _, [] => []
  | i, u :: us => (p + u + BitVec.ofNat w (st * (i + 1))) :: efUnbase st p (i + 1) us

/-- The last element of a block, the seed if it has none. -/
def lastElem {w : Nat} (p : BitVec w) : List (BitVec w) → BitVec w
  | [] => p
  | x :: xs => lastElem x xs

/-- The blocks of an array from the seed `p` on, with the last element (R236). A block that is not
monotone after rebasing is a contract violation. -/
def efEncodeBlocks {w : Nat} (st : Nat) : BitVec w → List (List (BitVec w)) → Except Stop (List Byte × BitVec w)
  | p, [] => .ok ([], p)
  | p, x :: xs =>
    let us := (efRebase st p 0 x).map BitVec.toNat
    if nonDecreasing us then
      match efEncodeBlocks st (lastElem p x) xs with
      | .error e => .error e
      | .ok (out, p') => .ok (efBlock w us ++ out, p')
    else .error .contract

/-- The rule of `EF_ENC` (R236). -/
def efEncRule (w : Nat) (tr : Transform) (b : Nat) (s : State) : Except Stop Output :=
  match srcElements (srcWindow s) w (count s) with
  | .error e => .error e
  | .ok xs =>
    match efEncodeBlocks (strictStep tr) (seedElem w s) (chunks b xs) with
    | .error e => .error e
    | .ok (out, p) =>
      .ok { bytes := out
            results := { srcEnd := resultOfNat (count s * (w / 8))
                         dstEnd := resultOfNat out.length
                         rseed := resultOfElem p } }

/-- `EF_ENC` (R236). The lane has no effect (spec/44_bitpack.md R203). -/
def execEfEnc (ws : Width) (tr : Transform) (lane : Lane) (bm1 : BlockField) (s : State) :
    Host.Outcome State Fault Refusal :=
  .next (runCommand (.efEnc ws tr lane bm1) (efEncRule ws.bits tr (blockSize bm1) s) s)

/-- The scan of the high-bits bit stream `h` (R234): from position `pos`, with `i` set bits met, the
values of the remaining low parts; it ends with the `hb`-th position or the last low part. -/
def efScan (w l h : Nat) : Nat → Nat → Nat → List Nat → List (BitVec w)
  | 0, _, _, _ => []
  | _ + 1, _, _, [] => []
  | fuel + 1, pos, i, low :: lows =>
    if h.testBit pos then
      BitVec.ofNat w ((pos - i) * 2 ^ l + low) :: efScan w l h fuel (pos + 1) (i + 1) lows
    else efScan w l h fuel (pos + 1) i (low :: lows)

/-- `ef_unblock(W, Bk, pos)` (R234). -/
def efUnblock (v : Src) (w bk pos : Nat) : Except Stop (List (BitVec w) × Nat) :=
  match srcRead v pos (w / 8) with
  | .error e => .error e
  | .ok header =>
    let u := leValue header + 1
    let l := efL u bk
    let hb := efHb u bk
    let pos1 := pos + w / 8
    match srcRead v pos1 (bytesFor (l * bk)) with
    | .error e => .error e
    | .ok lowBytes =>
      let pos2 := pos1 + bytesFor (l * bk)
      match srcRead v pos2 (bytesFor hb) with
      | .error e => .error e
      | .ok highBytes =>
        let us := efScan w l (leValue highBytes) hb 0 0 (unpack l lowBytes bk)
        if us.length < bk then .error .malformed
        else .ok (us, pos2 + bytesFor hb)

/-- `blocks` blocks holding `left` elements, from the seed `p` and offset `pos` on (R237). -/
def efBlocks (v : Src) (w st b : Nat) : Nat → Nat → BitVec w → Nat → Except Stop (List (BitVec w) × BitVec w × Nat)
  | 0, _, p, pos => .ok ([], p, pos)
  | blocks + 1, left, p, pos =>
    match efUnblock v w (min b left) pos with
    | .error e => .error e
    | .ok (us, pos') =>
      let x := efUnbase st p 0 us
      match efBlocks v w st b blocks (left - b) (lastElem p x) pos' with
      | .error e => .error e
      | .ok (xs, p', pos'') => .ok (x ++ xs, p', pos'')

/-- `DECODE_EF(m)` (spec/47_random_access.md R250; R237). `RSEED2` gets 0: the second seed is not read
(R230). -/
def efDecode (w : Nat) (tr : Transform) (b : Nat) (s : State) (m : Nat) : Except Stop (Decoded w) :=
  match efBlocks (srcWindow s) w (strictStep tr) b (ceilDiv m b) m (seedElem w s) 0 with
  | .error e => .error e
  | .ok (xs, p, pos) => .ok { seeded := { xs := xs, p := p, q := 0#w }, pos := pos }

/-- `EF_DEC` (R237). -/
def execEfDec (ws : Width) (tr : Transform) (lane : Lane) (bm1 : BlockField) (s : State) :
    Host.Outcome State Fault Refusal :=
  .next (runCommand (.efDec ws tr lane bm1) (decodeRule (efDecode ws.bits tr (blockSize bm1) s) s) s)

end Sys2Proof.Machine
end

