-- ==== Sys2Proof/Machine/PFor.lean ====
section
/-! DEFINITION. The PFor block coder: the width selector, the exception recorder, the patcher and the
three commands (spec/45_pfor.md). -/

namespace Sys2Proof.Machine

/-- `ob = bw(B - 1)`, the bits of an in-block offset (R211). -/
def pfOffsetBits (b : Nat) : Nat := bw (b - 1)

/-- `c(w)`: the number of elements that do not fit in `k` bits (R211). -/
def pfExceptionCount (k : Nat) (d : List Nat) : Nat := d.countP fun v => decide (k < bw v)

/-- `cost(w) = w*m + c(w) * (ob + W)` (R211), for a packing width `k`. -/
def pfCost (w b : Nat) (d : List Nat) (k : Nat) : Nat :=
  k * d.length + pfExceptionCount k d * (pfOffsetBits b + w)

/-- The least of the candidates `0 .. top` with the least cost (R211). -/
def leastCost (cost : Nat → Nat) : Nat → Nat
  | 0 => 0
  | top + 1 => if cost (top + 1) < cost (leastCost cost top) then top + 1 else leastCost cost top

/-- The packing width `pf_selw(W, B, d)` selects (R211). -/
def pfWidth (w b : Nat) (d : List Nat) : Nat := leastCost (pfCost w b d) (bw (listMax d))

/-- The exceptions of a block at packing width `k`: their positions, counted from `i` on, and values (R212). -/
def pfExceptions (k : Nat) : Nat → List Nat → List (Nat × Nat)
  | _, [] => []
  | i, v :: d => if k < bw v then (i, v) :: pfExceptions k (i + 1) d else pfExceptions k (i + 1) d

/-- The gaps of rising positions, `next` the first position not passed yet (R212). -/
def gapsFrom : Nat → List Nat → List Nat
  | _, [] => []
  | next, p :: ps => (p - next) :: gapsFrom (p + 1) ps

/-- `pf_block(W, B, d)` (R212). -/
def pfBlock (w b : Nat) (d : List Nat) : List Byte :=
  let k := pfWidth w b d
  let ex := pfExceptions k 0 d
  BitVec.ofNat 8 k :: BitVec.ofNat 8 ex.length ::
    (pack k d ++ pack (pfOffsetBits b) (gapsFrom 0 (ex.map Prod.fst)) ++ pack w (ex.map Prod.snd))

/-- The PFor buffer of an array with block size `b` (R210, R215). -/
def pfLayout (b : Nat) {w : Nat} (t : List (BitVec w)) : List Byte :=
  (chunks b (t.map BitVec.toNat)).flatMap (pfBlock w b)

/-- `PF_ENC` (R215). The lane has no effect (spec/44_bitpack.md R203). -/
def execPfEnc (ws : Width) (tr : Transform) (lane : Lane) (bm1 : BlockField) (s : State) :
    Host.Outcome State Fault Refusal :=
  .next (runCommand (.pfEnc ws tr lane bm1) (encodeRule ws.bits tr (pfLayout (blockSize bm1)) s) s)

/-- The patcher (R213): each exception is a gap and a true value; `next` is the first position not
passed yet. A position outside the block is malformed. -/
def pfPatch (bk : Nat) : Nat → List (Nat × Nat) → List Nat → Except Stop (List Nat)
  | _, [], d => .ok d
  | next, (gap, v) :: ex, d =>
    if bk ≤ next + gap then .error .malformed
    else pfPatch bk (next + gap + 1) ex (d.set (next + gap) v)

/-- `pf_unblock(W, B, Bk, pos)` (R213). -/
def pfUnblock (v : Src) (w b bk pos : Nat) : Except Stop (List Nat × Nat) :=
  match srcRead v pos 1 with
  | .error e => .error e
  | .ok hw =>
    match srcRead v (pos + 1) 1 with
    | .error e => .error e
    | .ok hc =>
      let k := leValue hw
      let c := leValue hc
      if w < k ∨ bk < c then .error .malformed
      else
        let pos1 := pos + 2
        match srcRead v pos1 (bytesFor (k * bk)) with
        | .error e => .error e
        | .ok packed =>
          let pos2 := pos1 + bytesFor (k * bk)
          match srcRead v pos2 (bytesFor (pfOffsetBits b * c)) with
          | .error e => .error e
          | .ok gaps =>
            let pos3 := pos2 + bytesFor (pfOffsetBits b * c)
            match srcRead v pos3 (c * (w / 8)) with
            | .error e => .error e
            | .ok vals =>
              match pfPatch bk 0 ((unpack (pfOffsetBits b) gaps c).zip (unpack w vals c)) (unpack k packed bk) with
              | .error e => .error e
              | .ok d => .ok (d, pos3 + c * (w / 8))

/-- `blocks` blocks holding `left` elements, from offset `pos` on (R216). -/
def pfBlocks (v : Src) (w b : Nat) : Nat → Nat → Nat → Except Stop (List (BitVec w) × Nat)
  | 0, _, pos => .ok ([], pos)
  | blocks + 1, left, pos =>
    match pfUnblock v w b (min b left) pos with
    | .error e => .error e
    | .ok (d, pos') =>
      match pfBlocks v w b blocks (left - b) pos' with
      | .error e => .error e
      | .ok (xs, pos'') => .ok (d.map (BitVec.ofNat w) ++ xs, pos'')

/-- `DECODE_PF(m)` (spec/47_random_access.md R250; R216). -/
def pfDecode (w : Nat) (tr : Transform) (b : Nat) (s : State) (m : Nat) : Except Stop (Decoded w) :=
  match pfBlocks (srcWindow s) w b (ceilDiv m b) m 0 with
  | .error e => .error e
  | .ok (t, pos) => .ok { seeded := xfi tr (seedElem w s) (seed2Elem w s) t, pos := pos }

/-- `PF_DEC` (R216). -/
def execPfDec (ws : Width) (tr : Transform) (lane : Lane) (bm1 : BlockField) (s : State) :
    Host.Outcome State Fault Refusal :=
  .next (runCommand (.pfDec ws tr lane bm1) (decodeRule (pfDecode ws.bits tr (blockSize bm1) s) s) s)

/-- The rule of `PF_SELW` (R217). -/
def pfSelwRule (w b : Nat) (s : State) : Except Stop Output :=
  match srcElements (srcWindow s) w (count s) with
  | .error e => .error e
  | .ok xs =>
    let d := xs.map BitVec.toNat
    let k := pfWidth w b d
    .ok { results := { res := resultOfNat (k + 256 * pfExceptionCount k d)
                       srcEnd := resultOfNat (count s * (w / 8)) } }

/-- `PF_SELW` (R217); `N > B` is an argument fault (`indexFault`). -/
def execPfSelw (ws : Width) (bm1 : BlockField) (s : State) : Host.Outcome State Fault Refusal :=
  .next (runCommand (.pfSelw ws bm1) (pfSelwRule ws.bits (blockSize bm1) s) s)

end Sys2Proof.Machine
end

