-- ==== Sys2Proof/Machine/TurboByte.lean ====
section
/-! DEFINITION. The TurboByte group-varint codec (spec/43_turbobyte.md). -/

namespace Sys2Proof.Machine

/-- `tb_len(v) = max(1, ceil(bw(v)/8))` (R186). -/
def tbLen (v : Nat) : Nat := max 1 (bytesFor (bw v))

/-- One group: the descriptor, then the payloads (R187). -/
def tbGroup (vs : List Nat) : List Byte :=
  pack 2 (vs.map fun v => tbLen v - 1) ++ vs.flatMap fun v => leBytes (tbLen v) v

/-- The TurboByte buffer of an array with group size `g` (R187, R188). -/
def tbLayout (g : Nat) {w : Nat} (t : List (BitVec w)) : List Byte :=
  (chunks g (t.map BitVec.toNat)).flatMap tbGroup

/-- `TB_ENC` (R188). The lane has no effect (spec/44_bitpack.md R203). -/
def execTbEnc (ws : Width) (tr : Transform) (lane : Lane) (gs : GroupSize) (s : State) :
    Host.Outcome State Fault Refusal :=
  .next (runCommand (.tbEnc ws tr lane gs) (encodeRule ws.bits tr (tbLayout gs.count) s) s)

/-- The payloads of a group, by its length codes, from offset `pos` on; a length above `W/8` is
malformed (R189). -/
def tbPayloads (v : Src) (w : Nat) : List Nat → Nat → Except Stop (List (BitVec w) × Nat)
  | [], pos => .ok ([], pos)
  | c :: cs, pos =>
    if w / 8 < c + 1 then .error .malformed
    else
      match srcRead v pos (c + 1) with
      | .error e => .error e
      | .ok bs =>
        match tbPayloads v w cs (pos + (c + 1)) with
        | .error e => .error e
        | .ok (xs, pos') => .ok (BitVec.ofNat w (leValue bs) :: xs, pos')

/-- `groups` groups holding `left` elements, from offset `pos` on (R189). -/
def tbGroups (v : Src) (w g : Nat) : Nat → Nat → Nat → Except Stop (List (BitVec w) × Nat)
  | 0, _, pos => .ok ([], pos)
  | groups + 1, left, pos =>
    match srcRead v pos (ceilDiv (min g left) 4) with
    | .error e => .error e
    | .ok ds =>
      match tbPayloads v w (unpack 2 ds (min g left)) (pos + ceilDiv (min g left) 4) with
      | .error e => .error e
      | .ok (xs, pos') =>
        match tbGroups v w g groups (left - g) pos' with
        | .error e => .error e
        | .ok (ys, pos'') => .ok (xs ++ ys, pos'')

/-- `DECODE_TB(m)` (spec/47_random_access.md R250; R189). -/
def tbDecode (w : Nat) (tr : Transform) (g : Nat) (s : State) (m : Nat) : Except Stop (Decoded w) :=
  match tbGroups (srcWindow s) w g (ceilDiv m g) m 0 with
  | .error e => .error e
  | .ok (t, pos) => .ok { seeded := xfi tr (seedElem w s) (seed2Elem w s) t, pos := pos }

/-- `TB_DEC` (R189). -/
def execTbDec (ws : Width) (tr : Transform) (lane : Lane) (gs : GroupSize) (s : State) :
    Host.Outcome State Fault Refusal :=
  .next (runCommand (.tbDec ws tr lane gs) (decodeRule (tbDecode ws.bits tr gs.count s) s) s)

end Sys2Proof.Machine
end

