-- ==== Sys2Proof/Machine/Access.lean ====
section
/-! DEFINITION. Random access and forward search over the four encoded formats
(spec/47_random_access.md). The lane has no effect (spec/44_bitpack.md R203). -/

namespace Sys2Proof.Machine

/-- `cover(i)`: the number of elements up to the end of the value, group or block of `unit` elements
that holds element `i` (R250). -/
def cover (unit n i : Nat) : Nat := min n ((i / unit + 1) * unit)

/-- The results of a get or a search: `RES`, all other result registers 0 (section 2). -/
def resOnly (v : Word) : Output := { results := { res := v } }

/-- `getx(INDEX)` (R250), with the backend's `DECODE` and unit. -/
def getxRule {w : Nat} (decoder : Nat → Except Stop (Decoded w)) (unit : Nat) (s : State) :
    Except Stop Output :=
  match decoder (cover unit (count s) s.operands.index.toNat) with
  | .error e => .error e
  | .ok d => .ok (resOnly (resultOfElem (d.seeded.xs.getD s.operands.index.toNat 0#w)))

/-- The forward search (R251, R252) from element `i` on, in at most `fuel` values, groups or blocks;
`hit` is the test. -/
def searchFrom {w : Nat} (decoder : Nat → Except Stop (Decoded w)) (unit n : Nat)
    (hit : BitVec w → Bool) : Nat → Nat → Except Stop Nat
  | 0, _ => .ok n
  | fuel + 1, i =>
    if i < n then
      match decoder (cover unit n i) with
      | .error e => .error e
      | .ok d =>
        match (d.seeded.xs.drop i).findIdx? hit with
        | some j => .ok (i + j)
        | none => searchFrom decoder unit n hit fuel (cover unit n i)
    else .ok n

/-- A search of the array from `INDEX` on; each round moves on by at least one element, so `N` rounds
suffice (R251, R252). -/
def searchRule {w : Nat} (decoder : Nat → Except Stop (Decoded w)) (unit : Nat) (hit : BitVec w → Bool)
    (s : State) : Except Stop Output :=
  match searchFrom decoder unit (count s) hit (count s) s.operands.index.toNat with
  | .error e => .error e
  | .ok j => .ok (resOnly (resultOfNat j))

/-- The test of `geteq` (R251). -/
def hitEq (w : Nat) (s : State) (x : BitVec w) : Bool := x == keyElem w s

/-- The test of `getgeq`, an unsigned comparison (R252). -/
def hitGeq (w : Nat) (s : State) (x : BitVec w) : Bool := decide ((keyElem w s).toNat ≤ x.toNat)

/-- `VB_GETX` (R253). -/
def execVbGetx (ws : Width) (tr : Transform) (s : State) : Host.Outcome State Fault Refusal :=
  .next (runCommand (.vbGetx ws tr) (getxRule (vbDecode ws.bits tr s) 1 s) s)

/-- `VB_GETEQ` (R254). -/
def execVbGeteq (ws : Width) (tr : Transform) (s : State) : Host.Outcome State Fault Refusal :=
  .next (runCommand (.vbGeteq ws tr) (searchRule (vbDecode ws.bits tr s) 1 (hitEq ws.bits s) s) s)

/-- `VB_GETGEQ` (R255). -/
def execVbGetgeq (ws : Width) (tr : Transform) (s : State) : Host.Outcome State Fault Refusal :=
  .next (runCommand (.vbGetgeq ws tr) (searchRule (vbDecode ws.bits tr s) 1 (hitGeq ws.bits s) s) s)

/-- `TB_GETX` (R256). -/
def execTbGetx (ws : Width) (tr : Transform) (lane : Lane) (gs : GroupSize) (s : State) :
    Host.Outcome State Fault Refusal :=
  .next (runCommand (.tbGetx ws tr lane gs)
    (getxRule (tbDecode ws.bits tr gs.count s) gs.count s) s)

/-- `TB_GETEQ` (R257). -/
def execTbGeteq (ws : Width) (tr : Transform) (lane : Lane) (gs : GroupSize) (s : State) :
    Host.Outcome State Fault Refusal :=
  .next (runCommand (.tbGeteq ws tr lane gs)
    (searchRule (tbDecode ws.bits tr gs.count s) gs.count (hitEq ws.bits s) s) s)

/-- `TB_GETGEQ` (R258). -/
def execTbGetgeq (ws : Width) (tr : Transform) (lane : Lane) (gs : GroupSize) (s : State) :
    Host.Outcome State Fault Refusal :=
  .next (runCommand (.tbGetgeq ws tr lane gs)
    (searchRule (tbDecode ws.bits tr gs.count s) gs.count (hitGeq ws.bits s) s) s)

/-- `PF_GETX` (R259). -/
def execPfGetx (ws : Width) (tr : Transform) (lane : Lane) (bm1 : BlockField) (s : State) :
    Host.Outcome State Fault Refusal :=
  .next (runCommand (.pfGetx ws tr lane bm1)
    (getxRule (pfDecode ws.bits tr (blockSize bm1) s) (blockSize bm1) s) s)

/-- `PF_GETEQ` (R260). -/
def execPfGeteq (ws : Width) (tr : Transform) (lane : Lane) (bm1 : BlockField) (s : State) :
    Host.Outcome State Fault Refusal :=
  .next (runCommand (.pfGeteq ws tr lane bm1)
    (searchRule (pfDecode ws.bits tr (blockSize bm1) s) (blockSize bm1) (hitEq ws.bits s) s) s)

/-- `PF_GETGEQ` (R261). -/
def execPfGetgeq (ws : Width) (tr : Transform) (lane : Lane) (bm1 : BlockField) (s : State) :
    Host.Outcome State Fault Refusal :=
  .next (runCommand (.pfGetgeq ws tr lane bm1)
    (searchRule (pfDecode ws.bits tr (blockSize bm1) s) (blockSize bm1) (hitGeq ws.bits s) s) s)

/-- `EF_GETX` (R262). -/
def execEfGetx (ws : Width) (tr : Transform) (lane : Lane) (bm1 : BlockField) (s : State) :
    Host.Outcome State Fault Refusal :=
  .next (runCommand (.efGetx ws tr lane bm1)
    (getxRule (efDecode ws.bits tr (blockSize bm1) s) (blockSize bm1) s) s)

/-- `EF_GETEQ` (R263). -/
def execEfGeteq (ws : Width) (tr : Transform) (lane : Lane) (bm1 : BlockField) (s : State) :
    Host.Outcome State Fault Refusal :=
  .next (runCommand (.efGeteq ws tr lane bm1)
    (searchRule (efDecode ws.bits tr (blockSize bm1) s) (blockSize bm1) (hitEq ws.bits s) s) s)

/-- `EF_GETGEQ` (R264). -/
def execEfGetgeq (ws : Width) (tr : Transform) (lane : Lane) (bm1 : BlockField) (s : State) :
    Host.Outcome State Fault Refusal :=
  .next (runCommand (.efGetgeq ws tr lane bm1)
    (searchRule (efDecode ws.bits tr (blockSize bm1) s) (blockSize bm1) (hitGeq ws.bits s) s) s)

end Sys2Proof.Machine
end

