-- ==== Sys2Proof/Machine/BitPack.lean ====
section
/-! DEFINITION. The bit-packing engine's two commands (spec/44_bitpack.md). The lane has no effect on
any result (R203). -/

namespace Sys2Proof.Machine

/-- The rule of `BP_PACK` (R201). -/
def bpPackRule (w pw : Nat) (s : State) : Except Stop Output :=
  match srcElements (srcWindow s) w (count s) with
  | .error e => .error e
  | .ok xs =>
    .ok { bytes := pack pw (xs.map BitVec.toNat)
          results := { srcEnd := resultOfNat (count s * (w / 8))
                       dstEnd := resultOfNat (bytesFor (pw * count s)) } }

/-- `BP_PACK` (R201). -/
def execBpPack (ws : Width) (lane : Lane) (pw : PackField) (s : State) : Host.Outcome State Fault Refusal :=
  .next (runCommand (.bpPack ws lane pw) (bpPackRule ws.bits pw.toNat s) s)

/-- The rule of `BP_UNPACK` (R202). -/
def bpUnpackRule (w pw : Nat) (s : State) : Except Stop Output :=
  match srcRead (srcWindow s) 0 (bytesFor (pw * count s)) with
  | .error e => .error e
  | .ok bs =>
    .ok { bytes := arrBytes ((unpack pw bs (count s)).map (BitVec.ofNat w))
          results := { srcEnd := resultOfNat (bytesFor (pw * count s))
                       dstEnd := resultOfNat (count s * (w / 8)) } }

/-- `BP_UNPACK` (R202). -/
def execBpUnpack (ws : Width) (lane : Lane) (pw : PackField) (s : State) : Host.Outcome State Fault Refusal :=
  .next (runCommand (.bpUnpack ws lane pw) (bpUnpackRule ws.bits pw.toNat s) s)

end Sys2Proof.Machine
end

