-- ==== Sys2Proof/Machine/Dispatch.lean ====
section
/-! DEFINITION. The meaning of every command: one arm per constructor of Instr. -/

namespace Sys2Proof.Machine

/-- The execute step of a decoded command (spec/10_state.md R45, steps 2 to 4). -/
def exec (i : Instr) (s : State) : Host.Outcome State Fault Refusal :=
  match i with
  | .bitw ws => Sys2Proof.Machine.execBitw ws s
  | .blkbitw ws => Sys2Proof.Machine.execBlkbitw ws s
  | .vblen ws => Sys2Proof.Machine.execVblen ws s
  | .vbvlen => Sys2Proof.Machine.execVbvlen s
  | .xfFwd ws tr => Sys2Proof.Machine.execXfFwd ws tr s
  | .xfInv ws tr => Sys2Proof.Machine.execXfInv ws tr s
  | .bpPack ws lane pw => Sys2Proof.Machine.execBpPack ws lane pw s
  | .bpUnpack ws lane pw => Sys2Proof.Machine.execBpUnpack ws lane pw s
  | .pfSelw ws bm1 => Sys2Proof.Machine.execPfSelw ws bm1 s
  | .vbEnc ws tr => Sys2Proof.Machine.execVbEnc ws tr s
  | .vbDec ws tr => Sys2Proof.Machine.execVbDec ws tr s
  | .vbGetx ws tr => Sys2Proof.Machine.execVbGetx ws tr s
  | .vbGeteq ws tr => Sys2Proof.Machine.execVbGeteq ws tr s
  | .vbGetgeq ws tr => Sys2Proof.Machine.execVbGetgeq ws tr s
  | .tbEnc ws tr lane gs => Sys2Proof.Machine.execTbEnc ws tr lane gs s
  | .tbDec ws tr lane gs => Sys2Proof.Machine.execTbDec ws tr lane gs s
  | .tbGetx ws tr lane gs => Sys2Proof.Machine.execTbGetx ws tr lane gs s
  | .tbGeteq ws tr lane gs => Sys2Proof.Machine.execTbGeteq ws tr lane gs s
  | .tbGetgeq ws tr lane gs => Sys2Proof.Machine.execTbGetgeq ws tr lane gs s
  | .pfEnc ws tr lane bm1 => Sys2Proof.Machine.execPfEnc ws tr lane bm1 s
  | .pfDec ws tr lane bm1 => Sys2Proof.Machine.execPfDec ws tr lane bm1 s
  | .pfGetx ws tr lane bm1 => Sys2Proof.Machine.execPfGetx ws tr lane bm1 s
  | .pfGeteq ws tr lane bm1 => Sys2Proof.Machine.execPfGeteq ws tr lane bm1 s
  | .pfGetgeq ws tr lane bm1 => Sys2Proof.Machine.execPfGetgeq ws tr lane bm1 s
  | .efEnc ws tr lane bm1 => Sys2Proof.Machine.execEfEnc ws tr lane bm1 s
  | .efDec ws tr lane bm1 => Sys2Proof.Machine.execEfDec ws tr lane bm1 s
  | .efGetx ws tr lane bm1 => Sys2Proof.Machine.execEfGetx ws tr lane bm1 s
  | .efGeteq ws tr lane bm1 => Sys2Proof.Machine.execEfGeteq ws tr lane bm1 s
  | .efGetgeq ws tr lane bm1 => Sys2Proof.Machine.execEfGetgeq ws tr lane bm1 s

end Sys2Proof.Machine
end

