-- ==== Sys2Proof/Machine/Sequencer.lean ====
section
/-! DEFINITION. The unit's turn and the host's steps (spec/10_state.md R30, R43 to R45;
spec/70_reset_and_hazards.md R310 to R318). -/

namespace Sys2Proof.Machine

/-- The command in `CMD`, if the word is legal (spec/30_encoding.md R104). -/
def currentInstr (s : State) : Option Instr := (decode s.cmd).toOption

/-- The command in `CMD` writes memory. -/
def currentWrites (s : State) : Bool :=
  match currentInstr s with
  | some i => writesMem i
  | none => false

/-- The command in `CMD` reads memory. -/
def currentReads (s : State) : Bool :=
  match currentInstr s with
  | some i => readsMem i
  | none => false

/-- No byte of the running command's windows was touched by another agent. -/
def untouched (s : State) : Bool := !s.srcTouched && s.dstTouched.isEmpty

/-- The marks of touched bytes, dropped with the end of the command. -/
def clearTouched (s : State) : State := { s with srcTouched := false, dstTouched := [] }

/-- The end of a command of which another agent touched destination bytes: those bytes are free
(R316). -/
def settleTouched (as : List Nat) :
    Host.Outcome State Fault Refusal → Host.Outcome State Fault Refusal
  | .next t => .next (freeTouched as t)
  | .fault r => .fault r
  | .refused r => .refused r

/-- The execute step of a command whose windows another agent touched while BUSY (R316). The command-word
and argument checks do not depend on the windows' bytes, so they decide as always. DESIGN CHOICE
(notes/assumptions/9.md): on `ARG` the marks are dropped and a touched byte keeps what the other agent wrote;
R316 calls its final value `any()`, R286 a says that only `STATUS` has changed. -/
def executeTouched (i : Instr) (s : State) : Host.Outcome State Fault Refusal :=
  if argFault i s.operands then exec i (clearTouched s)
  else if s.srcTouched then .next (touchedOutcome (writesMem i) (clearTouched s))
  else settleTouched s.dstTouched (exec i (clearTouched s))

/-- The unit's execute step (spec/10_state.md R45): the command-word checks (spec/60_exceptions.md R282),
then the command's meaning. -/
def execute (s : State) : Host.Outcome State Fault Refusal :=
  match decode s.cmd with
  | .error _ => .next (raise .illegalCmd false (clearTouched s))
  | .ok i => if untouched s then exec i s else executeTouched i s

/-- The unit's turn: the execute step is enabled exactly when `STATE = BUSY` (R45); otherwise the unit is
quiescent (spec/60_exceptions.md R300). -/
def unitTurn (s : State) : Host.Outcome State Fault Refusal :=
  match s.status with
  | .busy => execute s
  | .idle => .next s
  | .done => .next s
  | .fault _ => .next s

/-- A host write to a register (spec/10_state.md R32, R34 to R36, R43). -/
def hostWriteReg (r : HostReg) (v : Word) (s : State) : State :=
  match r with
  | .cmd =>
    match s.status with
    | .idle => { s with cmd := v.setWidth 32, status := .busy }
    | .done => { s with cmd := v.setWidth 32, status := .busy }
    | .busy => s
    | .fault _ => s
  | .status => s
  | .ctrl => if v.getLsbD 0 then resetUnit (currentWrites s) s else s
  | .operand r =>
    match s.status with
    | .busy => s
    | .idle => { s with operands := setOperand r v s.operands }
    | .done => { s with operands := setOperand r v s.operands }
    | .fault _ => { s with operands := setOperand r v s.operands }
  | .result _ => s

/-- A host read of a register: the value it returns goes to `readData` (spec/10_state.md R32, R34 to
R36). A result register read while BUSY returns an `any()`. -/
def hostReadReg (r : HostReg) (s : State) : State :=
  match r with
  | .cmd => { s with readData := s.cmd.setWidth 64 }
  | .status => { s with readData := statusWord s.status }
  | .ctrl => { s with readData := 0#64 }
  | .operand r => { s with readData := getOperand r s.operands }
  | .result r =>
    match s.status with
    | .busy => { s with readData := Config.freeWord s.draws, draws := s.draws + 1 }
    | .idle => { s with readData := getResult r s.results }
    | .done => { s with readData := getResult r s.results }
    | .fault _ => { s with readData := getResult r s.results }

/-- The register a host access of `size` bytes at offset `off` reaches; the defined accesses are 64-bit
and at the offset of a register (R37, spec/93_implementation_defined.md U9). -/
def accessedReg (size off : Nat) : Option HostReg := if size = 8 then hostRegAt off else none

/-- A write of a memory byte by another agent than the unit (R44). While BUSY it leaves a mark when it
falls into a window of the running command (R316). -/
def agentWriteByte (a : Nat) (b : Byte) (s : State) : State :=
  let t := { s with mem := s.mem.write a b }
  match s.status with
  | .busy =>
    { t with
      srcTouched := s.srcTouched || (currentReads s && inSrcWindow s.operands a)
      dstTouched := if currentWrites s && inDstWindow s.operands a then a :: s.dstTouched else s.dstTouched }
  | .idle => t
  | .done => t
  | .fault _ => t

/-- A read of a memory byte by another agent than the unit: a byte of the running command's destination
window reads as an `any()` (R44, R316). -/
def agentReadByte (a : Nat) (s : State) : State :=
  if s.status = .busy ∧ currentWrites s = true ∧ inDstWindow s.operands a = true then
    { s with readData := (Config.freeByte s.draws).setWidth 64, draws := s.draws + 1 }
  else { s with readData := (s.mem.read a).setWidth 64 }

/-- One event. A hardware reset touches no byte of memory (spec/70_reset_and_hazards.md R310, spec/92_eei_decisions.md
D28); that it drops the marks of touched bytes too is the model's choice (notes/assumptions/9.md). -/
def takeEvent (e : Event) (s : State) : Host.Outcome State Fault Refusal :=
  match e with
  | .regWrite size off v =>
    match accessedReg size off with
    | some r => .next (hostWriteReg r v s)
    | none => .refused (.undefinedHostAccess size off)
  | .regRead size off =>
    match accessedReg size off with
    | some r => .next (hostReadReg r s)
    | none => .refused (.undefinedHostAccess size off)
  | .memWrite a b => if a < addressLimit then .next (agentWriteByte a b s) else .fault (.noSuchAddress a)
  | .memRead a => if a < addressLimit then .next (agentReadByte a s) else .fault (.noSuchAddress a)
  | .hardReset => .next (resetUnit false s)
  | .unitTurn => unitTurn s

end Sys2Proof.Machine
end

