-- ==== Sys2Proof/Machine/Step.lean ====
section
/-! DEFINITION. One step of the machine: the next event, or the unit's turn when no event is listed
(notes/assumptions/5.md), and the placing of a command word where the next step executes it
(notes/assumptions/7.md). -/

namespace Sys2Proof.Machine

/-- One step (spec/10_state.md R30, R43 to R45). -/
def step (s : State) : Host.Outcome State Fault Refusal :=
  match s.events with
  | [] => unitTurn s
  | e :: es => takeEvent e { s with events := es }

/-- The state in which the host's write of the word to `CMD` has just been accepted and it is the unit's
turn (spec/10_state.md R34). -/
def State.withFetchWord (s : State) (nbits w : Nat) : State :=
  { s with
    cmd := tableWord nbits w
    status := .busy
    events := []
    srcTouched := false
    dstTouched := [] }

end Sys2Proof.Machine
end

