-- ==== Sys2Proof/Safety.lean ====
section
/-! DEFINITION. The terms the claims are stated in: the invariant of the machine, what a command leaves
alone, arrays and windows as memory holds them, the illegal words by their raw bits, and the element-wise
form of the transforms. Nothing here is used by the machine. -/

namespace Sys2Proof.Machine

/-! ### The invariant -/

/-- `CMD` holds a legal command word. -/
def CmdLegal (s : State) : Prop := ∃ i, decode s.cmd = .ok i

/-- What holds at reset and after every step: the memory is in its canonical form; in `IDLE` no command has
been written and no result exists (spec/10_state.md R43, R47); `DONE` and the faults other than `ILLEGAL_CMD`
come from a legal word, `ILLEGAL_CMD` from an illegal one (spec/60_exceptions.md R282); the marks of touched
bytes exist only while BUSY and lie in the destination window of a command that writes memory. -/
structure Inv (s : State) : Prop where
  memory : s.mem.wf = true
  idle : s.status = .idle → s.cmd = 0#32 ∧ s.results = {}
  done : s.status = .done → CmdLegal s
  illegal : s.status = .fault .illegalCmd → ¬ CmdLegal s
  faulted : ∀ f, s.status = .fault f → f ≠ .illegalCmd → CmdLegal s
  quiet : s.status ≠ .busy → s.srcTouched = false ∧ s.dstTouched = []
  marks : ∀ a ∈ s.dstTouched, a < addressLimit ∧ currentWrites s = true ∧ inDstWindow s.operands a = true

/-! ### Frames -/

/-- Everything but the results, the status and the memory is as before. -/
def SameElse (s t : State) : Prop :=
  t.operands = s.operands ∧ t.cmd = s.cmd ∧ t.draws = s.draws ∧ t.events = s.events ∧
  t.readData = s.readData ∧ t.srcTouched = s.srcTouched ∧ t.dstTouched = s.dstTouched

/-- The five result registers as naturals (spec/10_state.md R31, R33). -/
def ResultsAre (t : State) (res srcEnd dstEnd rseed rseed2 : Nat) : Prop :=
  t.results.res.toNat = res ∧ t.results.srcEnd.toNat = srcEnd ∧ t.results.dstEnd.toNat = dstEnd ∧
  t.results.rseed.toNat = rseed ∧ t.results.rseed2.toNat = rseed2

/-- The command wrote exactly these bytes, from `DST_BASE` on (spec/20_memory.md R81). -/
def Wrote (s t : State) (out : List Byte) : Prop :=
  bytesFrom t.mem.read s.operands.dstBase.toNat out.length = out ∧
  ∀ a, a < s.operands.dstBase.toNat ∨ s.operands.dstBase.toNat + out.length ≤ a → t.mem.read a = s.mem.read a

/-- Bytes outside the destination window are as before (spec/60_exceptions.md R286 c). -/
def OutsideKept (s t : State) : Prop :=
  ∀ a, inDstWindow s.operands a = false → t.mem.read a = s.mem.read a

/-- The command completes without writing memory: only the results and the status change. -/
def Reports (i : Instr) (s : State) (res srcEnd : Nat) : Prop :=
  ∃ t, exec i s = .next t ∧ t.status = .done ∧ ResultsAre t res srcEnd 0 0 0 ∧ t.mem = s.mem ∧ SameElse s t

/-! ### Windows and arrays -/

/-- The source window does not exceed the address space (spec/20_memory.md R76). -/
abbrev SrcValid (s : State) : Prop :=
  s.operands.srcBase.toNat + s.operands.srcLen.toNat ≤ addressLimit

/-- The destination window does not exceed the address space (spec/20_memory.md R76). -/
abbrev DstValid (s : State) : Prop :=
  s.operands.dstBase.toNat + s.operands.dstCap.toNat ≤ addressLimit

/-- The windows share no byte (spec/20_memory.md R77). -/
abbrev Disjoint (s : State) : Prop :=
  s.operands.srcLen.toNat = 0 ∨ s.operands.dstCap.toNat = 0 ∨
  s.operands.srcBase.toNat + s.operands.srcLen.toNat ≤ s.operands.dstBase.toNat ∨
  s.operands.dstBase.toNat + s.operands.dstCap.toNat ≤ s.operands.srcBase.toNat

/-- Both windows are as a command that writes memory needs them (spec/20_memory.md R76, R77). -/
abbrev WindowsReady (s : State) : Prop := SrcValid s ∧ DstValid s ∧ Disjoint s

/-- Both windows are as `XF_FWD` and `XF_INV` need them: the same base is allowed (spec/20_memory.md R77). -/
abbrev WindowsReadyInPlace (s : State) : Prop :=
  SrcValid s ∧ DstValid s ∧ (s.operands.srcBase = s.operands.dstBase ∨ Disjoint s)

/-- The source window begins with these bytes. -/
abbrev BeginsWith (s : State) (out : List Byte) : Prop :=
  out.length ≤ s.operands.srcLen.toNat ∧
  bytesFrom s.mem.read s.operands.srcBase.toNat out.length = out

/-- Element `i` of an array of `W`-bit elements at a byte address (spec/20_memory.md R71). -/
def elemAt (m : Memory) (ws : Width) (base i : Nat) : BitVec ws.bits :=
  BitVec.ofNat ws.bits (leValue (bytesFrom m.read (base + i * ws.bytes) ws.bytes))

/-- Element `i` of the array in the source window. -/
def srcElem (ws : Width) (s : State) (i : Nat) : BitVec ws.bits :=
  elemAt s.mem ws s.operands.srcBase.toNat i

/-- The array of `N` elements in the source window. -/
def srcArray (ws : Width) (s : State) : List (BitVec ws.bits) :=
  (List.range (count s)).map (srcElem ws s)

/-- Bit `k` of the bit stream whose byte image lies at a byte address (spec/00_scope.md R11). -/
def streamBit (m : Memory) (base k : Nat) : Bool := (m.read (base + k / 8)).getLsbD (k % 8)

/-! ### The transforms element by element -/

/-- The element before element `i`, the seed before the first (spec/41_transform.md R152). -/
def prevOf {w : Nat} (p : BitVec w) (x : Nat → BitVec w) (i : Nat) : BitVec w :=
  if i = 0 then p else x (i - 1)

/-- The first difference before that of element `i`, the second seed before the first (R155). -/
def prevDiffOf {w : Nat} (p q : BitVec w) (x : Nat → BitVec w) (i : Nat) : BitVec w :=
  if i = 0 then q else x (i - 1) - prevOf p x (i - 1)

/-- Element `i` of the forward transform of an array (R151 to R156). -/
def forwardAt {w : Nat} (tr : Transform) (p q : BitVec w) (x : Nat → BitVec w) (i : Nat) : BitVec w :=
  match tr with
  | .ident => x i
  | .delta => x i - prevOf p x i
  | .delta1 => x i - prevOf p x i - 1#w
  | .zigzag => zz (x i - prevOf p x i)
  | .ddelta => x i - prevOf p x i - prevDiffOf p q x i
  | .xorPrev => x i ^^^ prevOf p x i

/-- The running seed after `n` elements (R163). -/
def seedAfter {w : Nat} (tr : Transform) (p : BitVec w) (x : Nat → BitVec w) (n : Nat) : BitVec w :=
  if tr = .ident then p else prevOf p x n

/-- The running second seed after `n` elements (R163). -/
def seed2After {w : Nat} (tr : Transform) (p q : BitVec w) (x : Nat → BitVec w) (n : Nat) : BitVec w :=
  if tr = .ddelta then prevDiffOf p q x n else q

/-! ### Searches -/

/-- `j` is the first index from `lo` on, below `n`, that has the property, or `n` if there is none
(spec/47_random_access.md R251). -/
def FirstFrom (hit : Nat → Prop) (lo n j : Nat) : Prop :=
  (j = n ∨ (lo ≤ j ∧ j < n ∧ hit j)) ∧ ∀ k, lo ≤ k → k < n → k < j → ¬ hit k

/-- The get and the searches of a backend agree with an array `xs` whose first `m` elements the source window
holds encoded: the get for an element among them, a search that ends among them, that the whole array is there
for, or that starts past the end (spec/47_random_access.md R250 to R252, R265). -/
def AccessAgrees {w : Nat} (getx geteq getgeq : Instr) (s : State) (xs : List (BitVec w)) (m : Nat) : Prop :=
  let lo := s.operands.index.toNat
  (∀ h : lo < xs.length, lo < m → Reports getx s (xs[lo]).toNat 0) ∧
  (∃ j, FirstFrom (fun k => xs[k]? = some (keyElem w s)) lo (count s) j ∧
    (j < m ∨ m = count s ∨ count s ≤ lo → Reports geteq s j 0)) ∧
  (∃ j, FirstFrom (fun k => ∃ x, xs[k]? = some x ∧ (keyElem w s).toNat ≤ x.toNat) lo (count s) j ∧
    (j < m ∨ m = count s ∨ count s ≤ lo → Reports getgeq s j 0))

/-! ### PFor and Elias-Fano -/

/-- How many of `n` elements need more than `k` bits (spec/45_pfor.md R211). -/
def tooWide {w : Nat} (x : Nat → BitVec w) (n k : Nat) : Nat :=
  (List.range n).countP fun i => decide (2 ^ k ≤ (x i).toNat)

/-- The cost in bits of a block of `n` elements at packing width `k` (spec/45_pfor.md R211). -/
def blockCost {w : Nat} (x : Nat → BitVec w) (n b k : Nat) : Nat := k * n + tooWide x n k * (bw (b - 1) + w)

/-- The rebased value of element `i` in its block of `b` (spec/46_eliasfano.md R235). -/
def rebased {w : Nat} (st : Nat) (p : BitVec w) (b : Nat) (x : Nat → BitVec w) (i : Nat) : BitVec w :=
  x i - (if i / b = 0 then p else x (i / b * b - 1)) - BitVec.ofNat w (st * (i % b + 1))

/-- The monotonicity precondition: the rebased values do not fall inside a block (R235). -/
def EfMonotone {w : Nat} (st : Nat) (p : BitVec w) (b : Nat) (x : Nat → BitVec w) (n : Nat) : Prop :=
  ∀ i, i + 1 < n → (i + 1) % b ≠ 0 → (rebased st p b x i).toNat ≤ (rebased st p b x (i + 1)).toNat

/-! ### The size of a command's input and output -/

/-- The transform stage's output on the array in the source window (spec/41_transform.md R150). -/
def sent (ws : Width) (tr : Transform) (s : State) : Seeded ws.bits :=
  xf tr (seedElem ws.bits s) (seed2Elem ws.bits s) (srcArray ws s)

/-- The same for an array given as a list, as an encoder would have stored it. -/
def stored (ws : Width) (tr : Transform) (s : State) (xs : List (BitVec ws.bits)) : Seeded ws.bits :=
  xf tr (seedElem ws.bits s) (seed2Elem ws.bits s) xs

/-- The Elias-Fano blocks of the rebased values of the array in the source window (spec/46_eliasfano.md R235,
R236). -/
def efSent (ws : Width) (tr : Transform) (bm1 : BlockField) (s : State) : List Byte :=
  let u := rebased (strictStep tr) (seedElem ws.bits s) (bm1.toNat + 1) (srcElem ws s)
  (chunks (bm1.toNat + 1) ((List.range (count s)).map fun i => (u i).toNat)).flatMap (efBlock ws.bits)

/-- The source window begins with a buffer of `need` bytes that holds `N` elements, of which the command makes
`N*W/8` bytes. -/
def DecodesFrom (ws : Width) (s : State) (need out : Nat) (layout : List (BitVec ws.bits) → List Byte) : Prop :=
  out = count s * ws.bytes ∧
  ∃ xs : List (BitVec ws.bits), xs.length = count s ∧ BeginsWith s (layout xs) ∧ need = (layout xs).length

/-- How many bytes a command that writes memory reads and how many it writes, on an input that its rule accepts
(spec/60_exceptions.md R284, R285). -/
def Footprint (i : Instr) (s : State) (need out : Nat) : Prop :=
  match i with
  | .xfFwd ws _ => need = count s * ws.bytes ∧ out = count s * ws.bytes
  | .xfInv ws _ => need = count s * ws.bytes ∧ out = count s * ws.bytes
  | .bpPack ws _ pw => need = count s * ws.bytes ∧ out = bytesFor (pw.toNat * count s)
  | .bpUnpack ws _ pw => need = bytesFor (pw.toNat * count s) ∧ out = count s * ws.bytes
  | .vbEnc ws tr => need = count s * ws.bytes ∧ out = (vbLayout (sent ws tr s).xs).length
  | .vbDec ws tr => DecodesFrom ws s need out fun xs => vbLayout (stored ws tr s xs).xs
  | .tbEnc ws tr _ gs => need = count s * ws.bytes ∧ out = (tbLayout gs.count (sent ws tr s).xs).length
  | .tbDec ws tr _ gs => DecodesFrom ws s need out fun xs => tbLayout gs.count (stored ws tr s xs).xs
  | .pfEnc ws tr _ bm1 => need = count s * ws.bytes ∧ out = (pfLayout (blockSize bm1) (sent ws tr s).xs).length
  | .pfDec ws tr _ bm1 => DecodesFrom ws s need out fun xs => pfLayout (blockSize bm1) (stored ws tr s xs).xs
  | .efEnc ws tr _ bm1 =>
    EfMonotone (strictStep tr) (seedElem ws.bits s) (bm1.toNat + 1) (srcElem ws s) (count s) ∧
    need = count s * ws.bytes ∧ out = (efSent ws tr bm1 s).length
  | .efDec ws tr _ bm1 =>
    out = count s * ws.bytes ∧
    ∃ (xs : List (BitVec ws.bits)) (buf : List Byte) (last : BitVec ws.bits), xs.length = count s ∧
      efEncodeBlocks (strictStep tr) (seedElem ws.bits s) (chunks (blockSize bm1) xs) = .ok (buf, last) ∧
      BeginsWith s buf ∧ need = buf.length
  | .bitw _ | .blkbitw _ | .vblen _ | .vbvlen | .pfSelw _ _ | .vbGetx _ _ | .vbGeteq _ _ | .vbGetgeq _ _
  | .tbGetx _ _ _ _ | .tbGeteq _ _ _ _ | .tbGetgeq _ _ _ _ | .pfGetx _ _ _ _ | .pfGeteq _ _ _ _
  | .pfGetgeq _ _ _ _ | .efGetx _ _ _ _ | .efGeteq _ _ _ _ | .efGetgeq _ _ _ _ => False

/-! ### Illegal words -/

/-- The eight checks of spec/30_encoding.md R105 on the raw bits of a word. -/
def illegalWord (c : CmdWord) : Prop :=
  let op := c.toNat % 32
  let ws := c.toNat / 32 % 4
  let tr := c.toNat / 128 % 8
  let lane := c.toNat / 1024 % 4
  let bm1 := c.toNat / 4096 % 256
  let gs := c.toNat / 1048576 % 4
  let pw := c.toNat / 4194304 % 128
  let usesTr := op = 5 ∨ op = 6 ∨ 10 ≤ op
  let usesLane := op = 7 ∨ op = 8 ∨ 15 ≤ op
  let usesBm1 := op = 9 ∨ 20 ≤ op
  let usesGs := 15 ≤ op ∧ op ≤ 19
  let usesPw := op = 7 ∨ op = 8
  c.toNat / 536870912 ≠ 0 ∨
  (op = 0 ∨ op = 30 ∨ op = 31) ∨
  (op = 4 ∧ ws ≠ 0) ∨ (¬ usesTr ∧ tr ≠ 0) ∨ (¬ usesLane ∧ lane ≠ 0) ∨ (¬ usesBm1 ∧ bm1 ≠ 0) ∨
    (¬ usesGs ∧ gs ≠ 0) ∨ (¬ usesPw ∧ pw ≠ 0) ∨
  (usesTr ∧ 6 ≤ tr) ∨
  (usesLane ∧ lane = 3) ∨
  (usesPw ∧ 8 * 2 ^ ws < pw) ∨
  (usesGs ∧ (ws = 3 ∨ ((lane = 1 ∨ lane = 2) ∧ ws = 0) ∨ (lane = 1 ∧ gs ≠ 0) ∨ (lane = 2 ∧ gs = 0))) ∨
  (25 ≤ op ∧ (ws ≤ 1 ∨ (tr ≠ 1 ∧ tr ≠ 2)))

/-- The operand registers in the order of their numbers (spec/10_state.md R31). -/
def operandList (o : OperandRegs) : List Word :=
  [o.srcBase, o.srcLen, o.dstBase, o.dstCap, o.n, o.seed, o.seed2, o.index, o.key]

/-- The result registers in the order of their numbers (spec/10_state.md R31). -/
def resultList (r : ResultRegs) : List Word := [r.res, r.srcEnd, r.dstEnd, r.rseed, r.rseed2]

end Sys2Proof.Machine
end

