-- ==== Sys2Proof/Certificates/Slice0/Obligations.lean ====
section
/-! DEFINITION. The statements for the provers. A statement about a command of the unit gives the whole
next state: status, result registers, memory, and that everything else is as before (`SameElse`). A
free value (`Config`) appears in no statement: what holds, holds for every draw. -/

open Sys2Proof Sys2Proof.Machine

/-! ### Command words (spec/30_encoding.md) -/

/-- Decoding an encoded well-formed command gives it back, for every value of every field (R101 to R104). -/
def Obligations.DecodeEncodeAgree : Prop :=
  ∀ i : Instr, wellFormed i = true → decode (encode i) = .ok i

/-- Each legal word has one meaning: it is the encoding of the command it decodes to, which is well formed
(R104, R105). -/
def Obligations.EncodeDecodeAgree : Prop :=
  ∀ (c : CmdWord) (i : Instr), decode c = .ok i → encode i = c ∧ wellFormed i = true

/-- A busy unit raises `ILLEGAL_CMD` exactly for the words that fail one of the eight checks of R105, and
then nothing but `STATUS` changes (R280, R282, R286 a). That the marks of touched bytes end with the command is
the model's own (notes/assumptions/8.md). -/
def Obligations.IllegalWordRaises : Prop :=
  ∀ s : State, s.status = .busy → s.events = [] →
    (illegalWord s.cmd →
      step s = .next { s with status := .fault .illegalCmd, srcTouched := false, dstTouched := [] }) ∧
    (¬ illegalWord s.cmd → ∃ t, step s = .next t ∧ t.status ≠ .fault .illegalCmd)

/-- Words the spec writes out (spec/95_test_vectors.md) decode to the commands it names them for. -/
def Obligations.SpecWordsDecode : Prop :=
  decode 0x000050D4#32 = .ok (.pfEnc .w32 .delta .scalar 5#8) ∧
  decode 0x02400827#32 = .ok (.bpPack .w16 .lane256 9#7) ∧
  decode 0x0010084F#32 = .ok (.tbEnc .w32 .ident .lane256 .g8) ∧
  decode 0x000FF959#32 = .ok (.efEnc .w32 .delta1 .lane256 255#8) ∧
  decode 0x00000245#32 = .ok (.xfFwd .w32 .ddelta)

/-- A step of a busy unit runs the command its word decodes to, as the meaning of that command gives it: with
no event listed, and with the unit's turn written out. -/
def Obligations.StepRunsDecoded : Prop :=
  ∀ (s : State) (i : Instr) (es : List Event), s.status = .busy → untouched s = true → decode s.cmd = .ok i →
    step { s with events := [] } = exec i { s with events := [] } ∧
    step { s with events := .unitTurn :: es } = exec i { s with events := es }

/-! ### The whole machine (spec/10_state.md, spec/60_exceptions.md, spec/70_reset_and_hazards.md) -/

/-- Every step keeps the invariant: canonical memory, and the relations of `CMD`, `STATUS`, the results
and the marks of touched bytes. -/
def Obligations.StepKeepsInvariant : Prop :=
  ∀ s t : State, Inv s → step s = .next t → Inv t

/-- The invariant holds at reset. -/
def Obligations.ResetMeetsInvariant : Prop := Inv State.reset

/-- From `BUSY` the unit's turn ends in `DONE` or `FAULT`, on every word, every operand and every memory
(spec/70_reset_and_hazards.md R319). -/
def Obligations.BusyUnitTerminates : Prop :=
  ∀ s : State, s.status = .busy → s.events = [] →
    ∃ t, step s = .next t ∧ (t.status = .done ∨ ∃ f, t.status = .fault f)

/-- Whatever the unit's turn does, it changes no operand register and not `CMD`, and no byte of memory outside
the destination window of a command that writes memory (spec/60_exceptions.md R286 c, R288). -/
def Obligations.UnitWritesOnlyItsWindow : Prop :=
  ∀ s t : State, s.status = .busy → s.events = [] →
    (∀ a ∈ s.dstTouched, currentWrites s = true ∧ inDstWindow s.operands a = true) →
    step s = .next t →
      t.operands = s.operands ∧ t.cmd = s.cmd ∧
      ∀ a, currentWrites s = false ∨ inDstWindow s.operands a = false → t.mem.read a = s.mem.read a

/-- The outcome of a command is a function of the word, the operand registers, the bytes of the source
window and the free draws (spec/10_state.md R48): two busy units that agree on these end with the same
status, and each result register and each byte of memory is either the same in both or as it was in both. -/
def Obligations.OutcomeDependsOnInputsOnly : Prop :=
  ∀ s s' : State, s.status = .busy → s'.status = .busy → s.events = [] → s'.events = [] →
    untouched s = true → untouched s' = true →
    s.cmd = s'.cmd → s.operands = s'.operands → s.draws = s'.draws →
    (∀ off, off < s.operands.srcLen.toNat →
      s.mem.read (s.operands.srcBase.toNat + off) = s'.mem.read (s.operands.srcBase.toNat + off)) →
    ∃ t t', step s = .next t ∧ step s' = .next t' ∧ t.status = t'.status ∧ t.draws = t'.draws ∧
      (t.results = t'.results ∨ (t.results = s.results ∧ t'.results = s'.results)) ∧
      ∀ a, t.mem.read a = t'.mem.read a ∨
        (t.mem.read a = s.mem.read a ∧ t'.mem.read a = s'.mem.read a)

/-- `STATUS.STATE` moves only as spec/10_state.md R43 says: a `CMD` write in `IDLE` or `DONE`, the unit's
turn in `BUSY`, a reset. -/
def Obligations.StatusTransitions : Prop :=
  ∀ s t : State, step s = .next t →
    t.status = s.status ∨
    ((s.status = .idle ∨ s.status = .done) ∧ t.status = .busy ∧
      ∃ v es, s.events = .regWrite 8 0x00 v :: es ∧ t.cmd = v.setWidth 32) ∨
    (s.status = .busy ∧ (t.status = .done ∨ ∃ f, t.status = .fault f) ∧
      (s.events = [] ∨ ∃ es, s.events = .unitTurn :: es)) ∨
    (t.status = .idle ∧
      ∃ es, s.events = .hardReset :: es ∨ ∃ v : Word, v.getLsbD 0 = true ∧ s.events = .regWrite 8 0x10 v :: es)

/-- `IDLE`, `DONE` and `FAULT` are quiescent: the unit's turn changes nothing (spec/60_exceptions.md R300). -/
def Obligations.QuiescentUnit : Prop :=
  ∀ (s : State) (es : List Event), s.status ≠ .busy →
    step { s with events := [] } = .next { s with events := [] } ∧
    step { s with events := .unitTurn :: es } = .next { s with events := es }

/-- What reset leaves: every operand and result register 0, `CMD` 0, `STATUS` idle with no fault code
(spec/10_state.md R47). -/
def Obligations.ResetValues : Prop :=
  (∀ v ∈ operandList State.reset.operands, v = 0#64) ∧ (∀ v ∈ resultList State.reset.results, v = 0#64) ∧
  State.reset.cmd = 0#32 ∧ statusWord State.reset.status = 0#64

/-- A soft reset in any state gives every register its reset value, and touches no byte of memory but those of
the destination window of a running command that writes memory (spec/70_reset_and_hazards.md R311). -/
def Obligations.SoftResetClears : Prop :=
  ∀ (s : State) (es : List Event) (v : Word), v.getLsbD 0 = true →
    ∃ t, step { s with events := .regWrite 8 0x10 v :: es } = .next t ∧
      t.operands = {} ∧ t.results = {} ∧ t.cmd = 0#32 ∧ t.status = .idle ∧
      t.events = es ∧ t.readData = s.readData ∧
      ∀ a, ¬ (s.status = .busy ∧ currentWrites s = true ∧ inDstWindow s.operands a = true) →
        t.mem.read a = s.mem.read a

/-- A hardware reset in any state gives every register its reset value and touches no byte of memory
(spec/70_reset_and_hazards.md R310, spec/10_state.md R47). That it also drops the marks of touched bytes is the
model's choice (notes/assumptions/9.md). -/
def Obligations.HardResetClears : Prop :=
  ∀ (s : State) (es : List Event),
    step { s with events := .hardReset :: es } =
      .next { s with
        operands := {}, results := {}, cmd := 0#32, status := .idle, events := es
        srcTouched := false, dstTouched := [] }

/-- A host write to `CMD` starts a command in `IDLE` and `DONE` and is ignored in `BUSY` and `FAULT`
(spec/10_state.md R34, spec/60_exceptions.md R292). -/
def Obligations.CmdWriteStarts : Prop :=
  ∀ (s : State) (es : List Event) (v : Word),
    (s.status = .idle ∨ s.status = .done →
      step { s with events := .regWrite 8 0x00 v :: es } =
        .next { s with events := es, cmd := v.setWidth 32, status := .busy }) ∧
    (s.status = .busy ∨ (∃ f, s.status = .fault f) →
      step { s with events := .regWrite 8 0x00 v :: es } = .next { s with events := es })

/-- A host write to operand register `x[k]`, at offset `0x18 + 8*k`, writes that register alone unless the
unit is BUSY; then it is ignored (spec/10_state.md R31, R32). -/
def Obligations.OperandWrites : Prop :=
  ∀ (s : State) (es : List Event) (v : Word) (k : Nat), k < 9 →
    (s.status ≠ .busy →
      ∃ o, step { s with events := .regWrite 8 (0x18 + 8 * k) v :: es } =
          .next { s with events := es, operands := o } ∧
        operandList o = (operandList s.operands).set k v) ∧
    (s.status = .busy →
      step { s with events := .regWrite 8 (0x18 + 8 * k) v :: es } = .next { s with events := es })

/-- Host writes to `STATUS`, to `CTRL` with bit 0 clear, and to the result registers do nothing in any state
(spec/10_state.md R32, R35, R36). -/
def Obligations.IgnoredWrites : Prop :=
  ∀ (s : State) (es : List Event) (v : Word) (off : Nat),
    (off = 0x08 ∨ (off = 0x10 ∧ v.getLsbD 0 = false) ∨ ∃ k, k < 5 ∧ off = 0x60 + 8 * k) →
    step { s with events := .regWrite 8 off v :: es } = .next { s with events := es }

/-- Host reads return the register: an operand register in every state, a result register unless the unit is
BUSY (then some value), `CMD` the last stored word, `CTRL` 0; a read changes nothing else (spec/10_state.md
R32, R34, R36). The returned value is in the model's own `readData`. -/
def Obligations.RegisterReads : Prop :=
  ∀ (s : State) (es : List Event),
    (∀ k, k < 9 → step { s with events := .regRead 8 (0x18 + 8 * k) :: es } =
      .next { s with events := es, readData := (operandList s.operands).getD k 0#64 }) ∧
    (∀ k, k < 5 → s.status ≠ .busy → step { s with events := .regRead 8 (0x60 + 8 * k) :: es } =
      .next { s with events := es, readData := (resultList s.results).getD k 0#64 }) ∧
    (∀ k, k < 5 → s.status = .busy → ∃ v d, step { s with events := .regRead 8 (0x60 + 8 * k) :: es } =
      .next { s with events := es, readData := v, draws := d }) ∧
    (∃ t, step { s with events := .regRead 8 0x00 :: es } = .next t ∧
      t.readData.toNat = s.cmd.toNat ∧ t = { s with events := es, readData := t.readData }) ∧
    step { s with events := .regRead 8 0x10 :: es } = .next { s with events := es, readData := 0#64 }

/-- What a read of `STATUS` returns: `STATE` in bits 1:0, `FCODE` in bits 7:4, 0 elsewhere (spec/10_state.md
R35, spec/60_exceptions.md R280). -/
def Obligations.StatusReadWord : Prop :=
  ∀ (s : State) (es : List Event), ∃ t, step { s with events := .regRead 8 0x08 :: es } = .next t ∧
    t = { s with events := es, readData := t.readData } ∧
    t.readData.toNat =
      match s.status with
      | .idle => 0
      | .busy => 1
      | .done => 2
      | .fault .illegalCmd => 3 + 16 * 1
      | .fault .arg => 3 + 16 * 2
      | .fault .srcBounds => 3 + 16 * 3
      | .fault .dstCapacity => 3 + 16 * 4

/-- Outside BUSY the host reads and writes memory as plain bytes (spec/10_state.md R41, R44). In DONE and FAULT
before the host's first read of `STATUS` this is the model's choice, which the last sentence of
spec/70_reset_and_hazards.md R316 licenses (notes/assumptions/8.md). That every address below `2^64` is memory is
the model's too (notes/assumptions/4.md). An address at or above `2^64` does not exist (spec/20_memory.md R70), and
the model stops there with a fault of its own. -/
def Obligations.HostMemoryAccess : Prop :=
  ∀ (s : State) (es : List Event) (a : Nat) (b : Byte), s.status ≠ .busy →
    (a < addressLimit →
      (∃ m, step { s with events := .memWrite a b :: es } = .next { s with events := es, mem := m } ∧
        m.read a = b ∧ ∀ x, x ≠ a → m.read x = s.mem.read x) ∧
      (∃ v, step { s with events := .memRead a :: es } = .next { s with events := es, readData := v } ∧
        v.toNat = (s.mem.read a).toNat)) ∧
    (addressLimit ≤ a →
      step { s with events := .memWrite a b :: es } = .fault (.noSuchAddress a) ∧
      step { s with events := .memRead a :: es } = .fault (.noSuchAddress a))

/-- When another agent writes a byte of a running command's source window, the command still ends in `DONE`,
`SRC_BOUNDS` or, if it writes memory, `DST_CAPACITY`, and no byte outside the destination window changes but
the one written (spec/70_reset_and_hazards.md R316). The third outcome only for writing commands is the
model's reading (notes/assumptions/14.md); the marks of touched bytes, which end with the command, are the model's
own (notes/assumptions/8.md). -/
def Obligations.TouchedSourceWindow : Prop :=
  ∀ (s : State) (i : Instr) (a : Nat) (b : Byte),
    s.status = .busy → untouched s = true → s.events = [.memWrite a b] → decode s.cmd = .ok i →
    readsMem i = true → argFault i s.operands = false → a < addressLimit → inSrcWindow s.operands a = true →
    ∃ s₁ t, step s = .next s₁ ∧ step s₁ = .next t ∧
      (t.status = .done ∨ t.status = .fault .srcBounds ∨ (writesMem i = true ∧ t.status = .fault .dstCapacity)) ∧
      t.operands = s.operands ∧ t.cmd = s.cmd ∧ untouched t = true ∧
      ∀ x, x ≠ a → writesMem i = false ∨ inDstWindow s.operands x = false → t.mem.read x = s.mem.read x

/-! ### Faults (spec/60_exceptions.md) -/

/-- `ARG` is raised exactly in the five cases of R283, and then nothing but `STATUS` changes (R286 a). -/
def Obligations.ArgumentFaults : Prop :=
  ∀ (i : Instr) (s : State),
    let inPlace := (∃ ws tr, i = .xfFwd ws tr ∨ i = .xfInv ws tr) ∧ s.operands.srcBase = s.operands.dstBase
    let isGetx := (∃ ws tr, i = .vbGetx ws tr) ∨ (∃ ws tr lane gs, i = .tbGetx ws tr lane gs) ∨
      (∃ ws tr lane bm1, i = .pfGetx ws tr lane bm1 ∨ i = .efGetx ws tr lane bm1)
    let cause := (readsMem i = true ∧ ¬ SrcValid s) ∨ (writesMem i = true ∧ ¬ DstValid s) ∨
      (writesMem i = true ∧ ¬ Disjoint s ∧ ¬ inPlace) ∨
      (isGetx ∧ s.operands.n.toNat ≤ s.operands.index.toNat) ∨
      (∃ ws bm1, i = .pfSelw ws bm1 ∧ bm1.toNat + 1 < s.operands.n.toNat)
    (cause → exec i s = .next { s with status := .fault .arg }) ∧
    (¬ cause → ∃ t, exec i s = .next t ∧ t.status ≠ .fault .arg)

/-- For a command that reads a whole array of elements (encoders, transforms, pack, `BLKBITW`, `PF_SELW`),
`SRC_BOUNDS` is raised exactly when `N*W/8` exceeds `SRC_LEN`, whatever the destination window is (R284, R287;
spec/40_bitwidth.md R142, spec/45_pfor.md R217). -/
def Obligations.SourceBoundsExact : Prop :=
  ∀ (i : Instr) (s : State), argFault i s.operands = false →
    ((∃ ws, i = .blkbitw ws) ∨ (∃ ws bm1, i = .pfSelw ws bm1) ∨
      (∃ ws tr, i = .xfFwd ws tr ∨ i = .xfInv ws tr ∨ i = .vbEnc ws tr) ∨
      (∃ ws lane pw, i = .bpPack ws lane pw) ∨ (∃ ws tr lane gs, i = .tbEnc ws tr lane gs) ∨
      (∃ ws tr lane bm1, i = .pfEnc ws tr lane bm1 ∨ i = .efEnc ws tr lane bm1)) →
    ∃ t, exec i s = .next t ∧
      (t.status = .fault .srcBounds ↔ s.operands.srcLen.toNat < count s * (widthOfInstr i).bytes)

/-- Every command that writes memory raises `DST_CAPACITY` exactly when its output does not fit, and completes
exactly when it fits, on an input its rule accepts (an encoder or a transform on any array, `EF_ENC` on a
monotone one, a decoder on the buffer of an array) that the source window holds; then no operand register, not
`CMD` and no byte outside the destination window has changed (R285, R286, R287). -/
def Obligations.CapacityFaults : Prop :=
  ∀ (i : Instr) (s : State) (need out : Nat), wellFormed i = true → argFault i s.operands = false →
    Footprint i s need out → need ≤ s.operands.srcLen.toNat →
    ∃ t, exec i s = .next t ∧
      (t.status = .fault .dstCapacity ↔ s.operands.dstCap.toNat < out) ∧
      (t.status = .done ↔ out ≤ s.operands.dstCap.toNat) ∧
      t.operands = s.operands ∧ t.cmd = s.cmd ∧ OutsideKept s t

/-- The lane has no effect on any command (spec/44_bitpack.md R203). -/
def Obligations.LaneInvariance : Prop :=
  ∀ (ws : Width) (tr : Transform) (l₁ l₂ : Lane) (pw : PackField) (gs : GroupSize) (bm1 : BlockField) (s : State),
    exec (.bpPack ws l₁ pw) s = exec (.bpPack ws l₂ pw) s ∧
    exec (.bpUnpack ws l₁ pw) s = exec (.bpUnpack ws l₂ pw) s ∧
    exec (.tbEnc ws tr l₁ gs) s = exec (.tbEnc ws tr l₂ gs) s ∧
    exec (.tbDec ws tr l₁ gs) s = exec (.tbDec ws tr l₂ gs) s ∧
    exec (.tbGetx ws tr l₁ gs) s = exec (.tbGetx ws tr l₂ gs) s ∧
    exec (.tbGeteq ws tr l₁ gs) s = exec (.tbGeteq ws tr l₂ gs) s ∧
    exec (.tbGetgeq ws tr l₁ gs) s = exec (.tbGetgeq ws tr l₂ gs) s ∧
    exec (.pfEnc ws tr l₁ bm1) s = exec (.pfEnc ws tr l₂ bm1) s ∧
    exec (.pfDec ws tr l₁ bm1) s = exec (.pfDec ws tr l₂ bm1) s ∧
    exec (.pfGetx ws tr l₁ bm1) s = exec (.pfGetx ws tr l₂ bm1) s ∧
    exec (.pfGeteq ws tr l₁ bm1) s = exec (.pfGeteq ws tr l₂ bm1) s ∧
    exec (.pfGetgeq ws tr l₁ bm1) s = exec (.pfGetgeq ws tr l₂ bm1) s ∧
    exec (.efEnc ws tr l₁ bm1) s = exec (.efEnc ws tr l₂ bm1) s ∧
    exec (.efDec ws tr l₁ bm1) s = exec (.efDec ws tr l₂ bm1) s ∧
    exec (.efGetx ws tr l₁ bm1) s = exec (.efGetx ws tr l₂ bm1) s ∧
    exec (.efGeteq ws tr l₁ bm1) s = exec (.efGeteq ws tr l₂ bm1) s ∧
    exec (.efGetgeq ws tr l₁ bm1) s = exec (.efGetgeq ws tr l₂ bm1) s

/-! ### Bit-width utilities (spec/40_bitwidth.md) -/

/-- `BITW` reports the least number of bits that holds `KEY[W-1:0]` (R141). -/
def Obligations.BitwLeastWidth : Prop :=
  ∀ (ws : Width) (s : State), ∃ r, Reports (.bitw ws) s r 0 ∧ r ≤ ws.bits ∧
    ∀ k, s.operands.key.toNat % 2 ^ ws.bits < 2 ^ k ↔ r ≤ k

/-- `VBLEN` reports the least positive number of 7-bit groups that holds `KEY[W-1:0]` (R143). -/
def Obligations.VblenCountsGroups : Prop :=
  ∀ (ws : Width) (s : State), ∃ r, Reports (.vblen ws) s r 0 ∧ 1 ≤ r ∧ r ≤ ceilDiv ws.bits 7 ∧
    ∀ k, 1 ≤ k → (s.operands.key.toNat % 2 ^ ws.bits < 2 ^ (7 * k) ↔ r ≤ k)

/-- `BLKBITW` reports the least number of bits that holds every element, and the bytes read (R142). -/
def Obligations.BlkbitwHoldsAll : Prop :=
  ∀ (ws : Width) (s : State), SrcValid s → count s * ws.bytes ≤ s.operands.srcLen.toNat →
    ∃ r, Reports (.blkbitw ws) s r (count s * ws.bytes) ∧
      ∀ k, (∀ i, i < count s → (srcElem ws s i).toNat < 2 ^ k) ↔ r ≤ k

/-- `VBVLEN` reports the position after the first byte with bit 7 clear, and raises `SRC_BOUNDS` when the window
has none (R144). -/
def Obligations.VbvlenFindsTerminator : Prop :=
  ∀ s : State, SrcValid s →
    let byte := fun j => (s.mem.read (s.operands.srcBase.toNat + j)).toNat
    (∀ k, k < s.operands.srcLen.toNat → (∀ j, j < k → 128 ≤ byte j) → byte k < 128 →
      Reports .vbvlen s (k + 1) (k + 1)) ∧
    ((∀ j, j < s.operands.srcLen.toNat → 128 ≤ byte j) →
      ∃ t, exec .vbvlen s = .next t ∧ t.status = .fault .srcBounds ∧ t.mem = s.mem ∧ t.operands = s.operands)

/-! ### The transform stage (spec/41_transform.md) -/

/-- `XF_FWD` writes the forward transform of every element (R151 to R156) and nothing else, and returns the
cursors and the running seeds (R163); the source and destination windows may have the same base (R77). -/
def Obligations.XfFwdElements : Prop :=
  ∀ (ws : Width) (tr : Transform) (s : State), WindowsReadyInPlace s →
    count s * ws.bytes ≤ s.operands.srcLen.toNat → count s * ws.bytes ≤ s.operands.dstCap.toNat →
    let p := seedElem ws.bits s
    let q := seed2Elem ws.bits s
    let x := srcElem ws s
    ∃ t out, exec (.xfFwd ws tr) s = .next t ∧ t.status = .done ∧ SameElse s t ∧
      out.length = count s * ws.bytes ∧ Wrote s t out ∧
      (∀ i, i < count s → elemAt t.mem ws s.operands.dstBase.toNat i = forwardAt tr p q x i) ∧
      ResultsAre t 0 (count s * ws.bytes) (count s * ws.bytes)
        (seedAfter tr p x (count s)).toNat (seed2After tr p q x (count s)).toNat

/-- `XF_INV` writes the array whose forward transform is the source array, and nothing else, and returns the
cursors and the running seeds of that array (R157 to R162, R164). -/
def Obligations.XfInvElements : Prop :=
  ∀ (ws : Width) (tr : Transform) (s : State), WindowsReadyInPlace s →
    count s * ws.bytes ≤ s.operands.srcLen.toNat → count s * ws.bytes ≤ s.operands.dstCap.toNat →
    let p := seedElem ws.bits s
    let q := seed2Elem ws.bits s
    ∃ t out, exec (.xfInv ws tr) s = .next t ∧ t.status = .done ∧ SameElse s t ∧
      out.length = count s * ws.bytes ∧ Wrote s t out ∧
      (let x := elemAt t.mem ws s.operands.dstBase.toNat
       (∀ i, i < count s → srcElem ws s i = forwardAt tr p q x i) ∧
       ResultsAre t 0 (count s * ws.bytes) (count s * ws.bytes)
         (seedAfter tr p x (count s)).toNat (seed2After tr p q x (count s)).toNat)

/-- An array sent through `XF_FWD` and the result through `XF_INV` with the same seeds comes back, with the same
running seeds, for every array and every transform (R166). -/
def Obligations.XfRoundTrip : Prop :=
  ∀ (ws : Width) (tr : Transform) (s t s' : State),
    exec (.xfFwd ws tr) s = .next t → t.status = .done →
    WindowsReadyInPlace s' → s'.operands.n = s.operands.n →
    s'.operands.seed = s.operands.seed → s'.operands.seed2 = s.operands.seed2 →
    count s * ws.bytes ≤ s'.operands.srcLen.toNat → count s * ws.bytes ≤ s'.operands.dstCap.toNat →
    (∀ i, i < count s → srcElem ws s' i = elemAt t.mem ws s.operands.dstBase.toNat i) →
    ∃ t', exec (.xfInv ws tr) s' = .next t' ∧ t'.status = .done ∧
      (∀ i, i < count s → elemAt t'.mem ws s'.operands.dstBase.toNat i = srcElem ws s i) ∧
      t'.results = t.results

/-- The transform and its inverse undo each other as functions, with the same running seed, both ways (R166). -/
def Obligations.TransformInverts : Prop :=
  ∀ (ws : Width) (tr : Transform) (p q : BitVec ws.bits) (xs : List (BitVec ws.bits)),
    xfi tr p q (xf tr p q xs).xs = { xf tr p q xs with xs := xs } ∧
    xf tr p q (xfi tr p q xs).xs = { xfi tr p q xs with xs := xs }

/-- An array may be transformed in two pieces, the running seed of the first the seed of the second (R165). -/
def Obligations.TransformChains : Prop :=
  ∀ (ws : Width) (tr : Transform) (p q : BitVec ws.bits) (a b : List (BitVec ws.bits)),
    (let ra := xf tr p q a
     let rb := xf tr ra.p ra.q b
     xf tr p q (a ++ b) = { rb with xs := ra.xs ++ rb.xs }) ∧
    (let ra := xfi tr p q a
     let rb := xfi tr ra.p ra.q b
     xfi tr p q (a ++ b) = { rb with xs := ra.xs ++ rb.xs })

/-- `zz_W` sends a signed difference `d` to `2|d|` or `2|d| - 1`, the odd codes for the negative ones, and
`unzz_W` undoes it (spec/00_scope.md R15, R16). -/
def Obligations.ZigzagMap : Prop :=
  ∀ (ws : Width) (d : BitVec ws.bits),
    ((zz d).toNat : Int) = (if 0 ≤ d.toInt then 2 * d.toInt else 2 * -d.toInt - 1) ∧ unzz (zz d) = d ∧
    zz (unzz d) = d

/-! ### The bit packer (spec/44_bitpack.md) -/

/-- `BP_PACK` writes bit `j` of element `i` to stream bit `i*PW + j`, pads with 0, and writes nothing else (R201). -/
def Obligations.BpPackBits : Prop :=
  ∀ (ws : Width) (lane : Lane) (pw : PackField) (s : State), wellFormed (.bpPack ws lane pw) = true →
    WindowsReady s → count s * ws.bytes ≤ s.operands.srcLen.toNat →
    bytesFor (pw.toNat * count s) ≤ s.operands.dstCap.toNat →
    ∃ t out, exec (.bpPack ws lane pw) s = .next t ∧ t.status = .done ∧ SameElse s t ∧
      out.length = bytesFor (pw.toNat * count s) ∧ Wrote s t out ∧
      (∀ i j, i < count s → j < pw.toNat →
        streamBit t.mem s.operands.dstBase.toNat (i * pw.toNat + j) = (srcElem ws s i).getLsbD j) ∧
      (∀ k, pw.toNat * count s ≤ k → k < 8 * out.length →
        streamBit t.mem s.operands.dstBase.toNat k = false) ∧
      ResultsAre t 0 (count s * ws.bytes) (bytesFor (pw.toNat * count s)) 0 0

/-- `BP_UNPACK` writes element `i` with stream bits `i*PW .. i*PW + PW - 1` as its low bits and 0 above, and
nothing else (R202). -/
def Obligations.BpUnpackBits : Prop :=
  ∀ (ws : Width) (lane : Lane) (pw : PackField) (s : State), wellFormed (.bpUnpack ws lane pw) = true →
    WindowsReady s → bytesFor (pw.toNat * count s) ≤ s.operands.srcLen.toNat →
    count s * ws.bytes ≤ s.operands.dstCap.toNat →
    ∃ t out, exec (.bpUnpack ws lane pw) s = .next t ∧ t.status = .done ∧ SameElse s t ∧
      out.length = count s * ws.bytes ∧ Wrote s t out ∧
      (∀ i j, i < count s → j < ws.bits →
        (elemAt t.mem ws s.operands.dstBase.toNat i).getLsbD j =
          (decide (j < pw.toNat) && streamBit s.mem s.operands.srcBase.toNat (i * pw.toNat + j))) ∧
      ResultsAre t 0 (bytesFor (pw.toNat * count s)) (count s * ws.bytes) 0 0

/-- Unpacking a packed list gives each field back modulo `2^w`, from `ceil(w*m/8)` bytes (spec/00_scope.md R12,
R13). -/
def Obligations.PackUnpackFields : Prop :=
  ∀ (w : Nat) (xs : List Nat),
    (pack w xs).length = bytesFor (w * xs.length) ∧
    unpack w (pack w xs) xs.length = xs.map fun x => x % 2 ^ w

/-! ### VByte (spec/42_vbyte.md) -/

/-- `vb_put(v)` has `vblen(v)` bytes; byte `j` carries bits `7j+6 .. 7j`, and bit 7 exactly when a further byte
follows (R171). -/
def Obligations.VbyteFormat : Prop :=
  ∀ v : Nat, v < 2 ^ 64 → (vbPut v).length = vblenOf v ∧
    ∀ j, j < vblenOf v → ((vbPut v).getD j 0#8).toNat =
      v / 128 ^ j % 128 + (if j + 1 < vblenOf v then 128 else 0)

/-- `VB_ENC` completes whenever its output fits, for which the size of R317 suffices, and writes the VByte buffer of
the transformed array and nothing else (R173, R175). -/
def Obligations.VbEncWritesBuffer : Prop :=
  ∀ (ws : Width) (tr : Transform) (s : State),
    let r := sent ws tr s
    let out := r.xs.flatMap fun v => vbPut v.toNat
    count s ≤ out.length ∧ out.length ≤ count s * ceilDiv ws.bits 7 ∧
    (WindowsReady s → count s * ws.bytes ≤ s.operands.srcLen.toNat → out.length ≤ s.operands.dstCap.toNat →
      ∃ t, exec (.vbEnc ws tr) s = .next t ∧ t.status = .done ∧ SameElse s t ∧
        r.xs.length = count s ∧
        (∀ i, i < count s →
          r.xs[i]? = some (forwardAt tr (seedElem ws.bits s) (seed2Elem ws.bits s) (srcElem ws s) i)) ∧
        Wrote s t out ∧ out.length = (r.xs.map fun v => vblenOf v.toNat).sum ∧
        ResultsAre t 0 (count s * ws.bytes) out.length r.p.toNat r.q.toNat)

/-- `VB_DEC` on a window that begins with the buffer of an array writes that array and nothing else, and returns
the cursors and the encoder's running seeds (R174). -/
def Obligations.VbDecRestores : Prop :=
  ∀ (ws : Width) (tr : Transform) (s : State) (xs : List (BitVec ws.bits)), xs.length = count s →
    let r := xf tr (seedElem ws.bits s) (seed2Elem ws.bits s) xs
    WindowsReady s → BeginsWith s (vbLayout r.xs) → count s * ws.bytes ≤ s.operands.dstCap.toNat →
    ∃ t, exec (.vbDec ws tr) s = .next t ∧ t.status = .done ∧ SameElse s t ∧ Wrote s t (arrBytes xs) ∧
      (∀ i, i < count s → xs[i]? = some (elemAt t.mem ws s.operands.dstBase.toNat i)) ∧
      ResultsAre t 0 (vbLayout r.xs).length (count s * ws.bytes) r.p.toNat r.q.toNat

/-- VByte round trip: what `VB_ENC` wrote, `VB_DEC` turns back into the array (R176). -/
def Obligations.VbRoundTrip : Prop :=
  ∀ (ws : Width) (tr : Transform) (s t s' : State),
    exec (.vbEnc ws tr) s = .next t → t.status = .done →
    s'.operands.n = s.operands.n → s'.operands.seed = s.operands.seed → s'.operands.seed2 = s.operands.seed2 →
    WindowsReady s' → BeginsWith s' (bytesFrom t.mem.read s.operands.dstBase.toNat t.results.dstEnd.toNat) →
    count s * ws.bytes ≤ s'.operands.dstCap.toNat →
    ∃ t', exec (.vbDec ws tr) s' = .next t' ∧ t'.status = .done ∧ Wrote s' t' (arrBytes (srcArray ws s)) ∧
      t'.results.srcEnd = t.results.dstEnd ∧ t'.results.rseed = t.results.rseed ∧
      t'.results.rseed2 = t.results.rseed2

/-- Random access and search on a window that begins with the VByte buffer of an array, or of its first `m`
elements: `VB_GETX` returns the element, `VB_GETEQ` and `VB_GETGEQ` the first hit from `INDEX` on, or `N` (R250 to
R255, R265). -/
def Obligations.VbAccessAgrees : Prop :=
  ∀ (ws : Width) (tr : Transform) (s : State) (xs : List (BitVec ws.bits)) (m : Nat),
    xs.length = count s → SrcValid s → m ≤ count s →
    BeginsWith s (vbLayout (stored ws tr s (xs.take m)).xs) →
    AccessAgrees (.vbGetx ws tr) (.vbGeteq ws tr) (.vbGetgeq ws tr) s xs m

/-! ### TurboByte (spec/43_turbobyte.md) -/

/-- A group: two-bit codes `tb_len - 1` in the descriptor, then each value's `tb_len` low bytes, `tb_len` the least
positive number of bytes that holds the value (R186, R187). -/
def Obligations.TurboGroupFormat : Prop :=
  ∀ vs : List Nat, (∀ v ∈ vs, v < 2 ^ 32) →
    (tbGroup vs).length = ceilDiv vs.length 4 + (vs.map tbLen).sum ∧
    ∀ i v, vs[i]? = some v →
      (1 ≤ tbLen v ∧ tbLen v ≤ 4 ∧ v < 256 ^ tbLen v ∧ (1 < tbLen v → 256 ^ (tbLen v - 1) ≤ v)) ∧
      ((tbGroup vs).getD (i / 4) 0#8).toNat / 4 ^ (i % 4) % 4 = tbLen v - 1 ∧
      ∀ b, b < tbLen v →
        ((tbGroup vs).getD (ceilDiv vs.length 4 + ((vs.take i).map tbLen).sum + b) 0#8).toNat = v / 256 ^ b % 256

/-- `TB_ENC` completes whenever its output fits, for which the size of R317 suffices, and writes the groups of the
transformed array and nothing else (R188, R190). -/
def Obligations.TbEncWritesBuffer : Prop :=
  ∀ (ws : Width) (tr : Transform) (lane : Lane) (gs : GroupSize) (s : State),
    wellFormed (.tbEnc ws tr lane gs) = true →
    let r := sent ws tr s
    let out := (chunks gs.count (r.xs.map BitVec.toNat)).flatMap tbGroup
    out.length ≤ ceilDiv (count s) 4 + count s * ws.bytes ∧
    (WindowsReady s → count s * ws.bytes ≤ s.operands.srcLen.toNat → out.length ≤ s.operands.dstCap.toNat →
      ∃ t, exec (.tbEnc ws tr lane gs) s = .next t ∧ t.status = .done ∧ SameElse s t ∧
        r.xs.length = count s ∧
        (∀ i, i < count s →
          r.xs[i]? = some (forwardAt tr (seedElem ws.bits s) (seed2Elem ws.bits s) (srcElem ws s) i)) ∧
        Wrote s t out ∧ out.length = ceilDiv (count s) 4 + (r.xs.map fun v => tbLen v.toNat).sum ∧
        ResultsAre t 0 (count s * ws.bytes) out.length r.p.toNat r.q.toNat)

/-- `TB_DEC` on a window that begins with the buffer of an array writes that array and nothing else (R189). -/
def Obligations.TbDecRestores : Prop :=
  ∀ (ws : Width) (tr : Transform) (lane : Lane) (gs : GroupSize) (s : State) (xs : List (BitVec ws.bits)),
    wellFormed (.tbDec ws tr lane gs) = true → xs.length = count s →
    let r := xf tr (seedElem ws.bits s) (seed2Elem ws.bits s) xs
    WindowsReady s → BeginsWith s (tbLayout gs.count r.xs) → count s * ws.bytes ≤ s.operands.dstCap.toNat →
    ∃ t, exec (.tbDec ws tr lane gs) s = .next t ∧ t.status = .done ∧ SameElse s t ∧ Wrote s t (arrBytes xs) ∧
      (∀ i, i < count s → xs[i]? = some (elemAt t.mem ws s.operands.dstBase.toNat i)) ∧
      ResultsAre t 0 (tbLayout gs.count r.xs).length (count s * ws.bytes) r.p.toNat r.q.toNat

/-- TurboByte round trip, with any legal lanes (R191). -/
def Obligations.TbRoundTrip : Prop :=
  ∀ (ws : Width) (tr : Transform) (l₁ l₂ : Lane) (gs : GroupSize) (s t s' : State),
    wellFormed (.tbEnc ws tr l₁ gs) = true → wellFormed (.tbDec ws tr l₂ gs) = true →
    exec (.tbEnc ws tr l₁ gs) s = .next t → t.status = .done →
    s'.operands.n = s.operands.n → s'.operands.seed = s.operands.seed → s'.operands.seed2 = s.operands.seed2 →
    WindowsReady s' → BeginsWith s' (bytesFrom t.mem.read s.operands.dstBase.toNat t.results.dstEnd.toNat) →
    count s * ws.bytes ≤ s'.operands.dstCap.toNat →
    ∃ t', exec (.tbDec ws tr l₂ gs) s' = .next t' ∧ t'.status = .done ∧
      Wrote s' t' (arrBytes (srcArray ws s)) ∧
      t'.results.srcEnd = t.results.dstEnd ∧ t'.results.rseed = t.results.rseed ∧
      t'.results.rseed2 = t.results.rseed2

/-- Random access and search on a window that begins with the TurboByte buffer of an array, or of its first `m`
elements in whole groups (R250 to R252, R256 to R258, R265). -/
def Obligations.TbAccessAgrees : Prop :=
  ∀ (ws : Width) (tr : Transform) (lane : Lane) (gs : GroupSize) (s : State) (xs : List (BitVec ws.bits)) (m : Nat),
    wellFormed (.tbGetx ws tr lane gs) = true → xs.length = count s → SrcValid s →
    m ≤ count s → m = count s ∨ m % gs.count = 0 →
    BeginsWith s (tbLayout gs.count (stored ws tr s (xs.take m)).xs) →
    AccessAgrees (.tbGetx ws tr lane gs) (.tbGeteq ws tr lane gs) (.tbGetgeq ws tr lane gs) s xs m

/-! ### PFor (spec/45_pfor.md) -/

/-- `PF_SELW` reports the least packing width of least cost and its number of exceptions (R211, R217). -/
def Obligations.PfSelwLeastCost : Prop :=
  ∀ (ws : Width) (bm1 : BlockField) (s : State), SrcValid s → count s ≤ bm1.toNat + 1 →
    count s * ws.bytes ≤ s.operands.srcLen.toNat →
    let cost := blockCost (srcElem ws s) (count s) (bm1.toNat + 1)
    ∃ k, Reports (.pfSelw ws bm1) s (k + 256 * tooWide (srcElem ws s) (count s) k) (count s * ws.bytes) ∧
      k ≤ ws.bits ∧ ∀ k', cost k ≤ cost k' ∧ (k' < k → cost k < cost k')

/-- A PFor block (R211, R212, R214, R218): its size, at most four bytes more than the plain array; its first header
byte, the least packing width of least cost; its second, the number of exceptions; the low bits of every element;
the gaps between the exceptions' positions, one less after the first; the exceptions' true values; zero padding. -/
def Obligations.PforBlockSize : Prop :=
  ∀ (ws : Width) (b : Nat) (d : List Nat), 1 ≤ d.length → d.length ≤ b → b ≤ 256 → (∀ v ∈ d, v < 2 ^ ws.bits) →
    let blk := pfBlock ws.bits b d
    let k := (blk.getD 0 0#8).toNat
    let c := (blk.getD 1 0#8).toNat
    let ob := bw (b - 1)
    let cost := fun k' => k' * d.length + d.countP (fun v => decide (2 ^ k' ≤ v)) * (ob + ws.bits)
    let pos := (List.range d.length).filter fun i => decide (2 ^ k ≤ d.getD i 0)
    let gapsAt := 2 + bytesFor (k * d.length)
    let valuesAt := gapsAt + bytesFor (ob * c)
    let bit := fun base j => (blk.getD (base + j / 8) 0#8).getLsbD (j % 8)
    (k ≤ bw (listMax d) ∧ ∀ k', cost k ≤ cost k' ∧ (k' < k → cost k < cost k')) ∧
    c = d.countP (fun v => decide (2 ^ k ≤ v)) ∧ c = pos.length ∧
    blk.length = valuesAt + c * ws.bytes ∧ blk.length ≤ ws.bytes * d.length + 4 ∧
    (∀ i v j, d[i]? = some v → j < k → bit 2 (i * k + j) = v.testBit j) ∧
    (∀ j, k * d.length ≤ j → j < 8 * bytesFor (k * d.length) → bit 2 j = false) ∧
    (∀ e p j, pos[e]? = some p → j < ob →
      bit gapsAt (e * ob + j) = (if e = 0 then p else p - pos.getD (e - 1) 0 - 1).testBit j) ∧
    (∀ j, ob * c ≤ j → j < 8 * bytesFor (ob * c) → bit gapsAt j = false) ∧
    (∀ e p, pos[e]? = some p → leValue ((blk.drop (valuesAt + e * ws.bytes)).take ws.bytes) = d.getD p 0)

/-- `PF_ENC` completes whenever its output fits, for which the size of R317 suffices, and writes the blocks of the
transformed array and nothing else (R215, R218). -/
def Obligations.PfEncWritesBuffer : Prop :=
  ∀ (ws : Width) (tr : Transform) (lane : Lane) (bm1 : BlockField) (s : State),
    let r := sent ws tr s
    let out := (chunks (bm1.toNat + 1) (r.xs.map BitVec.toNat)).flatMap (pfBlock ws.bits (bm1.toNat + 1))
    out.length ≤ count s * ws.bytes + 4 * ceilDiv (count s) (bm1.toNat + 1) ∧
    (WindowsReady s → count s * ws.bytes ≤ s.operands.srcLen.toNat → out.length ≤ s.operands.dstCap.toNat →
      ∃ t, exec (.pfEnc ws tr lane bm1) s = .next t ∧ t.status = .done ∧ SameElse s t ∧
        r.xs.length = count s ∧
        (∀ i, i < count s →
          r.xs[i]? = some (forwardAt tr (seedElem ws.bits s) (seed2Elem ws.bits s) (srcElem ws s) i)) ∧
        Wrote s t out ∧ ResultsAre t 0 (count s * ws.bytes) out.length r.p.toNat r.q.toNat)

/-- `PF_DEC` on a window that begins with the buffer of an array writes that array and nothing else (R213, R216). -/
def Obligations.PfDecRestores : Prop :=
  ∀ (ws : Width) (tr : Transform) (lane : Lane) (bm1 : BlockField) (s : State) (xs : List (BitVec ws.bits)),
    xs.length = count s →
    let r := xf tr (seedElem ws.bits s) (seed2Elem ws.bits s) xs
    WindowsReady s → BeginsWith s (pfLayout (blockSize bm1) r.xs) →
    count s * ws.bytes ≤ s.operands.dstCap.toNat →
    ∃ t, exec (.pfDec ws tr lane bm1) s = .next t ∧ t.status = .done ∧ SameElse s t ∧ Wrote s t (arrBytes xs) ∧
      (∀ i, i < count s → xs[i]? = some (elemAt t.mem ws s.operands.dstBase.toNat i)) ∧
      ResultsAre t 0 (pfLayout (blockSize bm1) r.xs).length (count s * ws.bytes) r.p.toNat r.q.toNat

/-- PFor round trip, with any lanes (R219). -/
def Obligations.PfRoundTrip : Prop :=
  ∀ (ws : Width) (tr : Transform) (l₁ l₂ : Lane) (bm1 : BlockField) (s t s' : State),
    exec (.pfEnc ws tr l₁ bm1) s = .next t → t.status = .done →
    s'.operands.n = s.operands.n → s'.operands.seed = s.operands.seed → s'.operands.seed2 = s.operands.seed2 →
    WindowsReady s' → BeginsWith s' (bytesFrom t.mem.read s.operands.dstBase.toNat t.results.dstEnd.toNat) →
    count s * ws.bytes ≤ s'.operands.dstCap.toNat →
    ∃ t', exec (.pfDec ws tr l₂ bm1) s' = .next t' ∧ t'.status = .done ∧
      Wrote s' t' (arrBytes (srcArray ws s)) ∧
      t'.results.srcEnd = t.results.dstEnd ∧ t'.results.rseed = t.results.rseed ∧
      t'.results.rseed2 = t.results.rseed2

/-- Random access and search on a window that begins with the PFor buffer of an array, or of its first `m` elements
in whole blocks (R250 to R252, R259 to R261, R265). -/
def Obligations.PfAccessAgrees : Prop :=
  ∀ (ws : Width) (tr : Transform) (lane : Lane) (bm1 : BlockField) (s : State) (xs : List (BitVec ws.bits)) (m : Nat),
    xs.length = count s → SrcValid s → m ≤ count s → m = count s ∨ m % blockSize bm1 = 0 →
    BeginsWith s (pfLayout (blockSize bm1) (stored ws tr s (xs.take m)).xs) →
    AccessAgrees (.pfGetx ws tr lane bm1) (.pfGeteq ws tr lane bm1) (.pfGetgeq ws tr lane bm1) s xs m

/-! ### Elias-Fano (spec/46_eliasfano.md) -/

/-- A block: the last value as header, the low `L` bits of every value, and a bit stream in which bit
`(u[i] >> L) + i` is set for each value and no other; `L` is the floor of `log2(U/Bk)`, at least 0 (R231 to
R233). -/
def Obligations.EliasFanoBlockFormat : Prop :=
  ∀ (ws : Width) (us : List Nat) (ul : Nat), us.getLast? = some ul → nonDecreasing us = true → ul < 2 ^ ws.bits →
    let blk := efBlock ws.bits us
    let l := efL (ul + 1) us.length
    let hb := us.length + 2 ^ (bw (ul + 1) - l)
    let lowAt := ws.bytes
    let highAt := ws.bytes + bytesFor (l * us.length)
    (us.length ≤ ul + 1 → 2 ^ l * us.length ≤ ul + 1 ∧ ul + 1 < 2 ^ (l + 1) * us.length) ∧
    (ul + 1 < us.length → l = 0) ∧
    blk.length = highAt + bytesFor hb ∧ leValue (blk.take ws.bytes) = ul ∧
    (∀ i v j, us[i]? = some v → j < l →
      (blk.getD (lowAt + (i * l + j) / 8) 0#8).getLsbD ((i * l + j) % 8) = v.testBit j) ∧
    (∀ k, k < 8 * bytesFor hb →
      ((blk.getD (highAt + k / 8) 0#8).getLsbD (k % 8) = true ↔ ∃ i v, us[i]? = some v ∧ k = v / 2 ^ l + i))

/-- `EF_ENC` on an array that meets the monotonicity precondition completes whenever its output fits, for which the
size of R317 suffices, and writes the blocks of the rebased values and nothing else (R235, R236, R239). -/
def Obligations.EfEncWritesBuffer : Prop :=
  ∀ (ws : Width) (tr : Transform) (lane : Lane) (bm1 : BlockField) (s : State),
    wellFormed (.efEnc ws tr lane bm1) = true →
    EfMonotone (strictStep tr) (seedElem ws.bits s) (bm1.toNat + 1) (srcElem ws s) (count s) →
    let out := efSent ws tr bm1 s
    out.length ≤
      ceilDiv (count s) (bm1.toNat + 1) * (ws.bytes + 1) + count s * ws.bytes + ceilDiv (5 * count s) 8 ∧
    (WindowsReady s → count s * ws.bytes ≤ s.operands.srcLen.toNat → out.length ≤ s.operands.dstCap.toNat →
      ∃ t, exec (.efEnc ws tr lane bm1) s = .next t ∧ t.status = .done ∧ SameElse s t ∧ Wrote s t out ∧
        ResultsAre t 0 (count s * ws.bytes) out.length
          (prevOf (seedElem ws.bits s) (srcElem ws s) (count s)).toNat 0)

/-- `EF_DEC` on a window that begins with the encoding of an array writes that array and nothing else (R234, R237). -/
def Obligations.EfDecRestores : Prop :=
  ∀ (ws : Width) (tr : Transform) (lane : Lane) (bm1 : BlockField) (s : State) (xs : List (BitVec ws.bits))
    (out : List Byte) (last : BitVec ws.bits),
    wellFormed (.efDec ws tr lane bm1) = true → xs.length = count s →
    efEncodeBlocks (strictStep tr) (seedElem ws.bits s) (chunks (blockSize bm1) xs) = .ok (out, last) →
    WindowsReady s → BeginsWith s out → count s * ws.bytes ≤ s.operands.dstCap.toNat →
    ∃ t, exec (.efDec ws tr lane bm1) s = .next t ∧ t.status = .done ∧ SameElse s t ∧ Wrote s t (arrBytes xs) ∧
      (∀ i, i < count s → xs[i]? = some (elemAt t.mem ws s.operands.dstBase.toNat i)) ∧
      ResultsAre t 0 out.length (count s * ws.bytes) last.toNat 0

/-- Elias-Fano round trip on an array that meets the monotonicity precondition (R240). -/
def Obligations.EfRoundTrip : Prop :=
  ∀ (ws : Width) (tr : Transform) (l₁ l₂ : Lane) (bm1 : BlockField) (s t s' : State),
    wellFormed (.efEnc ws tr l₁ bm1) = true →
    EfMonotone (strictStep tr) (seedElem ws.bits s) (bm1.toNat + 1) (srcElem ws s) (count s) →
    exec (.efEnc ws tr l₁ bm1) s = .next t → t.status = .done →
    s'.operands.n = s.operands.n → s'.operands.seed = s.operands.seed →
    WindowsReady s' → BeginsWith s' (bytesFrom t.mem.read s.operands.dstBase.toNat t.results.dstEnd.toNat) →
    count s * ws.bytes ≤ s'.operands.dstCap.toNat →
    ∃ t', exec (.efDec ws tr l₂ bm1) s' = .next t' ∧ t'.status = .done ∧
      Wrote s' t' (arrBytes (srcArray ws s)) ∧
      t'.results.srcEnd = t.results.dstEnd ∧ t'.results.rseed = t.results.rseed

/-- Random access and search on a window that begins with the Elias-Fano encoding of an array, or of its first `m`
elements in whole blocks (R250 to R252, R262 to R264, R265). -/
def Obligations.EfAccessAgrees : Prop :=
  ∀ (ws : Width) (tr : Transform) (lane : Lane) (bm1 : BlockField) (s : State) (xs : List (BitVec ws.bits)) (m : Nat)
    (out : List Byte) (last : BitVec ws.bits),
    wellFormed (.efGetx ws tr lane bm1) = true → xs.length = count s → SrcValid s →
    m ≤ count s → m = count s ∨ m % blockSize bm1 = 0 →
    efEncodeBlocks (strictStep tr) (seedElem ws.bits s) (chunks (blockSize bm1) (xs.take m)) = .ok (out, last) →
    BeginsWith s out →
    AccessAgrees (.efGetx ws tr lane bm1) (.efGeteq ws tr lane bm1) (.efGetgeq ws tr lane bm1) s xs m
end

