-- ==== Sys2Proof/Laws/Decode.lean ====
section
/-! SUPPORT. The field layout of a command word: taking a word apart and putting it together undo each
other. -/

namespace Sys2Proof

/-- Bit `i` of a word put together from fields (spec/30_encoding.md R101). -/
theorem getLsbD_wordOf (f : Fields) (i : Nat) :
    (wordOf f).getLsbD i =
      if i < 5 then f.op.getLsbD i
      else if i < 7 then f.ws.getLsbD (i - 5)
      else if i < 10 then f.tr.getLsbD (i - 7)
      else if i < 12 then f.lane.getLsbD (i - 10)
      else if i < 20 then f.bm1.getLsbD (i - 12)
      else if i < 22 then f.gs.getLsbD (i - 20)
      else if i < 29 then f.pw.getLsbD (i - 22)
      else f.rsv.getLsbD (i - 29) := by
  have h : (wordOf f).getLsbD i =
      (f.rsv ++ f.pw ++ f.gs ++ f.bm1 ++ f.lane ++ f.tr ++ f.ws ++ f.op :
        BitVec (3 + 7 + 2 + 8 + 2 + 3 + 2 + 5)).getLsbD i := rfl
  rw [h]
  simp only [BitVec.getLsbD_append]
  grind

/-- The fields of a word put together from fields are those fields. -/
theorem fieldsOf_wordOf (f : Fields) : fieldsOf (wordOf f) = f := by
  cases f
  simp only [fieldsOf, Fields.mk.injEq]
  refine ⟨?_, ?_, ?_, ?_, ?_, ?_, ?_, ?_⟩ <;> ext i hi <;>
    rw [BitVec.getElem_extractLsb', getLsbD_wordOf, ← BitVec.getLsbD_eq_getElem] <;> grind

/-- A word is put together from its fields. -/
theorem wordOf_fieldsOf (c : CmdWord) : wordOf (fieldsOf c) = c := by
  ext i hi
  rw [← BitVec.getLsbD_eq_getElem, ← BitVec.getLsbD_eq_getElem, getLsbD_wordOf]
  simp only [fieldsOf, BitVec.getLsbD_extractLsb']
  grind

end Sys2Proof
end

