-- ==== Sys2Proof/Laws/Memory.lean ====
section
/-! SUPPORT. The laws of memory: read after write inside and outside the bytes written, and the canonical
form, which every memory operation keeps. The read laws need no canonical form. -/

namespace Sys2Proof.Machine

@[simp] theorem Memory.read_nil (a : Nat) : Memory.read [] a = Config.powerUpByte a := rfl

@[simp] theorem bytesFrom_length (f : Nat → Byte) (off k : Nat) : (bytesFrom f off k).length = k := by
  induction k generalizing off with
  | zero => rfl
  | succ k ih => simp [bytesFrom, ih]

theorem bytesFrom_getElem? (f : Nat → Byte) (off k i : Nat) (h : i < k) :
    (bytesFrom f off k)[i]? = some (f (off + i)) := by
  induction k generalizing off i with
  | zero => omega
  | succ k ih =>
    cases i with
    | zero => simp [bytesFrom]
    | succ i => simp only [bytesFrom, List.getElem?_cons_succ]; rw [ih (off + 1) i (by omega)]; congr 2; omega

theorem bytesFrom_congr {f g : Nat → Byte} {off k : Nat} (h : ∀ j, off ≤ j → j < off + k → f j = g j) :
    bytesFrom f off k = bytesFrom g off k := by
  induction k generalizing off with
  | zero => rfl
  | succ k ih =>
    simp only [bytesFrom]
    rw [h off (Nat.le_refl _) (by omega), ih fun j h₁ h₂ => h j (by omega) (by omega)]

theorem freeBytes_length (k len : Nat) : (freeBytes k len).length = len := by
  induction len generalizing k with
  | zero => rfl
  | succ len ih => simp [freeBytes, ih]

theorem read_append_of_unlisted (m₁ m₂ : Memory) (a : Nat) (h : ∀ c ∈ m₁, c.1 ≠ a) :
    Memory.read (m₁ ++ m₂) a = Memory.read m₂ a := by
  induction m₁ with
  | nil => rfl
  | cons c m₁ ih =>
    obtain ⟨x, b⟩ := c
    have hx : x ≠ a := h (x, b) (by simp)
    simp only [List.cons_append, Memory.read, if_neg hx]
    exact ih fun c hc => h c (by simp [hc])

theorem read_cellsAt_append (m : Memory) (a : Nat) (bs : List Byte) (i : Nat) (h : i < bs.length) :
    Memory.read (cellsAt a bs ++ m) (a + i) = bs[i] := by
  induction bs generalizing a i with
  | nil => simp at h
  | cons b bs ih =>
    cases i with
    | zero => simp [cellsAt, Memory.read]
    | succ i =>
      have hne : a ≠ a + (i + 1) := by omega
      simp only [cellsAt, List.cons_append, Memory.read, if_neg hne]
      have := ih (a + 1) i (by simpa using h)
      rw [show a + 1 + i = a + (i + 1) by omega] at this
      simpa using this

theorem cellsAt_fst {a : Nat} {bs : List Byte} {c : Host.Cell} (h : c ∈ cellsAt a bs) :
    a ≤ c.1 ∧ c.1 < a + bs.length := by
  induction bs generalizing a with
  | nil => simp [cellsAt] at h
  | cons b bs ih =>
    simp only [cellsAt, List.mem_cons] at h
    rcases h with rfl | h
    · simp
    · have := ih h; simp only [List.length_cons]; omega

theorem read_filter_of_kept (m : Memory) (p : Host.Cell → Bool) (x : Nat) (h : ∀ b, p (x, b) = true) :
    Memory.read (m.filter p) x = Memory.read m x := by
  induction m with
  | nil => rfl
  | cons c m ih =>
    obtain ⟨y, b⟩ := c
    by_cases hy : y = x
    · subst hy
      rw [List.filter_cons_of_pos (h b)]
      simp [Memory.read]
    · by_cases hp : p (y, b) = true
      · rw [List.filter_cons_of_pos hp]
        simp only [Memory.read, if_neg hy, ih]
      · rw [List.filter_cons_of_neg hp]
        simp only [Memory.read, if_neg hy, ih]

/-- A byte that was written reads as written. -/
theorem read_writeBytes_inside (m : Memory) (a : Nat) (bs : List Byte) (i : Nat) (h : i < bs.length) :
    (m.writeBytes a bs).read (a + i) = bs[i] := by
  induction m with
  | nil => simpa [Memory.writeBytes] using read_cellsAt_append [] a bs i h
  | cons c m ih =>
    obtain ⟨x, y⟩ := c
    simp only [Memory.writeBytes]
    split
    · have hx : x ≠ a + i := by omega
      simp only [Memory.read, if_neg hx, ih]
    · exact read_cellsAt_append _ a bs i h

/-- A byte outside the bytes written reads as before. -/
theorem read_writeBytes_outside (m : Memory) (a : Nat) (bs : List Byte) (x : Nat)
    (h : x < a ∨ a + bs.length ≤ x) : (m.writeBytes a bs).read x = m.read x := by
  have hu : ∀ c ∈ cellsAt a bs, c.1 ≠ x := fun c hc => by have := cellsAt_fst hc; omega
  induction m with
  | nil =>
    have := read_append_of_unlisted (cellsAt a bs) [] x hu
    simpa [Memory.writeBytes] using this
  | cons c m ih =>
    obtain ⟨z, y⟩ := c
    simp only [Memory.writeBytes]
    split
    · simp only [Memory.read, ih]
    · rw [read_append_of_unlisted _ _ _ hu, read_filter_of_kept]
      intro b
      simp only [Bool.or_eq_true, decide_eq_true_eq]
      omega

/-- Writing no byte changes nothing. -/
@[simp] theorem writeBytes_nil (m : Memory) (a : Nat) : m.writeBytes a [] = m := by
  induction m with
  | nil => rfl
  | cons c m ih =>
    obtain ⟨x, y⟩ := c
    simp only [Memory.writeBytes]
    split
    · rw [ih]
    · simp only [cellsAt, List.nil_append, List.length_nil, Nat.add_zero, List.filter_eq_self]
      intro c _
      simp only [Bool.or_eq_true, decide_eq_true_eq]
      omega

theorem bytesFrom_writeBytes (m : Memory) (a : Nat) (bs : List Byte) :
    bytesFrom (m.writeBytes a bs).read a bs.length = bs := by
  apply List.ext_getElem? fun i => ?_
  by_cases h : i < bs.length
  · rw [bytesFrom_getElem? _ _ _ _ h, read_writeBytes_inside m a bs i h, List.getElem?_eq_getElem h]
  · rw [List.getElem?_eq_none (by simpa using h), List.getElem?_eq_none (by simpa using h)]

@[simp] theorem read_write_same (m : Memory) (a : Nat) (b : Byte) : (m.write a b).read a = b := by
  simpa [Memory.write] using read_writeBytes_inside m a [b] 0 (by simp)

theorem read_write_other (m : Memory) (a x : Nat) (b : Byte) (h : x ≠ a) : (m.write a b).read x = m.read x :=
  read_writeBytes_outside m a [b] x (by simp only [List.length_singleton]; omega)

/-! ### The canonical form -/

theorem risingFrom_mono {lo lo' : Nat} {m : Memory} (h : lo' ≤ lo) (hm : Memory.risingFrom lo m = true) :
    Memory.risingFrom lo' m = true := by
  cases m with
  | nil => rfl
  | cons c m =>
    obtain ⟨a, b⟩ := c
    simp only [Memory.risingFrom, Bool.and_eq_true, decide_eq_true_eq] at hm ⊢
    exact ⟨⟨by omega, hm.1.2⟩, hm.2⟩

theorem risingFrom_filter {lo hi : Nat} {m : Memory} (a : Nat) (ha : a ≤ lo) (hm : Memory.risingFrom lo m = true) :
    Memory.risingFrom hi (m.filter fun c => decide (c.1 < a) || decide (hi ≤ c.1)) = true := by
  induction m generalizing lo with
  | nil => rfl
  | cons c m ih =>
    obtain ⟨x, b⟩ := c
    simp only [Memory.risingFrom, Bool.and_eq_true, decide_eq_true_eq] at hm
    obtain ⟨⟨h₁, h₂⟩, h₃⟩ := hm
    by_cases hx : hi ≤ x
    · rw [List.filter_cons_of_pos (by simp [hx])]
      have hall : ∀ y, x + 1 ≤ y → hi ≤ y := fun y hy => by omega
      have hself : m.filter (fun c => decide (c.1 < a) || decide (hi ≤ c.1)) = m := by
        clear ih h₁ h₂
        revert h₃ hall
        generalize x + 1 = l
        intro h₃ hall
        induction m generalizing l with
        | nil => rfl
        | cons c m ih =>
          obtain ⟨y, b'⟩ := c
          simp only [Memory.risingFrom, Bool.and_eq_true, decide_eq_true_eq] at h₃
          rw [List.filter_cons_of_pos (by simp [hall y h₃.1.1]), ih (y + 1) h₃.2 fun z hz => hall z (by omega)]
      rw [hself]
      simp only [Memory.risingFrom, Bool.and_eq_true, decide_eq_true_eq]
      exact ⟨⟨hx, h₂⟩, h₃⟩
    · rw [List.filter_cons_of_neg (by simp only [Bool.or_eq_true, decide_eq_true_eq]; omega)]
      exact ih (by omega) h₃

theorem risingFrom_cellsAt_append {a : Nat} {bs : List Byte} {m : Memory} (hb : a + bs.length ≤ addressLimit)
    (hm : Memory.risingFrom (a + bs.length) m = true) : Memory.risingFrom a (cellsAt a bs ++ m) = true := by
  induction bs generalizing a with
  | nil => simpa [cellsAt] using hm
  | cons b bs ih =>
    simp only [List.length_cons] at hb hm
    simp only [cellsAt, List.cons_append, Memory.risingFrom, Bool.and_eq_true, decide_eq_true_eq]
    refine ⟨⟨Nat.le_refl _, by omega⟩, ih (by omega) ?_⟩
    rwa [show a + 1 + bs.length = a + (bs.length + 1) by omega]

theorem risingFrom_writeBytes {lo a : Nat} {bs : List Byte} {m : Memory} (hlo : lo ≤ a)
    (hb : a + bs.length ≤ addressLimit) (hm : Memory.risingFrom lo m = true) :
    Memory.risingFrom lo (m.writeBytes a bs) = true := by
  induction m generalizing lo with
  | nil =>
    have := risingFrom_cellsAt_append (m := []) hb rfl
    simp only [List.append_nil] at this
    exact risingFrom_mono hlo this
  | cons c m ih =>
    obtain ⟨x, y⟩ := c
    simp only [Memory.writeBytes]
    split
    · simp only [Memory.risingFrom, Bool.and_eq_true, decide_eq_true_eq] at hm ⊢
      exact ⟨hm.1, ih (by omega) hm.2⟩
    · rename_i hx
      refine risingFrom_mono hlo (risingFrom_cellsAt_append hb (risingFrom_filter a (Nat.le_refl a) ?_))
      simp only [Memory.risingFrom, Bool.and_eq_true, decide_eq_true_eq] at hm ⊢
      exact ⟨⟨by omega, hm.1.2⟩, hm.2⟩

/-- Writing bytes that exist keeps the canonical form. -/
theorem wf_writeBytes {m : Memory} {a : Nat} {bs : List Byte} (hb : a + bs.length ≤ addressLimit)
    (hm : m.wf = true) : (m.writeBytes a bs).wf = true :=
  risingFrom_writeBytes (Nat.zero_le a) hb hm

/-- Writing a byte that exists keeps the canonical form. -/
theorem wf_write {m : Memory} {a : Nat} {b : Byte} (ha : a < addressLimit) (hm : m.wf = true) :
    (m.write a b).wf = true :=
  wf_writeBytes (by simpa using ha) hm

/-- The memory at reset has the canonical form. -/
theorem wf_reset : State.reset.mem.wf = true := rfl

/-- Freeing the destination window keeps the canonical form: only its existing bytes are written. -/
theorem wf_freeDstWindow {s : State} (hm : s.mem.wf = true) : (freeDstWindow s).mem.wf = true := by
  refine wf_writeBytes ?_ hm
  have hb := s.operands.dstBase.isLt
  rw [freeBytes_length, dstWindowSize]
  simp only [addressLimit]
  omega

end Sys2Proof.Machine
end

