-- ==== Sys2Proof/Laws/State.lean ====
section
/-! SUPPORT. One lemma per field per update of the state, so that no later proof unfolds a record
update. -/

namespace Sys2Proof.Machine

@[simp] theorem clearTouched_operands (s : State) : (clearTouched s).operands = s.operands := rfl
@[simp] theorem clearTouched_results (s : State) : (clearTouched s).results = s.results := rfl
@[simp] theorem clearTouched_cmd (s : State) : (clearTouched s).cmd = s.cmd := rfl
@[simp] theorem clearTouched_status (s : State) : (clearTouched s).status = s.status := rfl
@[simp] theorem clearTouched_mem (s : State) : (clearTouched s).mem = s.mem := rfl
@[simp] theorem clearTouched_draws (s : State) : (clearTouched s).draws = s.draws := rfl
@[simp] theorem clearTouched_events (s : State) : (clearTouched s).events = s.events := rfl
@[simp] theorem clearTouched_readData (s : State) : (clearTouched s).readData = s.readData := rfl
@[simp] theorem clearTouched_srcTouched (s : State) : (clearTouched s).srcTouched = false := rfl
@[simp] theorem clearTouched_dstTouched (s : State) : (clearTouched s).dstTouched = [] := rfl

@[simp] theorem freeDstWindow_operands (s : State) : (freeDstWindow s).operands = s.operands := rfl
@[simp] theorem freeDstWindow_results (s : State) : (freeDstWindow s).results = s.results := rfl
@[simp] theorem freeDstWindow_cmd (s : State) : (freeDstWindow s).cmd = s.cmd := rfl
@[simp] theorem freeDstWindow_status (s : State) : (freeDstWindow s).status = s.status := rfl
@[simp] theorem freeDstWindow_mem (s : State) : (freeDstWindow s).mem = s.mem.writeBytes s.operands.dstBase.toNat (freeBytes s.draws (dstWindowSize s.operands)) := rfl
@[simp] theorem freeDstWindow_draws (s : State) : (freeDstWindow s).draws = s.draws + dstWindowSize s.operands := rfl
@[simp] theorem freeDstWindow_events (s : State) : (freeDstWindow s).events = s.events := rfl
@[simp] theorem freeDstWindow_readData (s : State) : (freeDstWindow s).readData = s.readData := rfl
@[simp] theorem freeDstWindow_srcTouched (s : State) : (freeDstWindow s).srcTouched = s.srcTouched := rfl
@[simp] theorem freeDstWindow_dstTouched (s : State) : (freeDstWindow s).dstTouched = s.dstTouched := rfl

@[simp] theorem freeOutputs_operands (b : Bool) (s : State) : (freeOutputs b s).operands = s.operands := by cases b <;> rfl
@[simp] theorem freeOutputs_results (b : Bool) (s : State) : (freeOutputs b s).results = freeResults s.draws := by cases b <;> rfl
@[simp] theorem freeOutputs_cmd (b : Bool) (s : State) : (freeOutputs b s).cmd = s.cmd := by cases b <;> rfl
@[simp] theorem freeOutputs_status (b : Bool) (s : State) : (freeOutputs b s).status = s.status := by cases b <;> rfl
@[simp] theorem freeOutputs_events (b : Bool) (s : State) : (freeOutputs b s).events = s.events := by cases b <;> rfl
@[simp] theorem freeOutputs_readData (b : Bool) (s : State) : (freeOutputs b s).readData = s.readData := by cases b <;> rfl
@[simp] theorem freeOutputs_srcTouched (b : Bool) (s : State) : (freeOutputs b s).srcTouched = s.srcTouched := by cases b <;> rfl
@[simp] theorem freeOutputs_dstTouched (b : Bool) (s : State) : (freeOutputs b s).dstTouched = s.dstTouched := by cases b <;> rfl

@[simp] theorem freeOutputs_false_mem (s : State) : (freeOutputs false s).mem = s.mem := rfl
@[simp] theorem freeOutputs_true_mem (s : State) :
    (freeOutputs true s).mem = s.mem.writeBytes s.operands.dstBase.toNat (freeBytes (s.draws + 5) (dstWindowSize s.operands)) := rfl
@[simp] theorem freeOutputs_false_draws (s : State) : (freeOutputs false s).draws = s.draws + 5 := rfl
@[simp] theorem freeOutputs_true_draws (s : State) :
    (freeOutputs true s).draws = s.draws + 5 + dstWindowSize s.operands := rfl

@[simp] theorem raise_operands (f : FaultCode) (b : Bool) (s : State) : (raise f b s).operands = s.operands := by cases f <;> cases b <;> rfl
@[simp] theorem raise_cmd (f : FaultCode) (b : Bool) (s : State) : (raise f b s).cmd = s.cmd := by cases f <;> cases b <;> rfl
@[simp] theorem raise_status (f : FaultCode) (b : Bool) (s : State) : (raise f b s).status = .fault f := by cases f <;> cases b <;> rfl
@[simp] theorem raise_events (f : FaultCode) (b : Bool) (s : State) : (raise f b s).events = s.events := by cases f <;> cases b <;> rfl
@[simp] theorem raise_readData (f : FaultCode) (b : Bool) (s : State) : (raise f b s).readData = s.readData := by cases f <;> cases b <;> rfl
@[simp] theorem raise_srcTouched (f : FaultCode) (b : Bool) (s : State) : (raise f b s).srcTouched = s.srcTouched := by cases f <;> cases b <;> rfl
@[simp] theorem raise_dstTouched (f : FaultCode) (b : Bool) (s : State) : (raise f b s).dstTouched = s.dstTouched := by cases f <;> cases b <;> rfl

@[simp] theorem raise_illegalCmd (b : Bool) (s : State) :
    raise .illegalCmd b s = { s with status := .fault .illegalCmd } := rfl
@[simp] theorem raise_arg (b : Bool) (s : State) : raise .arg b s = { s with status := .fault .arg } := rfl

@[simp] theorem complete_operands (o : Output) (s : State) : (complete o s).operands = s.operands := rfl
@[simp] theorem complete_results (o : Output) (s : State) : (complete o s).results = o.results := rfl
@[simp] theorem complete_cmd (o : Output) (s : State) : (complete o s).cmd = s.cmd := rfl
@[simp] theorem complete_status (o : Output) (s : State) : (complete o s).status = .done := rfl
@[simp] theorem complete_mem (o : Output) (s : State) : (complete o s).mem = s.mem.writeBytes s.operands.dstBase.toNat o.bytes := rfl
@[simp] theorem complete_draws (o : Output) (s : State) : (complete o s).draws = s.draws := rfl
@[simp] theorem complete_events (o : Output) (s : State) : (complete o s).events = s.events := rfl
@[simp] theorem complete_readData (o : Output) (s : State) : (complete o s).readData = s.readData := rfl
@[simp] theorem complete_srcTouched (o : Output) (s : State) : (complete o s).srcTouched = s.srcTouched := rfl
@[simp] theorem complete_dstTouched (o : Output) (s : State) : (complete o s).dstTouched = s.dstTouched := rfl

@[simp] theorem completeFree_operands (b : Bool) (s : State) : (completeFree b s).operands = s.operands := by cases b <;> rfl
@[simp] theorem completeFree_results (b : Bool) (s : State) : (completeFree b s).results = freeResults s.draws := by cases b <;> rfl
@[simp] theorem completeFree_cmd (b : Bool) (s : State) : (completeFree b s).cmd = s.cmd := by cases b <;> rfl
@[simp] theorem completeFree_status (b : Bool) (s : State) : (completeFree b s).status = .done := by cases b <;> rfl
@[simp] theorem completeFree_mem (b : Bool) (s : State) : (completeFree b s).mem = (freeOutputs b s).mem := by cases b <;> rfl
@[simp] theorem completeFree_draws (b : Bool) (s : State) : (completeFree b s).draws = (freeOutputs b s).draws := by cases b <;> rfl
@[simp] theorem completeFree_events (b : Bool) (s : State) : (completeFree b s).events = s.events := by cases b <;> rfl
@[simp] theorem completeFree_readData (b : Bool) (s : State) : (completeFree b s).readData = s.readData := by cases b <;> rfl
@[simp] theorem completeFree_srcTouched (b : Bool) (s : State) : (completeFree b s).srcTouched = s.srcTouched := by cases b <;> rfl
@[simp] theorem completeFree_dstTouched (b : Bool) (s : State) : (completeFree b s).dstTouched = s.dstTouched := by cases b <;> rfl

@[simp] theorem resetUnit_operands (b : Bool) (s : State) : (resetUnit b s).operands = {} := rfl
@[simp] theorem resetUnit_results (b : Bool) (s : State) : (resetUnit b s).results = {} := rfl
@[simp] theorem resetUnit_cmd (b : Bool) (s : State) : (resetUnit b s).cmd = 0#32 := rfl
@[simp] theorem resetUnit_status (b : Bool) (s : State) : (resetUnit b s).status = .idle := rfl
@[simp] theorem resetUnit_events (b : Bool) (s : State) : (resetUnit b s).events = s.events := by simp only [resetUnit]; split <;> rfl
@[simp] theorem resetUnit_readData (b : Bool) (s : State) : (resetUnit b s).readData = s.readData := by simp only [resetUnit]; split <;> rfl
@[simp] theorem resetUnit_srcTouched (b : Bool) (s : State) : (resetUnit b s).srcTouched = false := rfl
@[simp] theorem resetUnit_dstTouched (b : Bool) (s : State) : (resetUnit b s).dstTouched = [] := rfl

/-- A reset that leaves nothing free touches no byte of memory. -/
@[simp] theorem resetUnit_false_mem (s : State) : (resetUnit false s).mem = s.mem := by simp [resetUnit]
@[simp] theorem resetUnit_false_draws (s : State) : (resetUnit false s).draws = s.draws := by simp [resetUnit]

@[simp] theorem withFetchWord_operands (s : State) (n w : Nat) : (s.withFetchWord n w).operands = s.operands := rfl
@[simp] theorem withFetchWord_results (s : State) (n w : Nat) : (s.withFetchWord n w).results = s.results := rfl
@[simp] theorem withFetchWord_cmd (s : State) (n w : Nat) : (s.withFetchWord n w).cmd = tableWord n w := rfl
@[simp] theorem withFetchWord_status (s : State) (n w : Nat) : (s.withFetchWord n w).status = .busy := rfl
@[simp] theorem withFetchWord_mem (s : State) (n w : Nat) : (s.withFetchWord n w).mem = s.mem := rfl
@[simp] theorem withFetchWord_draws (s : State) (n w : Nat) : (s.withFetchWord n w).draws = s.draws := rfl
@[simp] theorem withFetchWord_events (s : State) (n w : Nat) : (s.withFetchWord n w).events = [] := rfl
@[simp] theorem withFetchWord_readData (s : State) (n w : Nat) : (s.withFetchWord n w).readData = s.readData := rfl
@[simp] theorem withFetchWord_srcTouched (s : State) (n w : Nat) : (s.withFetchWord n w).srcTouched = false := rfl
@[simp] theorem withFetchWord_dstTouched (s : State) (n w : Nat) : (s.withFetchWord n w).dstTouched = [] := rfl

end Sys2Proof.Machine
end

