-- ==== Sys2Proof/Laws/Ops.lean ====
section
/-! SUPPORT. For each shared operation, once, everything it can do: reads of the source window, raising a
fault, the free outcomes, completing, and the shape every command runs in. Later proofs cite these and
unfold none of the operations. -/

namespace Sys2Proof.Machine

/-! ### The source window -/

/-- `srcRead` answers the bytes exactly when they lie in the window. -/
theorem srcRead_eq_ok (v : Src) (off k : Nat) (bs : List Byte) :
    srcRead v off k = .ok bs ↔ off + k ≤ v.len ∧ bs = bytesFrom v.byte off k := by
  unfold srcRead
  split
  · constructor
    · intro h; cases h
    · intro h; omega
  · constructor
    · intro h
      cases h
      exact ⟨by omega, rfl⟩
    · rintro ⟨_, rfl⟩
      rfl

/-- `srcRead` stops exactly with `srcBounds`, when the bytes do not lie in the window. -/
theorem srcRead_eq_error (v : Src) (off k : Nat) (e : Stop) :
    srcRead v off k = .error e ↔ v.len < off + k ∧ e = .srcBounds := by
  unfold srcRead
  split
  · constructor
    · intro h
      cases h
      exact ⟨‹_›, rfl⟩
    · rintro ⟨_, rfl⟩
      rfl
  · constructor
    · intro h; cases h
    · intro h; omega

/-- A whole-array read answers the elements exactly when the array lies in the window. -/
theorem srcElements_eq_ok (v : Src) (w n : Nat) (xs : List (BitVec w)) :
    srcElements v w n = .ok xs ↔
      n * (w / 8) ≤ v.len ∧ xs = elements w n (bytesFrom v.byte 0 (n * (w / 8))) := by
  unfold srcElements srcRead
  by_cases h : v.len < 0 + n * (w / 8)
  · rw [if_pos h]
    constructor
    · intro g; cases g
    · intro g; omega
  · rw [if_neg h]
    constructor
    · intro g
      cases g
      exact ⟨by omega, rfl⟩
    · rintro ⟨_, rfl⟩
      rfl

/-- A whole-array read stops exactly with `srcBounds`, when the array does not lie in the window. -/
theorem srcElements_eq_error (v : Src) (w n : Nat) (e : Stop) :
    srcElements v w n = .error e ↔ v.len < n * (w / 8) ∧ e = .srcBounds := by
  unfold srcElements srcRead
  by_cases h : v.len < 0 + n * (w / 8)
  · rw [if_pos h]
    constructor
    · intro g
      cases g
      exact ⟨by omega, rfl⟩
    · rintro ⟨_, rfl⟩
      rfl
  · rw [if_neg h]
    constructor
    · intro g; cases g
    · intro g; omega

/-! ### What the end of a command keeps -/

/-- What every end of a command keeps: the operands, `CMD`, the model's own fields but the draws, every byte
outside the destination window, all of memory for a command that writes none, and the canonical form. -/
structure Kept (writes : Bool) (s t : State) : Prop where
  operands : t.operands = s.operands
  cmd : t.cmd = s.cmd
  events : t.events = s.events
  readData : t.readData = s.readData
  srcTouched : t.srcTouched = s.srcTouched
  dstTouched : t.dstTouched = s.dstTouched
  memory : writes = false → t.mem = s.mem
  outside : ∀ a, inDstWindow s.operands a = false → t.mem.read a = s.mem.read a
  canonical : s.mem.wf = true → t.mem.wf = true

/-- An address outside the destination window, as an inequality. -/
theorem inDstWindow_eq_false (o : OperandRegs) (a : Nat) :
    inDstWindow o a = false ↔ a < o.dstBase.toNat ∨ o.dstBase.toNat + o.dstCap.toNat ≤ a := by
  simp only [inDstWindow, Bool.and_eq_false_iff, decide_eq_false_iff_not]
  omega

/-- An address in the destination window, as inequalities. -/
theorem inDstWindow_eq_true (o : OperandRegs) (a : Nat) :
    inDstWindow o a = true ↔ o.dstBase.toNat ≤ a ∧ a < o.dstBase.toNat + o.dstCap.toNat := by
  simp [inDstWindow]

/-- An address in the source window, as inequalities. -/
theorem inSrcWindow_eq_true (o : OperandRegs) (a : Nat) :
    inSrcWindow o a = true ↔ o.srcBase.toNat ≤ a ∧ a < o.srcBase.toNat + o.srcLen.toNat := by
  simp [inSrcWindow]

/-- Bytes written from `DST_BASE` on, no more than the window holds, leave the rest of memory alone. -/
theorem read_writeDst_outside (s : State) (bs : List Byte) (h : bs.length ≤ s.operands.dstCap.toNat) (a : Nat)
    (ha : inDstWindow s.operands a = false) :
    (s.mem.writeBytes s.operands.dstBase.toNat bs).read a = s.mem.read a := by
  rw [inDstWindow_eq_false] at ha
  exact read_writeBytes_outside _ _ _ _ (by omega)

/-- Freeing the destination window leaves the bytes outside it alone. -/
theorem freeDstWindow_outside (s : State) (a : Nat) (ha : inDstWindow s.operands a = false) :
    (freeDstWindow s).mem.read a = s.mem.read a :=
  read_writeDst_outside s _ (by rw [freeBytes_length, dstWindowSize]; omega) a ha

/-- Nothing done keeps everything. -/
theorem Kept.refl (writes : Bool) (s : State) : Kept writes s s := by
  constructor <;> first | rfl | exact fun _ => rfl | exact fun _ _ => rfl | exact id

/-- What freed outputs keep. -/
theorem freeOutputs_kept (writes : Bool) (s : State) : Kept writes s (freeOutputs writes s) := by
  cases writes
  · constructor <;> first | rfl | exact fun _ => rfl | exact fun _ _ => rfl | exact id
  · constructor
    case memory => intro h; cases h
    case outside => exact fun a ha => freeDstWindow_outside { s with results := _, draws := _ } a ha
    case canonical => exact fun h => wf_freeDstWindow (s := { s with results := _, draws := _ }) h
    all_goals rfl

/-- A field that `Kept` does not mention may be set as well. -/
theorem Kept.of_free {writes : Bool} {s t : State} (k : Nat) (h : Kept writes { s with draws := k } t) :
    Kept writes s t :=
  ⟨h.operands, h.cmd, h.events, h.readData, h.srcTouched, h.dstTouched, h.memory, h.outside, h.canonical⟩

/-- The status of a state may be set as well. -/
theorem Kept.setStatus {writes : Bool} {s t : State} (st : Status) (h : Kept writes s t) :
    Kept writes s { t with status := st } :=
  ⟨h.operands, h.cmd, h.events, h.readData, h.srcTouched, h.dstTouched, h.memory, h.outside, h.canonical⟩

/-- What raising a fault keeps (spec/60_exceptions.md R286). -/
theorem raise_kept (f : FaultCode) (writes : Bool) (s : State) : Kept writes s (raise f writes s) := by
  cases f
  · exact (Kept.refl writes s).setStatus _
  · exact (Kept.refl writes s).setStatus _
  · exact (freeOutputs_kept writes s).setStatus _
  · exact (freeOutputs_kept writes s).setStatus _

/-- What a completion with free outputs keeps. -/
theorem completeFree_kept (writes : Bool) (s : State) : Kept writes s (completeFree writes s) :=
  (freeOutputs_kept writes s).setStatus _

/-- What a completion keeps, when the output fits. -/
theorem complete_kept (writes : Bool) (o : Output) (s : State) (hfit : o.bytes.length ≤ s.operands.dstCap.toNat)
    (hnone : writes = false → o.bytes = [])
    (hvalid : writes = true → s.operands.dstBase.toNat + s.operands.dstCap.toNat ≤ addressLimit) :
    Kept writes s (complete o s) := by
  constructor
  case memory =>
    intro h
    rw [complete_mem, hnone h, writeBytes_nil]
  case outside => exact fun a ha => read_writeDst_outside s _ hfit a ha
  case canonical =>
    intro h
    rw [complete_mem]
    cases writes
    · rw [hnone rfl, writeBytes_nil]; exact h
    · exact wf_writeBytes (by have := hvalid rfl; omega) h
  all_goals rfl

/-! ### The outcomes the rules leave free -/

/-- Everything a malformed input can lead to (spec/60_exceptions.md R288). -/
theorem malformedOutcome_cases (writes : Bool) (need : Nat) (s : State) :
    ∃ t : State, t = { s with draws := s.draws + 1 } ∧
      (malformedOutcome writes need s = raise .srcBounds writes t ∨
       (writes = true ∧ s.operands.dstCap.toNat < need ∧
        malformedOutcome writes need s = raise .dstCapacity writes t) ∨
       ((writes = false ∨ need ≤ s.operands.dstCap.toNat) ∧
        malformedOutcome writes need s = completeFree writes t)) := by
  refine ⟨_, rfl, ?_⟩
  simp only [malformedOutcome]
  split
  · exact .inl rfl
  · split
    · rename_i h
      exact .inr (.inl ⟨h.1, h.2, rfl⟩)
    · rename_i h
      refine .inr (.inr ⟨?_, rfl⟩)
      cases writes
      · exact .inl rfl
      · exact .inr (by simpa using h)

/-- What a malformed input keeps. -/
theorem malformedOutcome_kept (writes : Bool) (need : Nat) (s : State) :
    Kept writes s (malformedOutcome writes need s) := by
  obtain ⟨t, rfl, h | ⟨_, _, h⟩ | ⟨_, h⟩⟩ := malformedOutcome_cases writes need s <;> rw [h]
  · exact (raise_kept _ _ _).of_free
  · exact (raise_kept _ _ _).of_free
  · exact (completeFree_kept _ _).of_free

/-- Everything a non-monotone array can lead to at `EF_ENC` (spec/60_exceptions.md R289). -/
theorem contractOutcome_cases (need : Nat) (s : State) :
    contractOutcome need s = raise .dstCapacity true { s with draws := s.draws + 1 } ∨
    ∃ dstEnd rseed : Word, dstEnd.toNat ≤ s.operands.dstCap.toNat ∧
      contractOutcome need s =
        { freeDstWindow { s with draws := s.draws + 3 } with
          results := { srcEnd := resultOfNat need, dstEnd := dstEnd, rseed := rseed }
          status := .done } := by
  simp only [contractOutcome]
  split
  · exact .inl rfl
  · refine .inr ⟨_, _, ?_, rfl⟩
    have h1 : ∀ x : Nat, x % (s.operands.dstCap.toNat + 1) < 2 ^ 64 := by
      intro x
      have : x % (s.operands.dstCap.toNat + 1) < s.operands.dstCap.toNat + 1 := Nat.mod_lt x (Nat.succ_pos _)
      have := s.operands.dstCap.isLt
      omega
    rw [resultOfNat, BitVec.toNat_ofNat, Nat.mod_eq_of_lt (h1 _)]
    exact Nat.lt_succ_iff.mp (Nat.mod_lt _ (Nat.succ_pos _))

/-- What a non-monotone array at `EF_ENC` keeps. -/
theorem contractOutcome_kept (need : Nat) (s : State) : Kept true s (contractOutcome need s) := by
  obtain h | ⟨_, _, _, h⟩ := contractOutcome_cases need s <;> rw [h]
  · exact (raise_kept _ _ _).of_free
  · constructor
    case memory => intro h; cases h
    case outside => exact fun a ha => freeDstWindow_outside { s with draws := _ } a ha
    case canonical => exact fun h => wf_freeDstWindow (s := { s with draws := _ }) h
    all_goals rfl

/-- Everything a touched source window can lead to (spec/70_reset_and_hazards.md R316). -/
theorem touchedOutcome_cases (writes : Bool) (s : State) :
    ∃ t : State, t = { s with draws := s.draws + 2 } ∧
      (touchedOutcome writes s = completeFree writes t ∨
       (writes = true ∧ touchedOutcome writes s = raise .dstCapacity writes t) ∨
       touchedOutcome writes s = raise .srcBounds writes t) := by
  refine ⟨_, rfl, ?_⟩
  simp only [touchedOutcome]
  split
  · exact .inl rfl
  · split
    · rename_i h
      exact .inr (.inl ⟨h.1, rfl⟩)
    · exact .inr (.inr rfl)

/-- What a touched source window keeps. -/
theorem touchedOutcome_kept (writes : Bool) (s : State) : Kept writes s (touchedOutcome writes s) := by
  obtain ⟨t, rfl, h | ⟨_, h⟩ | h⟩ := touchedOutcome_cases writes s <;> rw [h]
  · exact (completeFree_kept _ _).of_free
  · exact (raise_kept _ _ _).of_free
  · exact (raise_kept _ _ _).of_free

/-- Freeing listed bytes changes memory at those addresses and the count of draws, nothing else. -/
theorem freeTouched_frame (as : List Nat) (s : State) :
    ∃ m d, freeTouched as s = { s with mem := m, draws := d } ∧ (∀ x, x ∉ as → m.read x = s.mem.read x) ∧
      ((∀ a ∈ as, a < addressLimit) → s.mem.wf = true → m.wf = true) := by
  induction as generalizing s with
  | nil => exact ⟨s.mem, s.draws, rfl, fun _ _ => rfl, fun _ h => h⟩
  | cons a as ih =>
    obtain ⟨m, d, he, hr, hw⟩ := ih { s with mem := s.mem.write a (Config.freeByte s.draws), draws := s.draws + 1 }
    refine ⟨m, d, he, ?_, ?_⟩
    · intro x hx
      simp only [List.mem_cons, not_or] at hx
      rw [hr x hx.2, read_write_other _ _ _ _ hx.1]
    · intro hlt hm
      simp only [List.mem_cons, forall_eq_or_imp] at hlt
      exact hw hlt.2 (wf_write hlt.1 hm)

/-! ### The shape every command runs in -/

/-- Everything the execute step of a decoded command can do (spec/10_state.md R45). -/
theorem runCommand_cases (i : Instr) (rule : Except Stop Output) (s : State) :
    (argFault i s.operands = true ∧ runCommand i rule s = raise .arg (writesMem i) s) ∨
    (argFault i s.operands = false ∧
      ((∃ o, rule = .ok o ∧ s.operands.dstCap.toNat < o.bytes.length ∧
          runCommand i rule s = raise .dstCapacity (writesMem i) s) ∨
       (∃ o, rule = .ok o ∧ o.bytes.length ≤ s.operands.dstCap.toNat ∧ runCommand i rule s = complete o s) ∨
       (rule = .error .srcBounds ∧ runCommand i rule s = raise .srcBounds (writesMem i) s) ∨
       (rule = .error .malformed ∧
          runCommand i rule s = malformedOutcome (writesMem i) (count s * (widthOfInstr i).bytes) s) ∨
       (rule = .error .contract ∧ runCommand i rule s = contractOutcome (count s * (widthOfInstr i).bytes) s))) := by
  unfold runCommand
  cases argFault i s.operands with
  | true => exact .inl ⟨rfl, rfl⟩
  | false =>
    refine .inr ⟨rfl, ?_⟩
    match rule with
    | .ok o =>
      by_cases hc : s.operands.dstCap.toNat < o.bytes.length
      · exact .inl ⟨o, rfl, hc, by simp [hc]⟩
      · exact .inr (.inl ⟨o, rfl, by omega, by simp [hc]⟩)
    | .error .srcBounds => exact .inr (.inr (.inl ⟨rfl, rfl⟩))
    | .error .malformed => exact .inr (.inr (.inr (.inl ⟨rfl, rfl⟩)))
    | .error .contract => exact .inr (.inr (.inr (.inr ⟨rfl, rfl⟩)))

/-- The argument checks leave a writing command with a window that exists. -/
theorem dstValid_of_argFault {i : Instr} {o : OperandRegs} (h : argFault i o = false) (hw : writesMem i = true) :
    o.dstBase.toNat + o.dstCap.toNat ≤ addressLimit := by
  simp only [argFault, hw, windowWraps, Bool.or_eq_false_iff, Bool.true_and, decide_eq_false_iff_not] at h
  omega

/-- The argument checks leave a reading command with a window that exists. -/
theorem srcValid_of_argFault {i : Instr} {o : OperandRegs} (h : argFault i o = false) (hr : readsMem i = true) :
    o.srcBase.toNat + o.srcLen.toNat ≤ addressLimit := by
  simp only [argFault, hr, windowWraps, Bool.or_eq_false_iff, Bool.true_and, decide_eq_false_iff_not] at h
  omega

end Sys2Proof.Machine
end

