-- ==== Sys2Proof/Laws/PerInstr.lean ====
section
/-! SUPPORT. Statements about every constructor of Instr, one lemma per constructor. -/

namespace Sys2Proof.Laws.EncodedOp

/-- The number in column `OP` of spec/30_encoding.md R103. -/
def opNumber : Instr → Nat
  | .bitw _ => 0x01
  | .blkbitw _ => 0x02
  | .vblen _ => 0x03
  | .vbvlen => 0x04
  | .xfFwd _ _ => 0x05
  | .xfInv _ _ => 0x06
  | .bpPack _ _ _ => 0x07
  | .bpUnpack _ _ _ => 0x08
  | .pfSelw _ _ => 0x09
  | .vbEnc _ _ => 0x0A
  | .vbDec _ _ => 0x0B
  | .vbGetx _ _ => 0x0C
  | .vbGeteq _ _ => 0x0D
  | .vbGetgeq _ _ => 0x0E
  | .tbEnc _ _ _ _ => 0x0F
  | .tbDec _ _ _ _ => 0x10
  | .tbGetx _ _ _ _ => 0x11
  | .tbGeteq _ _ _ _ => 0x12
  | .tbGetgeq _ _ _ _ => 0x13
  | .pfEnc _ _ _ _ => 0x14
  | .pfDec _ _ _ _ => 0x15
  | .pfGetx _ _ _ _ => 0x16
  | .pfGeteq _ _ _ _ => 0x17
  | .pfGetgeq _ _ _ _ => 0x18
  | .efEnc _ _ _ _ => 0x19
  | .efDec _ _ _ _ => 0x1A
  | .efGetx _ _ _ _ => 0x1B
  | .efGeteq _ _ _ _ => 0x1C
  | .efGetgeq _ _ _ _ => 0x1D

/-- The encoding of a command has its number of R103 in bits 4:0 and zeros in bits 31:29 (R101, R105 check 1). -/
def Statement (i : Instr) : Prop :=
  (∀ k, k < 5 → (encode i).getLsbD k = (opNumber i).testBit k) ∧
  ∀ k, 29 ≤ k → k < 32 → (encode i).getLsbD k = false

/-- The two field groups of an encoded command, from its raw fields. -/
theorem statement_of_fields (i : Instr) (n : BitVec 5) (hop : (fieldsOfInstr i).op = n)
    (hrsv : (fieldsOfInstr i).rsv = 0#3) (hn : opNumber i = n.toNat) : Statement i := by
  constructor
  · intro k hk
    rw [encode, getLsbD_wordOf, if_pos hk, hop, hn]
    rfl
  · intro k hlo _
    rw [encode, getLsbD_wordOf, hrsv]
    simp only [show ¬ k < 5 by omega, show ¬ k < 7 by omega, show ¬ k < 10 by omega, show ¬ k < 12 by omega,
      show ¬ k < 20 by omega, show ¬ k < 22 by omega, show ¬ k < 29 by omega, if_false, BitVec.getLsbD_zero]

theorem bitw (ws : Width) : Statement (.bitw ws) := statement_of_fields _ 0x01#5 rfl rfl rfl
theorem blkbitw (ws : Width) : Statement (.blkbitw ws) := statement_of_fields _ 0x02#5 rfl rfl rfl
theorem vblen (ws : Width) : Statement (.vblen ws) := statement_of_fields _ 0x03#5 rfl rfl rfl
theorem vbvlen : Statement .vbvlen := statement_of_fields _ 0x04#5 rfl rfl rfl
theorem xfFwd (ws : Width) (tr : Transform) : Statement (.xfFwd ws tr) := statement_of_fields _ 0x05#5 rfl rfl rfl
theorem xfInv (ws : Width) (tr : Transform) : Statement (.xfInv ws tr) := statement_of_fields _ 0x06#5 rfl rfl rfl
theorem bpPack (ws : Width) (lane : Lane) (pw : PackField) : Statement (.bpPack ws lane pw) := statement_of_fields _ 0x07#5 rfl rfl rfl
theorem bpUnpack (ws : Width) (lane : Lane) (pw : PackField) : Statement (.bpUnpack ws lane pw) := statement_of_fields _ 0x08#5 rfl rfl rfl
theorem pfSelw (ws : Width) (bm1 : BlockField) : Statement (.pfSelw ws bm1) := statement_of_fields _ 0x09#5 rfl rfl rfl
theorem vbEnc (ws : Width) (tr : Transform) : Statement (.vbEnc ws tr) := statement_of_fields _ 0x0A#5 rfl rfl rfl
theorem vbDec (ws : Width) (tr : Transform) : Statement (.vbDec ws tr) := statement_of_fields _ 0x0B#5 rfl rfl rfl
theorem vbGetx (ws : Width) (tr : Transform) : Statement (.vbGetx ws tr) := statement_of_fields _ 0x0C#5 rfl rfl rfl
theorem vbGeteq (ws : Width) (tr : Transform) : Statement (.vbGeteq ws tr) := statement_of_fields _ 0x0D#5 rfl rfl rfl
theorem vbGetgeq (ws : Width) (tr : Transform) : Statement (.vbGetgeq ws tr) := statement_of_fields _ 0x0E#5 rfl rfl rfl
theorem tbEnc (ws : Width) (tr : Transform) (lane : Lane) (gs : GroupSize) : Statement (.tbEnc ws tr lane gs) := statement_of_fields _ 0x0F#5 rfl rfl rfl
theorem tbDec (ws : Width) (tr : Transform) (lane : Lane) (gs : GroupSize) : Statement (.tbDec ws tr lane gs) := statement_of_fields _ 0x10#5 rfl rfl rfl
theorem tbGetx (ws : Width) (tr : Transform) (lane : Lane) (gs : GroupSize) : Statement (.tbGetx ws tr lane gs) := statement_of_fields _ 0x11#5 rfl rfl rfl
theorem tbGeteq (ws : Width) (tr : Transform) (lane : Lane) (gs : GroupSize) : Statement (.tbGeteq ws tr lane gs) := statement_of_fields _ 0x12#5 rfl rfl rfl
theorem tbGetgeq (ws : Width) (tr : Transform) (lane : Lane) (gs : GroupSize) : Statement (.tbGetgeq ws tr lane gs) := statement_of_fields _ 0x13#5 rfl rfl rfl
theorem pfEnc (ws : Width) (tr : Transform) (lane : Lane) (bm1 : BlockField) : Statement (.pfEnc ws tr lane bm1) := statement_of_fields _ 0x14#5 rfl rfl rfl
theorem pfDec (ws : Width) (tr : Transform) (lane : Lane) (bm1 : BlockField) : Statement (.pfDec ws tr lane bm1) := statement_of_fields _ 0x15#5 rfl rfl rfl
theorem pfGetx (ws : Width) (tr : Transform) (lane : Lane) (bm1 : BlockField) : Statement (.pfGetx ws tr lane bm1) := statement_of_fields _ 0x16#5 rfl rfl rfl
theorem pfGeteq (ws : Width) (tr : Transform) (lane : Lane) (bm1 : BlockField) : Statement (.pfGeteq ws tr lane bm1) := statement_of_fields _ 0x17#5 rfl rfl rfl
theorem pfGetgeq (ws : Width) (tr : Transform) (lane : Lane) (bm1 : BlockField) : Statement (.pfGetgeq ws tr lane bm1) := statement_of_fields _ 0x18#5 rfl rfl rfl
theorem efEnc (ws : Width) (tr : Transform) (lane : Lane) (bm1 : BlockField) : Statement (.efEnc ws tr lane bm1) := statement_of_fields _ 0x19#5 rfl rfl rfl
theorem efDec (ws : Width) (tr : Transform) (lane : Lane) (bm1 : BlockField) : Statement (.efDec ws tr lane bm1) := statement_of_fields _ 0x1A#5 rfl rfl rfl
theorem efGetx (ws : Width) (tr : Transform) (lane : Lane) (bm1 : BlockField) : Statement (.efGetx ws tr lane bm1) := statement_of_fields _ 0x1B#5 rfl rfl rfl
theorem efGeteq (ws : Width) (tr : Transform) (lane : Lane) (bm1 : BlockField) : Statement (.efGeteq ws tr lane bm1) := statement_of_fields _ 0x1C#5 rfl rfl rfl
theorem efGetgeq (ws : Width) (tr : Transform) (lane : Lane) (bm1 : BlockField) : Statement (.efGetgeq ws tr lane bm1) := statement_of_fields _ 0x1D#5 rfl rfl rfl

end Sys2Proof.Laws.EncodedOp
end

