-- ==== Sys2Proof/Laws/Rules.lean ====
section
/-! SUPPORT. What the commands' rules can answer, as far as the shape every command runs in needs it: which
rules give bytes, and that only the Elias-Fano encoder meets a contract violation. -/

namespace Sys2Proof.Machine

/-! ### No decoder stops on the encoder contract -/

/-- Reads of the source window never stop on the encoder contract. -/
theorem srcRead_ne_contract (v : Src) (off k : Nat) : srcRead v off k ≠ .error .contract := by
  rw [Ne, srcRead_eq_error]
  rintro ⟨_, h⟩
  cases h

/-- Nor do reads of a whole array. -/
theorem srcElements_ne_contract (v : Src) (w n : Nat) : srcElements v w n ≠ .error .contract := by
  rw [Ne, srcElements_eq_error]
  rintro ⟨_, h⟩
  cases h

/-- The scan for the end of a VByte value stops only with `srcBounds`. -/
theorem vbScan_error (v : Src) (fuel pos : Nat) (e : Stop) (h : vbScan v fuel pos = .error e) : e = .srcBounds := by
  induction fuel generalizing pos with
  | zero => cases h; rfl
  | succ fuel ih =>
    unfold vbScan at h
    split at h
    · cases h
      exact ((srcRead_eq_error _ _ _ _).mp ‹_›).2
    · split at h
      · cases h
      · split at h
        · cases h
          exact ih _ ‹_›
        · cases h

theorem vbGet_ne_contract (v : Src) (w pos : Nat) : vbGet v w pos ≠ .error .contract := by
  unfold vbGet
  split
  · rename_i e h
    intro g
    cases g
    cases vbScan_error _ _ _ _ h
  · split <;> intro g <;> cases g

theorem vbGetAll_ne_contract (v : Src) (w n pos : Nat) : vbGetAll v w n pos ≠ .error .contract := by
  induction n generalizing pos with
  | zero => intro h; cases h
  | succ n ih =>
    unfold vbGetAll
    split
    · rename_i h
      intro g
      cases g
      exact vbGet_ne_contract _ _ _ h
    · split
      · rename_i h
        intro g
        cases g
        exact ih _ h
      · intro g; cases g

theorem vbDecode_ne_contract (w : Nat) (tr : Transform) (s : State) (m : Nat) :
    vbDecode w tr s m ≠ .error .contract := by
  unfold vbDecode
  split
  · rename_i h
    intro g
    cases g
    exact vbGetAll_ne_contract _ _ _ _ h
  · intro g; cases g

theorem tbPayloads_ne_contract (v : Src) (w : Nat) (cs : List Nat) (pos : Nat) :
    tbPayloads v w cs pos ≠ .error .contract := by
  induction cs generalizing pos with
  | nil => intro h; cases h
  | cons c cs ih =>
    unfold tbPayloads
    split
    · intro g; cases g
    · split
      · rename_i h
        intro g
        cases g
        exact srcRead_ne_contract _ _ _ h
      · split
        · rename_i h
          intro g
          cases g
          exact ih _ h
        · intro g; cases g

theorem tbGroups_ne_contract (v : Src) (w g groups left pos : Nat) :
    tbGroups v w g groups left pos ≠ .error .contract := by
  induction groups generalizing left pos with
  | zero => intro h; cases h
  | succ groups ih =>
    unfold tbGroups
    split
    · rename_i h
      intro g
      cases g
      exact srcRead_ne_contract _ _ _ h
    · split
      · rename_i h
        intro g
        cases g
        exact tbPayloads_ne_contract _ _ _ _ h
      · split
        · rename_i h
          intro g
          cases g
          exact ih _ _ h
        · intro g; cases g

theorem tbDecode_ne_contract (w : Nat) (tr : Transform) (g : Nat) (s : State) (m : Nat) :
    tbDecode w tr g s m ≠ .error .contract := by
  unfold tbDecode
  split
  · rename_i h
    intro g
    cases g
    exact tbGroups_ne_contract _ _ _ _ _ _ h
  · intro g; cases g

theorem pfPatch_ne_contract (bk next : Nat) (ex : List (Nat × Nat)) (d : List Nat) :
    pfPatch bk next ex d ≠ .error .contract := by
  induction ex generalizing next d with
  | nil => intro h; cases h
  | cons x ex ih =>
    unfold pfPatch
    split
    · intro g; cases g
    · exact ih _ _

theorem pfUnblock_ne_contract (v : Src) (w b bk pos : Nat) : pfUnblock v w b bk pos ≠ .error .contract := by
  intro h
  simp only [pfUnblock] at h
  split at h
  · cases h
    exact srcRead_ne_contract _ _ _ ‹_›
  · split at h
    · cases h
      exact srcRead_ne_contract _ _ _ ‹_›
    · split at h
      · cases h
      · split at h
        · cases h
          exact srcRead_ne_contract _ _ _ ‹_›
        · split at h
          · cases h
            exact srcRead_ne_contract _ _ _ ‹_›
          · split at h
            · cases h
              exact srcRead_ne_contract _ _ _ ‹_›
            · split at h
              · cases h
                exact pfPatch_ne_contract _ _ _ _ ‹_›
              · cases h

theorem pfBlocks_ne_contract (v : Src) (w b blocks left pos : Nat) :
    pfBlocks v w b blocks left pos ≠ .error .contract := by
  induction blocks generalizing left pos with
  | zero => intro h; cases h
  | succ blocks ih =>
    unfold pfBlocks
    split
    · rename_i h
      intro g
      cases g
      exact pfUnblock_ne_contract _ _ _ _ _ h
    · split
      · rename_i h
        intro g
        cases g
        exact ih _ _ h
      · intro g; cases g

theorem pfDecode_ne_contract (w : Nat) (tr : Transform) (b : Nat) (s : State) (m : Nat) :
    pfDecode w tr b s m ≠ .error .contract := by
  unfold pfDecode
  split
  · rename_i h
    intro g
    cases g
    exact pfBlocks_ne_contract _ _ _ _ _ _ h
  · intro g; cases g

theorem efUnblock_ne_contract (v : Src) (w bk pos : Nat) : efUnblock v w bk pos ≠ .error .contract := by
  intro h
  simp only [efUnblock] at h
  split at h
  · cases h
    exact srcRead_ne_contract _ _ _ ‹_›
  · split at h
    · cases h
      exact srcRead_ne_contract _ _ _ ‹_›
    · split at h
      · cases h
        exact srcRead_ne_contract _ _ _ ‹_›
      · split at h <;> cases h

theorem efBlocks_ne_contract (v : Src) (w st b blocks left : Nat) (p : BitVec w) (pos : Nat) :
    efBlocks v w st b blocks left p pos ≠ .error .contract := by
  induction blocks generalizing left p pos with
  | zero => intro h; cases h
  | succ blocks ih =>
    intro h
    simp only [efBlocks] at h
    split at h
    · cases h
      exact efUnblock_ne_contract _ _ _ _ ‹_›
    · split at h
      · cases h
        exact ih _ _ _ ‹_›
      · cases h

theorem efDecode_ne_contract (w : Nat) (tr : Transform) (b : Nat) (s : State) (m : Nat) :
    efDecode w tr b s m ≠ .error .contract := by
  unfold efDecode
  split
  · rename_i h
    intro g
    cases g
    exact efBlocks_ne_contract _ _ _ _ _ _ _ _ h
  · intro g; cases g

/-! ### The rules -/

/-- A rule that gives no bytes and meets no contract violation. -/
structure Silent (rule : Except Stop Output) : Prop where
  noBytes : ∀ o, rule = .ok o → o.bytes = []
  noContract : rule ≠ .error .contract

theorem getxRule_silent {w : Nat} (decoder : Nat → Except Stop (Decoded w)) (unit : Nat) (s : State)
    (hd : ∀ m, decoder m ≠ .error .contract) : Silent (getxRule decoder unit s) := by
  unfold getxRule
  split
  · rename_i e h
    refine ⟨fun o g => (by cases g), fun g => ?_⟩
    cases g
    exact hd _ h
  · exact ⟨fun o g => by cases g; rfl, fun g => by cases g⟩

theorem searchFrom_ne_contract {w : Nat} (decoder : Nat → Except Stop (Decoded w)) (unit n : Nat)
    (hit : BitVec w → Bool) (fuel i : Nat) (hd : ∀ m, decoder m ≠ .error .contract) :
    searchFrom decoder unit n hit fuel i ≠ .error .contract := by
  induction fuel generalizing i with
  | zero => intro h; cases h
  | succ fuel ih =>
    unfold searchFrom
    split
    · split
      · rename_i h
        intro g
        cases g
        exact hd _ h
      · split
        · intro g; cases g
        · exact ih _
    · intro g; cases g

theorem searchRule_silent {w : Nat} (decoder : Nat → Except Stop (Decoded w)) (unit : Nat)
    (hit : BitVec w → Bool) (s : State) (hd : ∀ m, decoder m ≠ .error .contract) :
    Silent (searchRule decoder unit hit s) := by
  unfold searchRule
  split
  · rename_i e h
    refine ⟨fun o g => (by cases g), fun g => ?_⟩
    cases g
    exact searchFrom_ne_contract _ _ _ _ _ _ hd h
  · exact ⟨fun o g => by cases g; rfl, fun g => by cases g⟩

theorem blkbitwRule_silent (w : Nat) (s : State) : Silent (blkbitwRule w s) := by
  unfold blkbitwRule
  split
  · rename_i e h
    refine ⟨fun o g => (by cases g), fun g => ?_⟩
    cases g
    exact srcElements_ne_contract _ _ _ h
  · exact ⟨fun o g => by cases g; rfl, fun g => by cases g⟩

theorem pfSelwRule_silent (w b : Nat) (s : State) : Silent (pfSelwRule w b s) := by
  unfold pfSelwRule
  split
  · rename_i e h
    refine ⟨fun o g => (by cases g), fun g => ?_⟩
    cases g
    exact srcElements_ne_contract _ _ _ h
  · exact ⟨fun o g => by cases g; rfl, fun g => by cases g⟩

theorem vbvlenRule_silent (s : State) : Silent (vbvlenRule s) := by
  unfold vbvlenRule
  split
  · rename_i e h
    refine ⟨fun o g => (by cases g), fun g => ?_⟩
    cases g
    cases vbScan_error _ _ _ _ h
  · exact ⟨fun o g => by cases g; rfl, fun g => by cases g⟩

/-! ### Every command -/

/-- Every arm of `exec` is one `runCommand`. Its rule is silent for a command that writes no memory, and only a
command that writes memory meets a contract violation. -/
theorem exec_eq_runCommand (i : Instr) (s : State) :
    ∃ rule, exec i s = .next (runCommand i rule s) ∧ (writesMem i = false → Silent rule) := by
  cases i
  case bitw ws => exact ⟨_, rfl, fun _ => ⟨fun o g => by cases g; rfl, fun g => by cases g⟩⟩
  case vblen ws => exact ⟨_, rfl, fun _ => ⟨fun o g => by cases g; rfl, fun g => by cases g⟩⟩
  case blkbitw ws => exact ⟨_, rfl, fun _ => blkbitwRule_silent _ _⟩
  case vbvlen => exact ⟨_, rfl, fun _ => vbvlenRule_silent _⟩
  case pfSelw ws bm1 => exact ⟨_, rfl, fun _ => pfSelwRule_silent _ _ _⟩
  case vbGetx ws tr => exact ⟨_, rfl, fun _ => getxRule_silent _ _ _ (vbDecode_ne_contract _ _ _)⟩
  case vbGeteq ws tr => exact ⟨_, rfl, fun _ => searchRule_silent _ _ _ _ (vbDecode_ne_contract _ _ _)⟩
  case vbGetgeq ws tr => exact ⟨_, rfl, fun _ => searchRule_silent _ _ _ _ (vbDecode_ne_contract _ _ _)⟩
  case tbGetx ws tr lane gs => exact ⟨_, rfl, fun _ => getxRule_silent _ _ _ (tbDecode_ne_contract _ _ _ _)⟩
  case tbGeteq ws tr lane gs => exact ⟨_, rfl, fun _ => searchRule_silent _ _ _ _ (tbDecode_ne_contract _ _ _ _)⟩
  case tbGetgeq ws tr lane gs => exact ⟨_, rfl, fun _ => searchRule_silent _ _ _ _ (tbDecode_ne_contract _ _ _ _)⟩
  case pfGetx ws tr lane bm1 => exact ⟨_, rfl, fun _ => getxRule_silent _ _ _ (pfDecode_ne_contract _ _ _ _)⟩
  case pfGeteq ws tr lane bm1 => exact ⟨_, rfl, fun _ => searchRule_silent _ _ _ _ (pfDecode_ne_contract _ _ _ _)⟩
  case pfGetgeq ws tr lane bm1 => exact ⟨_, rfl, fun _ => searchRule_silent _ _ _ _ (pfDecode_ne_contract _ _ _ _)⟩
  case efGetx ws tr lane bm1 => exact ⟨_, rfl, fun _ => getxRule_silent _ _ _ (efDecode_ne_contract _ _ _ _)⟩
  case efGeteq ws tr lane bm1 => exact ⟨_, rfl, fun _ => searchRule_silent _ _ _ _ (efDecode_ne_contract _ _ _ _)⟩
  case efGetgeq ws tr lane bm1 => exact ⟨_, rfl, fun _ => searchRule_silent _ _ _ _ (efDecode_ne_contract _ _ _ _)⟩
  all_goals exact ⟨_, rfl, fun h => by cases h⟩

/-- Every end of a command keeps what `Kept` lists. -/
theorem runCommand_kept (i : Instr) (rule : Except Stop Output) (s : State)
    (hs : writesMem i = false → Silent rule) : Kept (writesMem i) s (runCommand i rule s) := by
  rcases runCommand_cases i rule s with ⟨_, h⟩ | ⟨hok, ⟨o, _, _, h⟩ | ⟨o, ho, hfit, h⟩ | ⟨_, h⟩ | ⟨_, h⟩ | ⟨hc, h⟩⟩ <;>
    rw [h]
  · exact raise_kept _ _ _
  · exact raise_kept _ _ _
  · exact complete_kept _ _ _ hfit (fun hw => (hs hw).noBytes o ho) (dstValid_of_argFault hok)
  · exact raise_kept _ _ _
  · exact malformedOutcome_kept _ _ _
  · cases hw : writesMem i
    · exact absurd hc (hs hw).noContract
    · exact contractOutcome_kept _ _

end Sys2Proof.Machine
end

