-- ==== Sys2Proof/Tests/Slice0.lean ====
section
/-! SUPPORT. Tests: the well-formedness smoke, command words written out of the spec, single steps on the
vectors of spec/95_test_vectors.md (A1 to Y8 name its rows), and for every statement with hypotheses a
witness that meets them. Expected values come from the spec's tables. -/

set_option Elab.async false

namespace Sys2Proof.Tests

open Sys2Proof Sys2Proof.Machine

/-! ### Well-formedness: each check refuses an ill-formed command -/

/-- Check 6: `PW > W`. -/
theorem test_pw_above_width_refused :
    wellFormed (.bpPack .w8 .scalar 9#7) = false ∧ wellFormed (.bpUnpack .w64 .scalar 65#7) = false ∧
    wellFormed (.bpPack .w64 .scalar 64#7) = true := by decide

/-- Check 7: `W = 64`; `LANE` 1 or 2 with `W = 8`; `LANE = 1` with `G = 8`; `LANE = 2` with `G = 4`. -/
theorem test_turbo_combinations_refused :
    wellFormed (.tbEnc .w64 .ident .scalar .g4) = false ∧ wellFormed (.tbDec .w8 .ident .lane128 .g4) = false ∧
    wellFormed (.tbGetx .w32 .ident .lane128 .g8) = false ∧ wellFormed (.tbGeteq .w32 .ident .lane256 .g4) = false ∧
    wellFormed (.tbGetgeq .w8 .ident .lane256 .g8) = false ∧ wellFormed (.tbEnc .w16 .ident .lane256 .g32) = true := by
  decide

/-- Check 8: `W` 8 or 16; a transform other than `DELTA` and `DELTA1`. -/
theorem test_elias_fano_combinations_refused :
    wellFormed (.efEnc .w16 .delta .scalar 7#8) = false ∧ wellFormed (.efDec .w32 .ident .scalar 7#8) = false ∧
    wellFormed (.efGetx .w32 .zigzag .scalar 7#8) = false ∧ wellFormed (.efGeteq .w8 .delta .scalar 7#8) = false ∧
    wellFormed (.efGetgeq .w64 .delta1 .lane256 255#8) = true := by decide

/-! ### Decoding: words written out of spec/30_encoding.md R101 and spec/95_test_vectors.md -/

/-- One word a family bit by bit, `rsv|PW|GS|BM1|LANE|TR|WS|OP`: `bitw w32`, `xf.fwd w32 ddelta`,
`bp.pack w16 lane=256 pw=9`, `pf.enc w32 delta b=6`, `vb.enc w32 delta`, `tb.enc w32 g=8 lane=256`,
`ef.enc w32 delta1 b=256 lane=256`, `ef.getgeq w32 delta b=8`. -/
theorem test_decode_bit_by_bit :
    decode (0b000#3 ++ 0b0000000#7 ++ 0b00#2 ++ 0b00000000#8 ++ 0b00#2 ++ 0b000#3 ++ 0b10#2 ++ 0b00001#5) = .ok (.bitw .w32) ∧
    decode (0b000#3 ++ 0b0000000#7 ++ 0b00#2 ++ 0b00000000#8 ++ 0b00#2 ++ 0b100#3 ++ 0b10#2 ++ 0b00101#5) = .ok (.xfFwd .w32 .ddelta) ∧
    decode 0b00000010010000000000100000100111#32 = .ok (.bpPack .w16 .lane256 9#7) ∧
    decode 0b00000000000000000101000011010100#32 = .ok (.pfEnc .w32 .delta .scalar 5#8) ∧
    decode 0b00000000000000000000000011001010#32 = .ok (.vbEnc .w32 .delta) ∧
    decode 0b00000000000100000000100001001111#32 = .ok (.tbEnc .w32 .ident .lane256 .g8) ∧
    decode 0b00000000000011111111100101011001#32 = .ok (.efEnc .w32 .delta1 .lane256 255#8) ∧
    decode 0b00000000000000000111000011011101#32 = .ok (.efGetgeq .w32 .delta .scalar 7#8) :=
  ⟨rfl, rfl, rfl, rfl, rfl, rfl, rfl, rfl⟩

/-- A1, A2, A5, A7, A9, A14, A18; B2, B6 with `xf.inv`; C6, C7; F2: every command without a backend. -/
theorem test_decode_plain :
    decode 0x00000041#32 = .ok (.bitw .w32) ∧ decode 0x00000001#32 = .ok (.bitw .w8) ∧
    decode 0x00000021#32 = .ok (.bitw .w16) ∧ decode 0x00000061#32 = .ok (.bitw .w64) ∧
    decode 0x00000042#32 = .ok (.blkbitw .w32) ∧ decode 0x00000043#32 = .ok (.vblen .w32) ∧
    decode 0x00000004#32 = .ok .vbvlen ∧ decode 0x000000C5#32 = .ok (.xfFwd .w32 .delta) ∧
    decode 0x000002C5#32 = .ok (.xfFwd .w32 .xorPrev) ∧ decode 0x000000A6#32 = .ok (.xfInv .w16 .delta) ∧
    decode 0x02400827#32 = .ok (.bpPack .w16 .lane256 9#7) ∧
    decode 0x01000048#32 = .ok (.bpUnpack .w32 .scalar 4#7) ∧
    decode 0x0007F049#32 = .ok (.pfSelw .w32 127#8) :=
  ⟨rfl, rfl, rfl, rfl, rfl, rfl, rfl, rfl, rfl, rfl, rfl, rfl, rfl⟩

/-- D3, D7, H9, H11, H12; E3, E6, H13, H16, H18. -/
theorem test_decode_bytewise :
    decode 0x000001AA#32 = .ok (.vbEnc .w16 .zigzag) ∧ decode 0x000000CB#32 = .ok (.vbDec .w32 .delta) ∧
    decode 0x000000CC#32 = .ok (.vbGetx .w32 .delta) ∧ decode 0x000000CD#32 = .ok (.vbGeteq .w32 .delta) ∧
    decode 0x000000CE#32 = .ok (.vbGetgeq .w32 .delta) ∧
    decode 0x0000042F#32 = .ok (.tbEnc .w16 .ident .lane128 .g4) ∧
    decode 0x00000050#32 = .ok (.tbDec .w32 .ident .scalar .g4) ∧
    decode 0x00000051#32 = .ok (.tbGetx .w32 .ident .scalar .g4) ∧
    decode 0x00000052#32 = .ok (.tbGeteq .w32 .ident .scalar .g4) ∧
    decode 0x00000053#32 = .ok (.tbGetgeq .w32 .ident .scalar .g4) :=
  ⟨rfl, rfl, rfl, rfl, rfl, rfl, rfl, rfl, rfl, rfl⟩

/-- F14, S5, H19 to H21; G1, G10, H25, H28, H27. -/
theorem test_decode_blockwise :
    decode 0x0000F454#32 = .ok (.pfEnc .w32 .ident .lane128 15#8) ∧
    decode 0x000050D5#32 = .ok (.pfDec .w32 .delta .scalar 5#8) ∧
    decode 0x000050D6#32 = .ok (.pfGetx .w32 .delta .scalar 5#8) ∧
    decode 0x000050D7#32 = .ok (.pfGeteq .w32 .delta .scalar 5#8) ∧
    decode 0x000050D8#32 = .ok (.pfGetgeq .w32 .delta .scalar 5#8) ∧
    decode 0x000070D9#32 = .ok (.efEnc .w32 .delta .scalar 7#8) ∧
    decode 0x000070DA#32 = .ok (.efDec .w32 .delta .scalar 7#8) ∧
    decode 0x000070DB#32 = .ok (.efGetx .w32 .delta .scalar 7#8) ∧
    decode 0x000070DC#32 = .ok (.efGeteq .w32 .delta .scalar 7#8) ∧
    decode 0x000070DD#32 = .ok (.efGetgeq .w32 .delta .scalar 7#8) :=
  ⟨rfl, rfl, rfl, rfl, rfl, rfl, rfl, rfl, rfl, rfl⟩

/-- Section 11.1: every row's words are rejected, each by the name of a check it fails. -/
theorem test_decode_illegal_words :
    decode 0x00000000#32 = .error .reservedOp ∧ decode 0x0000001E#32 = .error .reservedOp ∧
    decode 0x0000001F#32 = .error .reservedOp ∧ decode 0x20000001#32 = .error .reservedBits ∧
    decode 0x80000001#32 = .error .reservedBits ∧ decode 0x00000081#32 = .error .unusedField ∧
    decode 0x00000401#32 = .error .unusedField ∧ decode 0x00001001#32 = .error .unusedField ∧
    decode 0x00100001#32 = .error .unusedField ∧ decode 0x00400001#32 = .error .unusedField ∧
    decode 0x00000024#32 = .error .unusedField ∧ decode 0x000010CA#32 = .error .unusedField ∧
    decode 0x0000044A#32 = .error .unusedField ∧ decode 0x00103054#32 = .error .unusedField ∧
    decode 0x00000345#32 = .error .reservedTransform ∧ decode 0x000003C5#32 = .error .reservedTransform ∧
    decode 0x01000C47#32 = .error .reservedLane :=
  ⟨rfl, rfl, rfl, rfl, rfl, rfl, rfl, rfl, rfl, rfl, rfl, rfl, rfl, rfl, rfl, rfl, rfl⟩

/-- Section 11.1, checks 6 to 8, and the legal neighbours it lists for contrast. -/
theorem test_decode_illegal_combinations :
    decode 0x02400007#32 = .error .illegalCombination ∧ decode 0x08400047#32 = .error .illegalCombination ∧
    decode 0x10400067#32 = .error .illegalCombination ∧ decode 0x0000006F#32 = .error .illegalCombination ∧
    decode 0x0000040F#32 = .error .illegalCombination ∧ decode 0x0010044F#32 = .error .illegalCombination ∧
    decode 0x0000084F#32 = .error .illegalCombination ∧ decode 0x000070B9#32 = .error .illegalCombination ∧
    decode 0x00007059#32 = .error .illegalCombination ∧ decode 0x000071D9#32 = .error .illegalCombination ∧
    decode 0x10000067#32 = .ok (.bpPack .w64 .scalar 64#7) ∧
    decode 0x0000044F#32 = .ok (.tbEnc .w32 .ident .lane128 .g4) ∧
    decode 0x0030082F#32 = .ok (.tbEnc .w16 .ident .lane256 .g32) ∧
    decode 0x0030000F#32 = .ok (.tbEnc .w8 .ident .scalar .g32) ∧
    decode 0x000FF179#32 = .ok (.efEnc .w64 .delta1 .scalar 255#8) :=
  ⟨rfl, rfl, rfl, rfl, rfl, rfl, rfl, rfl, rfl, rfl, rfl, rfl, rfl, rfl, rfl⟩

/-! ### One step on a small state -/

/-- The state of the vectors: source bytes at `0x1000`, destination window at `0x2000`, `N` elements. -/
def start (src : List Byte) (n dstCap : Nat) : State :=
  { State.reset with
    operands := { srcBase := 0x1000#64, srcLen := BitVec.ofNat 64 src.length, dstBase := 0x2000#64
                  dstCap := BitVec.ofNat 64 dstCap, n := BitVec.ofNat 64 n }
    mem := cellsAt 0x1000 src }

/-- The same with `SEED`, `INDEX` and `KEY`. -/
def startWith (src : List Byte) (n dstCap seed index key : Nat) : State :=
  let s := start src n dstCap
  { s with operands := { s.operands with
      seed := BitVec.ofNat 64 seed, index := BitVec.ofNat 64 index, key := BitVec.ofNat 64 key } }

/-- The state a step leads to. -/
def after (o : Host.Outcome State Fault Refusal) : State :=
  match o with
  | .next t => t
  | .fault _ => State.reset
  | .refused _ => State.reset

/-- One step of the machine on a command word: the end status, the five result registers, and the first
`k` destination bytes. -/
def ran (c : Nat) (s : State) (k : Nat) : Status × List Nat × List Nat :=
  let t := after (step (s.withFetchWord 32 c))
  (t.status, (resultList t.results).map BitVec.toNat,
    (bytesFrom t.mem.read s.operands.dstBase.toNat k).map BitVec.toNat)

/-- The 32-bit array `10,10,12,12,12,20` of the vectors. -/
def ten : List Byte :=
  [10, 0, 0, 0, 10, 0, 0, 0, 12, 0, 0, 0, 12, 0, 0, 0, 12, 0, 0, 0, 20, 0, 0, 0]

/-- The 32-bit array `3,4,7,13,14,15,21,43` of G1. -/
def fortyThree : List Byte :=
  [3, 0, 0, 0, 4, 0, 0, 0, 7, 0, 0, 0, 13, 0, 0, 0, 14, 0, 0, 0, 15, 0, 0, 0, 21, 0, 0, 0, 43, 0, 0, 0]

/-- The 32-bit array `1, 300, 70000, 0x01000000, 5` of E1. -/
def turbo : List Byte :=
  [1, 0, 0, 0, 0x2C, 1, 0, 0, 0x70, 0x11, 1, 0, 0, 0, 0, 1, 5, 0, 0, 0]

/-- The TurboByte buffer of E1. -/
def turboBuffer : List Byte := [0xE4, 1, 0x2C, 1, 0x70, 0x11, 1, 0, 0, 0, 1, 0, 5]

/-- The Elias-Fano buffer of G1. -/
def efBuffer : List Byte := [0x2B, 0, 0, 0, 0x73, 0xDE, 0xCD, 9, 2]

/-- A1, A4. -/
theorem test_bitw :
    ran 0x41 (startWith [] 0 0 0 0 300) 0 = (.done, [9, 0, 0, 0, 0], []) ∧
    ran 0x01 (startWith [] 0 0 0 0 0x100) 0 = (.done, [0, 0, 0, 0, 0], []) := by decide +kernel

/-- A9, with A13. -/
theorem test_blkbitw :
    ran 0x42 (start [10, 0, 0, 0, 0, 0, 0, 0, 2, 0, 0, 0, 0, 0, 0, 0, 0, 0, 0, 0, 8, 0, 0, 0] 6 0) 0 =
      (.done, [4, 24, 0, 0, 0], []) ∧
    (ran 0x42 (start [1, 0, 0, 0] 2 0) 0).1 = .fault .srcBounds := by decide +kernel

/-- A14, A15. -/
theorem test_vblen :
    ran 0x43 (startWith [] 0 0 0 0 16384) 0 = (.done, [3, 0, 0, 0, 0], []) ∧
    ran 0x63 (startWith [] 0 0 0 0 (2 ^ 63)) 0 = (.done, [10, 0, 0, 0, 0], []) := by decide +kernel

/-- A18, A21. -/
theorem test_vbvlen :
    ran 0x04 (start [0xAC, 2, 5] 0 0) 0 = (.done, [2, 2, 0, 0, 0], []) ∧
    (ran 0x04 (start [0x80, 0x80] 0 0) 0).1 = .fault .srcBounds := by decide +kernel

/-- B5, B10. -/
theorem test_xf_fwd :
    ran 0x245 (start ten 6 24) 24 =
      (.done, [0, 24, 24, 20, 8],
        [10, 0, 0, 0, 0xF6, 0xFF, 0xFF, 0xFF, 2, 0, 0, 0, 0xFE, 0xFF, 0xFF, 0xFF, 0, 0, 0, 0, 8, 0, 0, 0]) ∧
    ran 0x185 (startWith [5, 3, 0xFA, 0] 4 4 7 0 0) 4 = (.done, [0, 4, 4, 0, 0], [3, 3, 0x11, 0x0C]) := by
  decide +kernel

/-- B8, B11 read backwards (R166). -/
theorem test_xf_inv :
    ran 0x86 (startWith [0xFE, 0xFE, 0xF7, 6] 4 4 7 0 0) 4 = (.done, [0, 4, 4, 0, 0], [5, 3, 0xFA, 0]) ∧
    ran 0x206 (startWith [0xFE, 0, 0xF9, 0x0F] 4 4 7 0 0) 4 = (.done, [0, 4, 4, 0, 6], [5, 3, 0xFA, 0]) := by
  decide +kernel

/-- C6, C3. -/
theorem test_bp_pack :
    ran 0x2400827 (start [0xFF, 1, 1, 0, 0x55, 1] 3 4) 4 = (.done, [0, 6, 4, 0, 0], [0xFF, 3, 0x54, 5]) ∧
    ran 0x1000007 (start [0xFF, 0x12] 2 1) 1 = (.done, [0, 2, 1, 0, 0], [0x2F]) := by decide +kernel

/-- C8 with a padding bit set, C10. -/
theorem test_bp_unpack :
    ran 0xC00008 (start [0xD1, 0xD8] 5 5) 5 = (.done, [0, 2, 5, 0, 0], [1, 2, 3, 4, 5]) ∧
    (ran 0x1000048 (start [0x0A, 2] 6 24) 0).1 = .fault .srcBounds := by decide +kernel

/-- F5, F8. -/
theorem test_pf_selw :
    ran 0x3009 (start [1, 1, 1, 200] 4 0) 0 = (.done, [0x101, 4, 0, 0, 0], []) ∧
    (ran 0x1049 (start [1, 0, 0, 0, 1, 0, 0, 0, 1, 0, 0, 0] 3 0) 0).1 = .fault .arg := by decide +kernel

/-- D2, Y7. -/
theorem test_vb_enc :
    ran 0xCA (startWith [100, 0, 0, 0, 105, 0, 0, 0, 105, 0, 0, 0, 0x90, 1, 0, 0] 4 5 100 0 0) 5 =
      (.done, [0, 16, 5, 400, 0], [0, 5, 0, 0xA7, 2]) ∧
    (ran 0x4A (start [5, 0, 0, 0, 0x2C, 1, 0, 0, 7, 0, 0, 0] 3 3) 0).1 = .fault .dstCapacity := by decide +kernel

/-- D7, D8. -/
theorem test_vb_dec :
    ran 0xCB (startWith [0, 5, 0, 0xA7, 2] 4 16 100 0 0) 16 =
      (.done, [0, 5, 16, 400, 0], [100, 0, 0, 0, 105, 0, 0, 0, 105, 0, 0, 0, 0x90, 1, 0, 0]) ∧
    ran 0x4B (start [0x80, 0] 1 4) 4 = (.done, [0, 2, 4, 0, 0], [0, 0, 0, 0]) := by decide +kernel

/-- H3, H4. -/
theorem test_vb_getx :
    ran 0x4C (start [5, 0xAC] 3 0) 0 = (.done, [5, 0, 0, 0, 0], []) ∧
    (ran 0x4C (startWith [5, 0xAC] 3 0 0 1 0) 0).1 = .fault .srcBounds := by decide +kernel

/-- H11 from index 2, H6 from index 99. -/
theorem test_vb_geteq :
    ran 0xCD (startWith [0, 5, 0, 0xA7, 2] 4 0 100 2 105) 0 = (.done, [2, 0, 0, 0, 0], []) ∧
    ran 0x4D (startWith [5, 0xAC, 2, 7] 3 0 0 99 5) 0 = (.done, [3, 0, 0, 0, 0], []) := by decide +kernel

/-- H7 with the masked key, H8. -/
theorem test_vb_getgeq :
    ran 0x4E (startWith [5, 0xAC, 2, 7] 3 0 0 0 0x100000006) 0 = (.done, [1, 0, 0, 0, 0], []) ∧
    ran 0x4E (startWith [5, 0xAC, 2, 7] 3 0 0 2 6) 0 = (.done, [2, 0, 0, 0, 0], []) := by decide +kernel

/-- E1, E2. -/
theorem test_tb_enc :
    ran 0x4F (start turbo 5 13) 13 = (.done, [0, 20, 13, 0, 0], turboBuffer.map BitVec.toNat) ∧
    ran 0x10084F (start turbo 5 13) 13 =
      (.done, [0, 20, 13, 0, 0], [0xE4, 0, 1, 0x2C, 1, 0x70, 0x11, 1, 0, 0, 0, 1, 5]) := by decide +kernel

/-- E6, E7. -/
theorem test_tb_dec :
    ran 0x50 (start turboBuffer 5 20) 20 = (.done, [0, 13, 20, 0, 0], turbo.map BitVec.toNat) ∧
    (ran 0x100850 (start turboBuffer 5 20) 0).1 = .fault .srcBounds := by decide +kernel

/-- H14, H15. -/
theorem test_tb_getx :
    ran 0x51 (startWith (turboBuffer.take 11) 5 0 0 3 0) 0 = (.done, [16777216, 0, 0, 0, 0], []) ∧
    (ran 0x51 (start (turboBuffer.take 10) 5 0) 0).1 = .fault .srcBounds := by decide +kernel

/-- H16, H17. -/
theorem test_tb_geteq :
    ran 0x52 (startWith turboBuffer 5 0 0 0 5) 0 = (.done, [4, 0, 0, 0, 0], []) ∧
    (ran 0x52 (startWith (turboBuffer.take 11) 5 0 0 0 5) 0).1 = .fault .srcBounds := by decide +kernel

/-- H18. -/
theorem test_tb_getgeq :
    ran 0x53 (startWith turboBuffer 5 0 0 0 70001) 0 = (.done, [3, 0, 0, 0, 0], []) ∧
    ran 0x53 (startWith turboBuffer 5 0 0 4 70001) 0 = (.done, [5, 0, 0, 0, 0], []) := by decide +kernel

/-- F9, F13. -/
theorem test_pf_enc :
    ran 0x50D4 (start ten 6 5) 5 = (.done, [0, 24, 5, 20, 0], [4, 0, 0x0A, 2, 0x80]) ∧
    ran 0x7034 (start [1, 0, 0, 1, 1, 0, 1, 0, 1, 0, 1, 0, 0, 2, 1, 0] 8 8) 8 =
      (.done, [0, 16, 8, 0, 0], [1, 2, 0xBD, 0x21, 0, 1, 0, 2]) := by decide +kernel

/-- S5, F19. -/
theorem test_pf_dec :
    ran 0x50D5 (start [4, 0, 0x0A, 2, 0x80] 6 24) 24 = (.done, [0, 5, 24, 20, 0], ten.map BitVec.toNat) ∧
    (ran 0x3055 (start [2, 0] 4 16) 0).1 = .fault .srcBounds := by decide +kernel

/-- H24, H23. -/
theorem test_pf_getx :
    ran 0x7036 (startWith [1, 2, 0xBD, 0x21, 0, 1, 0, 2] 8 0 0 6 0) 0 = (.done, [512, 0, 0, 0, 0], []) ∧
    ran 0x1016 (startWith [2, 0, 9, 3, 0, 0x23] 5 0 0 3 0) 0 = (.done, [4, 0, 0, 0, 0], []) := by decide +kernel

/-- H20. -/
theorem test_pf_geteq :
    ran 0x50D7 (startWith [4, 0, 0x0A, 2, 0x80] 6 0 0 3 12) 0 = (.done, [3, 0, 0, 0, 0], []) ∧
    ran 0x50D7 (startWith [4, 0, 0x0A, 2, 0x80] 6 0 0 0 11) 0 = (.done, [6, 0, 0, 0, 0], []) := by decide +kernel

/-- H21. -/
theorem test_pf_getgeq :
    ran 0x50D8 (startWith [4, 0, 0x0A, 2, 0x80] 6 0 0 0 11) 0 = (.done, [2, 0, 0, 0, 0], []) ∧
    ran 0x50D8 (startWith [4, 0, 0x0A, 2, 0x80] 6 0 0 0 21) 0 = (.done, [6, 0, 0, 0, 0], []) := by decide +kernel

/-- G1, G9. -/
theorem test_ef_enc :
    ran 0x70D9 (start fortyThree 8 9) 9 = (.done, [0, 32, 9, 43, 0], efBuffer.map BitVec.toNat) ∧
    ran 0xFF959 (startWith [10, 0, 0, 0, 20, 0, 0, 0, 30, 0, 0, 0] 3 7 5 0 0) 7 =
      (.done, [0, 12, 7, 30, 0], [0x16, 0, 0, 0, 0x24, 0x92, 0]) := by decide +kernel

/-- G1 read backwards, G10. -/
theorem test_ef_dec :
    ran 0x70DA (start efBuffer 8 32) 32 = (.done, [0, 9, 32, 43, 0], fortyThree.map BitVec.toNat) ∧
    (ran 0x70DA (start [7, 0, 0, 0, 0x55, 0x55] 8 32) 0).1 = .fault .srcBounds := by decide +kernel

/-- H26, H30 (block 0 only). -/
theorem test_ef_getx :
    ran 0x70DB (startWith efBuffer 8 0 100 0 0) 0 = (.done, [103, 0, 0, 0, 0], []) ∧
    ran 0x30DB (startWith [12, 0, 0, 0, 7, 0x32, 2] 6 0 0 3 0) 0 = (.done, [12, 0, 0, 0, 0], []) := by decide +kernel

/-- H28. -/
theorem test_ef_geteq :
    ran 0x70DC (startWith efBuffer 8 0 0 0 13) 0 = (.done, [3, 0, 0, 0, 0], []) ∧
    ran 0x70DC (startWith efBuffer 8 0 0 0 12) 0 = (.done, [8, 0, 0, 0, 0], []) := by decide +kernel

/-- H27. -/
theorem test_ef_getgeq :
    ran 0x70DD (startWith efBuffer 8 0 0 0 16) 0 = (.done, [6, 0, 0, 0, 0], []) ∧
    ran 0x70DD (startWith efBuffer 8 0 0 0 44) 0 = (.done, [8, 0, 0, 0, 0], []) := by decide +kernel

/-! ### The host's steps, resets and touched windows -/

/-- A unit that runs a command word on a state. -/
def busyWith (c : Nat) (s : State) : State := s.withFetchWord 32 c

/-- A host write of `CMD`, then the unit's turn: A1 through the registers (spec/10_state.md R34, R45). -/
theorem test_cmd_write_runs :
    let s := { startWith [] 0 0 0 0 300 with events := [.regWrite 8 0x00 0x41#64, .unitTurn, .regRead 8 0x60, .regRead 8 0x08] }
    let t := after (Host.Core.run core 4 s)
    (t.status, t.results.res, t.readData, t.events) = (.done, 9#64, 2#64, []) ∧
    (after (Host.Core.run core 3 s)).readData = 9#64 := by decide +kernel

/-- P3: `FAULT` with code 4 reads as 0x43, ignores `CMD`, accepts an operand write, and ends with a soft reset. -/
theorem test_fault_is_sticky :
    let s := { State.reset with status := .fault .dstCapacity, events := [.regWrite 8 0x30 20#64, .regWrite 8 0x00 0x6A#64,
      .regRead 8 0x08, .regWrite 8 0x10 1#64] }
    let t := after (Host.Core.run core 3 s)
    let u := after (Host.Core.run core 4 s)
    (t.status, t.operands.dstCap, t.cmd, t.readData) = (.fault .dstCapacity, 20#64, 0#32, 0x43#64) ∧
    (u.status, u.operands.dstCap) = (.idle, 0#64) := by decide +kernel

/-- X1, X2, X4: a wrapping window is an argument fault even with `N = 0`, one that ends at `2^64` is not, and a command
that reads no memory does not look. -/
theorem test_window_checks :
    let wrap (len : Word) : State := { State.reset with operands := { srcBase := 0xFFFFFFFFFFFFFFF8#64, srcLen := len, key := 1#64 } }
    (after (step (busyWith 0x45 (wrap 16#64)))).status = .fault .arg ∧
    (after (step (busyWith 0x45 (wrap 8#64)))).status = .done ∧
    (after (step (busyWith 0x41 (wrap 16#64)))).results.res = 1#64 := by decide +kernel

/-- Another agent's write into the windows of a running command leaves a mark (R316); a hardware reset touches no byte
of memory, also then (R310); after `ARG` the other agent's byte stays (notes/assumptions/9.md). -/
theorem test_touched_marks :
    let s := busyWith 0x45 (start [1, 0, 0, 0] 1 4)
    let t := after (step { s with events := [.memWrite 0x1003 7#8, .memWrite 0x2003 8#8] })
    let u := after (step t)
    let r := after (step { u with events := [.hardReset] })
    let a := after (step { u with operands := { u.operands with dstBase := 0x1001#64 } })
    (t.srcTouched, t.dstTouched) = (true, []) ∧ (u.srcTouched, u.dstTouched) = (true, [0x2003]) ∧
    (r.mem, r.status, r.srcTouched, r.dstTouched) = (u.mem, .idle, false, []) ∧
    (a.mem, a.status, a.results, a.dstTouched) = (u.mem, .fault .arg, {}, []) := by decide +kernel

/-- The interface of the table: the word of `BITW w32` is decoded and run as the first command. -/
theorem test_table_word :
    decodeTableWord 32 0x41 = some (.bitw .w32) ∧
    (after (step (State.reset.withFetchWord 32 0x41))).status = .done := by decide +kernel

/-! ### Witnesses: states and operands that meet the hypotheses of the statements -/

/-- For `DecodeEncodeAgree`: well-formed commands at the ends of their fields. -/
theorem witness_DecodeEncodeAgree :
    wellFormed (.bpPack .w64 .lane256 64#7) = true ∧ wellFormed (.tbEnc .w16 .xorPrev .lane256 .g32) = true ∧
    wellFormed (.efGetgeq .w64 .delta1 .lane256 255#8) = true := by decide

/-- For `EncodeDecodeAgree`: a legal word. -/
theorem witness_EncodeDecodeAgree : ∃ i, decode 0x10000067#32 = .ok i := ⟨_, rfl⟩

/-- For `IllegalWordRaises`: a busy unit with an illegal word of each check of R105, and with its legal neighbours. -/
theorem witness_IllegalWordRaises :
    (let s := busyWith 0x0040044F State.reset; s.status = .busy ∧ s.events = [] ∧ illegalWord s.cmd) ∧
    (let s := busyWith 0x0000044F State.reset; s.status = .busy ∧ s.events = [] ∧ ¬ illegalWord s.cmd) ∧
    illegalWord 0x20000001#32 ∧ illegalWord 0x0000001E#32 ∧ illegalWord 0x00000024#32 ∧ illegalWord 0x00000345#32 ∧
    illegalWord 0x01000C47#32 ∧ illegalWord 0x10400067#32 ∧ illegalWord 0x0010044F#32 ∧ illegalWord 0x000071D9#32 ∧
    ¬ illegalWord 0x10000067#32 ∧ ¬ illegalWord 0x000FF179#32 := by
  refine ⟨⟨rfl, rfl, ?_⟩, ⟨rfl, rfl, ?_⟩, ?_, ?_, ?_, ?_, ?_, ?_, ?_, ?_, ?_, ?_⟩ <;> simp only [illegalWord] <;>
    decide +kernel

/-- For `StepRunsDecoded`: a busy, untouched unit with a legal word. -/
theorem witness_StepRunsDecoded :
    let s := busyWith 0x245 (start ten 6 24)
    s.status = .busy ∧ untouched s = true ∧ decode s.cmd = .ok (.xfFwd .w32 .ddelta) := ⟨rfl, rfl, rfl⟩

/-- A busy unit with a touched destination byte meets the invariant and takes a step. -/
theorem witness_StepKeepsInvariant :
    let s := { busyWith 0x45 (start [1, 0, 0, 0] 1 4) with dstTouched := [0x2003] }
    Inv s ∧ ∃ t, step s = .next t := by
  refine ⟨⟨by decide +kernel, ?_, ?_, ?_, ?_, ?_, ?_⟩, _, rfl⟩
  · intro h; cases h
  · intro h; cases h
  · intro h; cases h
  · intro f h; cases h
  · intro h; exact absurd rfl h
  · decide +kernel

/-- For `BusyUnitTerminates`. -/
theorem witness_BusyUnitTerminates :
    let s := busyWith 0x0A (start [1] 1 1)
    s.status = .busy ∧ s.events = [] := ⟨rfl, rfl⟩

/-- For `UnitWritesOnlyItsWindow`: a running command with a touched byte at the end of its destination window. -/
theorem witness_UnitWritesOnlyItsWindow :
    let s := { busyWith 0x45 (start [1, 0, 0, 0] 1 4) with dstTouched := [0x2003] }
    s.status = .busy ∧ s.events = [] ∧
    (∀ a ∈ s.dstTouched, currentWrites s = true ∧ inDstWindow s.operands a = true) ∧ ∃ t, step s = .next t := by
  refine ⟨rfl, rfl, by decide +kernel, _, rfl⟩

/-- For `OutcomeDependsOnInputsOnly`: two units that differ in their results and in a byte outside the source window. -/
theorem witness_OutcomeDependsOnInputsOnly :
    let s := busyWith 0x45 (start [1, 0, 0, 0] 1 4)
    let s' := { s with results := { res := 7#64 }, mem := s.mem.write 0x1004 9#8 }
    s.status = .busy ∧ s'.status = .busy ∧ s.events = [] ∧ s'.events = [] ∧
    untouched s = true ∧ untouched s' = true ∧ s.cmd = s'.cmd ∧ s.operands = s'.operands ∧ s.draws = s'.draws ∧
    (∀ off, off < s.operands.srcLen.toNat →
      s.mem.read (s.operands.srcBase.toNat + off) = s'.mem.read (s.operands.srcBase.toNat + off)) ∧ s ≠ s' := by
  decide +kernel

/-- For `StatusTransitions`: a step of each kind. -/
theorem witness_StatusTransitions :
    (∃ t, step { State.reset with events := [.regWrite 8 0x00 0x41#64] } = .next t) ∧
    (∃ t, step (busyWith 0x41 State.reset) = .next t) ∧
    (∃ t, step { busyWith 0x41 State.reset with events := [.hardReset] } = .next t) ∧
    (∃ t, step { busyWith 0x41 State.reset with events := [.regWrite 8 0x10 1#64] } = .next t) :=
  ⟨⟨_, rfl⟩, ⟨_, rfl⟩, ⟨_, rfl⟩, ⟨_, rfl⟩⟩

/-- For `QuiescentUnit`: each of the three states. -/
theorem witness_QuiescentUnit :
    State.reset.status ≠ .busy ∧ ({ State.reset with status := .done } : State).status ≠ .busy ∧
    ({ State.reset with status := .fault .arg } : State).status ≠ .busy := by decide

/-- For `SoftResetClears`: a value with bit 0 set; and an address outside the window of a busy writing unit. -/
theorem witness_SoftResetClears :
    (1#64 : Word).getLsbD 0 = true ∧
    (let s := busyWith 0x45 (start [1, 0, 0, 0] 1 4)
     ¬ (s.status = .busy ∧ currentWrites s = true ∧ inDstWindow s.operands 0x2004 = true)) := by decide +kernel

/-- For `HardResetClears`, which has no hypotheses: it speaks of a busy unit with a touched window too. -/
theorem witness_HardResetClears :
    let s := { busyWith 0x45 (start [1, 0, 0, 0] 1 4) with dstTouched := [0x2003] }
    s.status = .busy ∧ currentWrites s = true ∧ untouched s = false := by decide +kernel

/-- For `CmdWriteStarts`: a state of each clause. -/
theorem witness_CmdWriteStarts :
    (State.reset.status = .idle ∨ State.reset.status = .done) ∧
    ((busyWith 0 State.reset).status = .busy ∨ ∃ f, (busyWith 0 State.reset).status = .fault f) ∧
    (let s := { State.reset with status := .fault .illegalCmd }; s.status = .busy ∨ ∃ f, s.status = .fault f) :=
  ⟨.inl rfl, .inl rfl, .inr ⟨_, rfl⟩⟩

/-- For `OperandWrites`: the first and the last register, in both kinds of state. -/
theorem witness_OperandWrites :
    0 < 9 ∧ 8 < 9 ∧ State.reset.status ≠ .busy ∧ (busyWith 0 State.reset).status = .busy := by decide

/-- For `IgnoredWrites`: each of its offsets, at the ends of the range. -/
theorem witness_IgnoredWrites :
    (0x08 = 0x08) ∧ (0x10 = 0x10 ∧ (2#64 : Word).getLsbD 0 = false) ∧ (∃ k, k < 5 ∧ 0x60 = 0x60 + 8 * k) ∧
    (∃ k, k < 5 ∧ 0x80 = 0x60 + 8 * k) :=
  ⟨rfl, ⟨rfl, rfl⟩, ⟨0, by decide, rfl⟩, ⟨4, by decide, rfl⟩⟩

/-- For `RegisterReads`: register numbers at the ends, in a busy and in an idle unit. -/
theorem witness_RegisterReads :
    0 < 9 ∧ 8 < 9 ∧ 0 < 5 ∧ 4 < 5 ∧ State.reset.status ≠ .busy ∧ (busyWith 0 State.reset).status = .busy := by decide

/-- For `HostMemoryAccess`: the last byte that exists and the first that does not. -/
theorem witness_HostMemoryAccess :
    State.reset.status ≠ .busy ∧ 2 ^ 64 - 1 < addressLimit ∧ addressLimit ≤ 2 ^ 64 := by decide

/-- For `TouchedSourceWindow`: the last byte of the source window of a running command. -/
theorem witness_TouchedSourceWindow :
    let s := { busyWith 0x45 (start [1, 0, 0, 0] 1 4) with events := [.memWrite 0x1003 7#8] }
    s.status = .busy ∧ untouched s = true ∧ s.events = [.memWrite 0x1003 7#8] ∧
    decode s.cmd = .ok (.xfFwd .w32 .ident) ∧ readsMem (.xfFwd .w32 .ident) = true ∧
    argFault (.xfFwd .w32 .ident) s.operands = false ∧ 0x1003 < addressLimit ∧ inSrcWindow s.operands 0x1003 = true := by
  refine ⟨rfl, rfl, rfl, rfl, rfl, ?_, ?_, ?_⟩ <;> decide +kernel

/-- The operands of section 11.2 of the vectors. -/
def windows (srcBase srcLen dstBase dstCap n index : Nat) : State :=
  { State.reset with operands :=
    { srcBase := BitVec.ofNat 64 srcBase, srcLen := BitVec.ofNat 64 srcLen, dstBase := BitVec.ofNat 64 dstBase
      dstCap := BitVec.ofNat 64 dstCap, n := BitVec.ofNat 64 n, index := BitVec.ofNat 64 index } }

/-- For `ArgumentFaults`, its causes at their boundaries: X1, X3, X9, X7, X11, X13. -/
theorem witness_ArgumentFaults_causes :
    (readsMem (.xfFwd .w32 .ident) = true ∧ ¬ SrcValid (windows (2 ^ 64 - 8) 9 0 0 0 0)) ∧
    (writesMem (.xfFwd .w32 .ident) = true ∧ ¬ DstValid (windows 0 0 (2 ^ 64 - 1) 2 0 0)) ∧
    (writesMem (.vbEnc .w32 .ident) = true ∧ ¬ Disjoint (windows 0x1000 8 0x1007 8 0 0)) ∧
    (writesMem (.vbEnc .w32 .ident) = true ∧ ¬ Disjoint (windows 0x1000 8 0x1000 8 2 0)) ∧
    (let s := windows 0 0 0 0 3 3; s.operands.n.toNat ≤ s.operands.index.toNat) ∧
    (let s := windows 0 0 0 0 3 0; (1#8 : BlockField).toNat + 1 < s.operands.n.toNat) := by decide +kernel

/-- For `ArgumentFaults`, no cause: X2, X6, X8, X10, and the last index. -/
theorem witness_ArgumentFaults_none :
    SrcValid (windows (2 ^ 64 - 8) 8 0 0 0 0) ∧ DstValid (windows 0 0 (2 ^ 64 - 1) 1 0 0) ∧
    Disjoint (windows 0x1000 8 0x1008 8 2 0) ∧ Disjoint (windows 0x1000 8 0x1004 0 0 0) ∧
    (windows 0x1000 8 0x1000 8 2 0).operands.srcBase = (windows 0x1000 8 0x1000 8 2 0).operands.dstBase ∧
    (let s := windows 0 0 0 0 3 2; ¬ s.operands.n.toNat ≤ s.operands.index.toNat) ∧
    (let s := windows 0 0 0 0 2 0; ¬ (1#8 : BlockField).toNat + 1 < s.operands.n.toNat) := by decide +kernel

/-- For `SourceBoundsExact`: an array one byte too long for the window, and one that fills it. -/
theorem witness_SourceBoundsExact :
    (let s := start [1, 0, 0] 1 0
     let long := fun i => argFault i s.operands = false ∧ s.operands.srcLen.toNat < count s * (widthOfInstr i).bytes
     long (.vbEnc .w32 .ident) ∧ long (.blkbitw .w32) ∧ long (.pfSelw .w32 0#8)) ∧
    (let s := start [1, 0, 0, 0] 1 0
     let fits := fun i => argFault i s.operands = false ∧ ¬ s.operands.srcLen.toNat < count s * (widthOfInstr i).bytes
     fits (.efEnc .w32 .delta .scalar 7#8) ∧ fits (.blkbitw .w32) ∧ fits (.pfSelw .w32 0#8)) := by decide +kernel

/-- For `CapacityFaults`, transforms and packer: an output one byte too long and one that fits (Y4, Y5). -/
theorem witness_CapacityFaults :
    (let s := start [1, 0, 0, 0, 2, 0, 0, 0] 2 7
     argFault (.xfFwd .w32 .ident) s.operands = false ∧ Footprint (.xfFwd .w32 .ident) s 8 8 ∧
     8 ≤ s.operands.srcLen.toNat ∧ s.operands.dstCap.toNat < 8) ∧
    (let s := start [1, 2, 3, 4, 5] 5 2
     argFault (.bpPack .w8 .scalar 3#7) s.operands = false ∧ Footprint (.bpPack .w8 .scalar 3#7) s 5 2 ∧
     5 ≤ s.operands.srcLen.toNat ∧ 2 ≤ s.operands.dstCap.toNat) ∧
    (let s := start [0xD1, 0x58] 5 4
     argFault (.bpUnpack .w8 .scalar 3#7) s.operands = false ∧ Footprint (.bpUnpack .w8 .scalar 3#7) s 2 5 ∧
     2 ≤ s.operands.srcLen.toNat ∧ s.operands.dstCap.toNat < 5) := by
  simp only [Footprint]
  decide +kernel

/-- For `BlkbitwHoldsAll`: an array that fills the window (A12). -/
theorem witness_BlkbitwHoldsAll :
    let s := start (List.replicate 8 0xFF#8) 1 0
    SrcValid s ∧ count s * Width.w64.bytes ≤ s.operands.srcLen.toNat := by decide +kernel

/-- For `VbvlenFindsTerminator`: a terminator in the last byte of the window (A20), and none (A21). -/
theorem witness_VbvlenFindsTerminator :
    (let s := start [0xFF, 0xFF, 1] 0 0
     let byte := fun j => (s.mem.read (s.operands.srcBase.toNat + j)).toNat
     SrcValid s ∧ 2 < s.operands.srcLen.toNat ∧ (∀ j, j < 2 → 128 ≤ byte j) ∧ byte 2 < 128) ∧
    (let s := start [0x80, 0x80] 0 0
     let byte := fun j => (s.mem.read (s.operands.srcBase.toNat + j)).toNat
     SrcValid s ∧ ∀ j, j < s.operands.srcLen.toNat → 128 ≤ byte j) := by decide +kernel

/-- For `XfFwdElements` and `XfInvElements`: arrays that fill both windows (B5), and in place (B18). -/
theorem witness_XfFwdElements :
    (let s := start ten 6 24
     WindowsReadyInPlace s ∧ count s * Width.w32.bytes ≤ s.operands.srcLen.toNat ∧
     count s * Width.w32.bytes ≤ s.operands.dstCap.toNat) ∧
    (let s := { start ten 6 24 with operands := { (start ten 6 24).operands with dstBase := 0x1000#64 } }
     WindowsReadyInPlace s ∧ count s * Width.w32.bytes ≤ s.operands.srcLen.toNat ∧
     count s * Width.w32.bytes ≤ s.operands.dstCap.toNat) := by decide +kernel

/-- For `XfInvElements`: the array of B8. -/
theorem witness_XfInvElements :
    let s := startWith [0xFE, 0xFE, 0xF7, 6] 4 4 7 0 0
    WindowsReadyInPlace s ∧ count s * Width.w8.bytes ≤ s.operands.srcLen.toNat ∧
    count s * Width.w8.bytes ≤ s.operands.dstCap.toNat := by decide +kernel

/-- The state for the way back: the source window on what an encoder wrote, the destination window at `0x3000`. -/
def backFrom (t : State) (dstCap : Nat) : State :=
  { t with operands := { t.operands with
      srcBase := t.operands.dstBase, srcLen := t.results.dstEnd
      dstBase := 0x3000#64, dstCap := BitVec.ofNat 64 dstCap } }

/-- For `XfRoundTrip` (B5). -/
theorem witness_XfRoundTrip :
    let s := start ten 6 24
    let t := after (exec (.xfFwd .w32 .ddelta) s)
    let s' := backFrom t 24
    exec (.xfFwd .w32 .ddelta) s = .next t ∧ t.status = .done ∧ WindowsReadyInPlace s' ∧
    s'.operands.n = s.operands.n ∧ s'.operands.seed = s.operands.seed ∧ s'.operands.seed2 = s.operands.seed2 ∧
    count s * Width.w32.bytes ≤ s'.operands.srcLen.toNat ∧ count s * Width.w32.bytes ≤ s'.operands.dstCap.toNat ∧
    ∀ i, i < count s → srcElem .w32 s' i = elemAt t.mem .w32 s.operands.dstBase.toNat i := by
  refine ⟨rfl, ?_⟩
  decide +kernel

/-- For `BpPackBits` (C6): the widest window use, to the byte. -/
theorem witness_BpPackBits :
    let s := start [0xFF, 1, 1, 0, 0x55, 1] 3 4
    wellFormed (.bpPack .w16 .lane256 9#7) = true ∧ WindowsReady s ∧
    count s * Width.w16.bytes ≤ s.operands.srcLen.toNat ∧
    bytesFor ((9#7 : PackField).toNat * count s) ≤ s.operands.dstCap.toNat := by decide +kernel

/-- For `BpUnpackBits` (C8). -/
theorem witness_BpUnpackBits :
    let s := start [0xD1, 0xD8] 5 5
    wellFormed (.bpUnpack .w8 .scalar 3#7) = true ∧ WindowsReady s ∧
    bytesFor ((3#7 : PackField).toNat * count s) ≤ s.operands.srcLen.toNat ∧
    count s * Width.w8.bytes ≤ s.operands.dstCap.toNat := by decide +kernel

/-- For `VbyteFormat`: the largest value and its last byte. -/
theorem witness_VbyteFormat : 2 ^ 64 - 1 < 2 ^ 64 ∧ 9 < vblenOf (2 ^ 64 - 1) := by decide +kernel

/-- For `VbEncWritesBuffer`: a destination of exactly the output's size (Y6). -/
theorem witness_VbEncWritesBuffer :
    let s := start ten 6 6
    WindowsReady s ∧ count s * Width.w32.bytes ≤ s.operands.srcLen.toNat ∧
    ((sent .w32 .ident s).xs.flatMap fun v => vbPut v.toNat).length = s.operands.dstCap.toNat := by decide +kernel

/-- The 32-bit array of D7. -/
def gaps : List (BitVec Width.w32.bits) := [100#32, 105#32, 105#32, 400#32]

/-- For `VbDecRestores` (D7). -/
theorem witness_VbDecRestores :
    let s := startWith [0, 5, 0, 0xA7, 2] 4 16 100 0 0
    gaps.length = count s ∧ WindowsReady s ∧
    BeginsWith s (vbLayout (xf .delta (seedElem Width.w32.bits s) (seed2Elem Width.w32.bits s) gaps).xs) ∧
    count s * Width.w32.bytes ≤ s.operands.dstCap.toNat := by decide +kernel

/-- For `VbRoundTrip`. -/
theorem witness_VbRoundTrip :
    let s := start ten 6 30
    let t := after (exec (.vbEnc .w32 .zigzag) s)
    let s' := backFrom t 24
    exec (.vbEnc .w32 .zigzag) s = .next t ∧ t.status = .done ∧
    s'.operands.n = s.operands.n ∧ s'.operands.seed = s.operands.seed ∧ s'.operands.seed2 = s.operands.seed2 ∧
    WindowsReady s' ∧ BeginsWith s' (bytesFrom t.mem.read s.operands.dstBase.toNat t.results.dstEnd.toNat) ∧
    count s * Width.w32.bytes ≤ s'.operands.dstCap.toNat := by
  refine ⟨rfl, ?_⟩
  decide +kernel

/-- For `VbAccessAgrees`: the last index of the whole buffer (H9), and the last element of a window that holds only the
first three (H3). -/
theorem witness_VbAccessAgrees :
    (let s := startWith [0, 5, 0, 0xA7, 2] 4 0 100 3 105
     gaps.length = count s ∧ SrcValid s ∧ 4 ≤ count s ∧
     BeginsWith s (vbLayout (stored .w32 .delta s (gaps.take 4)).xs) ∧ s.operands.index.toNat < 4) ∧
    (let s := startWith [0, 5, 0] 4 0 100 2 105
     gaps.length = count s ∧ SrcValid s ∧ 3 ≤ count s ∧
     BeginsWith s (vbLayout (stored .w32 .delta s (gaps.take 3)).xs) ∧ s.operands.index.toNat < 3) := by decide +kernel

/-- For `TurboGroupFormat`: values at the ends of the four lengths. -/
theorem witness_TurboGroupFormat :
    ∀ v ∈ [0, 255, 256, 65535, 65536, 2 ^ 24 - 1, 2 ^ 24, 2 ^ 32 - 1], v < 2 ^ 32 := by decide

/-- For `TbEncWritesBuffer`: a destination of exactly the output's size (E1). -/
theorem witness_TbEncWritesBuffer :
    let s := start turbo 5 13
    wellFormed (.tbEnc .w32 .ident .scalar .g4) = true ∧ WindowsReady s ∧
    count s * Width.w32.bytes ≤ s.operands.srcLen.toNat ∧
    ((chunks GroupSize.g4.count ((sent .w32 .ident s).xs.map BitVec.toNat)).flatMap tbGroup).length =
      s.operands.dstCap.toNat := by decide +kernel

/-- The 32-bit array of E1. -/
def turboArray : List (BitVec Width.w32.bits) := [1#32, 300#32, 70000#32, 0x01000000#32, 5#32]

/-- For `TbDecRestores` (E6). -/
theorem witness_TbDecRestores :
    let s := start turboBuffer 5 20
    wellFormed (.tbDec .w32 .ident .scalar .g4) = true ∧ turboArray.length = count s ∧ WindowsReady s ∧
    BeginsWith s (tbLayout GroupSize.g4.count
      (xf .ident (seedElem Width.w32.bits s) (seed2Elem Width.w32.bits s) turboArray).xs) ∧
    count s * Width.w32.bytes ≤ s.operands.dstCap.toNat := by decide +kernel

/-- For `TbRoundTrip`, with two different lanes. -/
theorem witness_TbRoundTrip :
    let s := start turbo 5 22
    let t := after (exec (.tbEnc .w32 .xorPrev .scalar .g4) s)
    let s' := backFrom t 20
    wellFormed (.tbEnc .w32 .xorPrev .scalar .g4) = true ∧ wellFormed (.tbDec .w32 .xorPrev .lane128 .g4) = true ∧
    exec (.tbEnc .w32 .xorPrev .scalar .g4) s = .next t ∧ t.status = .done ∧
    s'.operands.n = s.operands.n ∧ s'.operands.seed = s.operands.seed ∧ s'.operands.seed2 = s.operands.seed2 ∧
    WindowsReady s' ∧ BeginsWith s' (bytesFrom t.mem.read s.operands.dstBase.toNat t.results.dstEnd.toNat) ∧
    count s * Width.w32.bytes ≤ s'.operands.dstCap.toNat := by
  refine ⟨rfl, rfl, rfl, ?_⟩
  decide +kernel

/-- For `TbAccessAgrees`: the last index of the whole buffer (H13), and the last element of a window that holds only the
first group (H14). -/
theorem witness_TbAccessAgrees :
    wellFormed (.tbGetx .w32 .ident .scalar .g4) = true ∧
    (let s := startWith turboBuffer 5 0 0 4 5
     turboArray.length = count s ∧ SrcValid s ∧
     BeginsWith s (tbLayout GroupSize.g4.count (stored .w32 .ident s (turboArray.take 5)).xs) ∧
     s.operands.index.toNat < 5) ∧
    (let s := startWith (turboBuffer.take 11) 5 0 0 3 5
     turboArray.length = count s ∧ SrcValid s ∧ 4 ≤ count s ∧ 4 % GroupSize.g4.count = 0 ∧
     BeginsWith s (tbLayout GroupSize.g4.count (stored .w32 .ident s (turboArray.take 4)).xs) ∧
     s.operands.index.toNat < 4) := by decide +kernel

/-- For `PfSelwLeastCost`: `N = B`, an array that fills the window (F5). -/
theorem witness_PfSelwLeastCost :
    let s := start [1, 1, 1, 200] 4 0
    SrcValid s ∧ count s ≤ (3#8 : BlockField).toNat + 1 ∧ count s * Width.w8.bytes ≤ s.operands.srcLen.toNat := by
  decide +kernel

/-- For `PforBlockSize`: a short block of the largest block size with the largest value, and a block with two exceptions,
whose clauses about gaps and padding have cases (F13). -/
theorem witness_PforBlockSize :
    (let d := [2 ^ 64 - 1]
     1 ≤ d.length ∧ d.length ≤ 256 ∧ 256 ≤ 256 ∧ ∀ v ∈ d, v < 2 ^ Width.w64.bits) ∧
    (let d := [1, 0x100, 1, 1, 1, 1, 0x200, 1]
     1 ≤ d.length ∧ d.length ≤ 8 ∧ 8 ≤ 256 ∧ (∀ v ∈ d, v < 2 ^ Width.w16.bits) ∧
     ((List.range d.length).filter fun i => decide (2 ^ 1 ≤ d.getD i 0)) = [1, 6] ∧ 2 < bw (8 - 1) ∧
     bw (8 - 1) * 2 < 8 * bytesFor (bw (8 - 1) * 2)) := by decide +kernel

/-- For `PfEncWritesBuffer`: a destination of exactly the output's size (Y8). -/
theorem witness_PfEncWritesBuffer :
    let s := start ten 6 5
    WindowsReady s ∧ count s * Width.w32.bytes ≤ s.operands.srcLen.toNat ∧
    ((chunks ((5#8 : BlockField).toNat + 1) ((sent .w32 .delta s).xs.map BitVec.toNat)).flatMap
      (pfBlock Width.w32.bits ((5#8 : BlockField).toNat + 1))).length = s.operands.dstCap.toNat := by
  decide +kernel

/-- The 32-bit array of S4. -/
def tenArray : List (BitVec Width.w32.bits) := [10#32, 10#32, 12#32, 12#32, 12#32, 20#32]

/-- For `PfDecRestores` (S5). -/
theorem witness_PfDecRestores :
    let s := start [4, 0, 0x0A, 2, 0x80] 6 24
    tenArray.length = count s ∧ WindowsReady s ∧
    BeginsWith s (pfLayout (blockSize 5#8)
      (xf .delta (seedElem Width.w32.bits s) (seed2Elem Width.w32.bits s) tenArray).xs) ∧
    count s * Width.w32.bytes ≤ s.operands.dstCap.toNat := by decide +kernel

/-- For `PfRoundTrip`, with a short last block and different lanes. -/
theorem witness_PfRoundTrip :
    let s := start ten 6 32
    let t := after (exec (.pfEnc .w32 .delta1 .scalar 3#8) s)
    let s' := backFrom t 24
    exec (.pfEnc .w32 .delta1 .scalar 3#8) s = .next t ∧ t.status = .done ∧
    s'.operands.n = s.operands.n ∧ s'.operands.seed = s.operands.seed ∧ s'.operands.seed2 = s.operands.seed2 ∧
    WindowsReady s' ∧ BeginsWith s' (bytesFrom t.mem.read s.operands.dstBase.toNat t.results.dstEnd.toNat) ∧
    count s * Width.w32.bytes ≤ s'.operands.dstCap.toNat := by
  refine ⟨rfl, ?_⟩
  decide +kernel

/-- The bytes of F16. -/
def fiveArray : List (BitVec Width.w8.bits) := [1#8, 2#8, 3#8, 4#8, 5#8]

/-- For `PfAccessAgrees`: the last index of the whole buffer (H19), and the last element of a window that holds only the
first two blocks (H23). -/
theorem witness_PfAccessAgrees :
    (let s := startWith [4, 0, 0x0A, 2, 0x80] 6 0 0 5 12
     tenArray.length = count s ∧ SrcValid s ∧
     BeginsWith s (pfLayout (blockSize 5#8) (stored .w32 .delta s (tenArray.take 6)).xs) ∧
     s.operands.index.toNat < 6) ∧
    (let s := startWith [2, 0, 9, 3, 0, 0x23] 5 0 0 3 4
     fiveArray.length = count s ∧ SrcValid s ∧ 4 ≤ count s ∧ 4 % blockSize 1#8 = 0 ∧
     BeginsWith s (pfLayout (blockSize 1#8) (stored .w8 .ident s (fiveArray.take 4)).xs) ∧
     s.operands.index.toNat < 4) := by decide +kernel

/-- For `EliasFanoBlockFormat`: a block with `count` at most `U` (G1) and one with more values than `U` (G5). -/
theorem witness_EliasFanoBlockFormat :
    (let us := [3, 4, 7, 13, 14, 15, 21, 43]
     us.getLast? = some 43 ∧ nonDecreasing us = true ∧ 43 < 2 ^ Width.w32.bits ∧ us.length ≤ 43 + 1 ∧
     us[7]? = some 43 ∧ 1 < efL (43 + 1) us.length) ∧
    (let us := [5, 5, 5, 5, 5, 5, 5, 5]
     us.getLast? = some 5 ∧ nonDecreasing us = true ∧ 5 < 2 ^ Width.w32.bits ∧ 5 + 1 < us.length) := by
  decide +kernel

/-- The state of the Elias-Fano witnesses: G1 in two blocks. -/
def efState : State := start fortyThree 8 47

/-- The rebased values of `efState` do not fall inside its blocks. -/
theorem efState_monotone :
    EfMonotone (strictStep .delta) (seedElem Width.w32.bits efState) ((3#8 : BlockField).toNat + 1)
      (srcElem .w32 efState) (count efState) := by
  intro i hi
  have hi' : i < 7 := by
    have : count efState = 8 := rfl
    omega
  clear hi
  revert i
  decide +kernel

/-- For `EfEncWritesBuffer`: two blocks, a destination of the size of R317. -/
theorem witness_EfEncWritesBuffer :
    let s := efState
    wellFormed (.efEnc .w32 .delta .scalar 3#8) = true ∧
    EfMonotone (strictStep .delta) (seedElem Width.w32.bits s) ((3#8 : BlockField).toNat + 1) (srcElem .w32 s) (count s) ∧
    WindowsReady s ∧ count s * Width.w32.bytes ≤ s.operands.srcLen.toNat ∧
    (efSent .w32 .delta 3#8 s).length ≤ s.operands.dstCap.toNat :=
  ⟨rfl, efState_monotone, by decide +kernel, by decide +kernel, by decide +kernel⟩

/-- For `CapacityFaults`, encoders: an output one byte too long (Y7, Y8) and one that fits to the byte (Y6, E1). -/
theorem witness_CapacityFaults_encoders :
    (let s := start [5, 0, 0, 0, 0x2C, 1, 0, 0, 7, 0, 0, 0] 3 3
     argFault (.vbEnc .w32 .ident) s.operands = false ∧ Footprint (.vbEnc .w32 .ident) s 12 4 ∧
     12 ≤ s.operands.srcLen.toNat ∧ s.operands.dstCap.toNat < 4) ∧
    (let s := start turbo 5 13
     argFault (.tbEnc .w32 .ident .scalar .g4) s.operands = false ∧ Footprint (.tbEnc .w32 .ident .scalar .g4) s 20 13 ∧
     20 ≤ s.operands.srcLen.toNat ∧ 13 ≤ s.operands.dstCap.toNat) ∧
    (let s := start ten 6 4
     argFault (.pfEnc .w32 .delta .scalar 5#8) s.operands = false ∧ Footprint (.pfEnc .w32 .delta .scalar 5#8) s 24 5 ∧
     24 ≤ s.operands.srcLen.toNat ∧ s.operands.dstCap.toNat < 5) ∧
    (argFault (.efEnc .w32 .delta .scalar 3#8) efState.operands = false ∧
     Footprint (.efEnc .w32 .delta .scalar 3#8) efState 32 (efSent .w32 .delta 3#8 efState).length ∧
     32 ≤ efState.operands.srcLen.toNat) := by
  refine ⟨?_, ?_, ?_, by decide +kernel, ⟨efState_monotone, by decide +kernel, rfl⟩, by decide +kernel⟩ <;>
    simp only [Footprint] <;> decide +kernel

/-- The 32-bit array of G1. -/
def efArray : List (BitVec Width.w32.bits) := [3#32, 4#32, 7#32, 13#32, 14#32, 15#32, 21#32, 43#32]

/-- For `EfDecRestores` (G1 read backwards). -/
theorem witness_EfDecRestores :
    let s := start efBuffer 8 32
    wellFormed (.efDec .w32 .delta .scalar 7#8) = true ∧ efArray.length = count s ∧
    efEncodeBlocks (strictStep .delta) (seedElem Width.w32.bits s) (chunks (blockSize 7#8) efArray) =
      .ok (efBuffer, 43#32) ∧
    WindowsReady s ∧ BeginsWith s efBuffer ∧ count s * Width.w32.bytes ≤ s.operands.dstCap.toNat := by
  refine ⟨rfl, rfl, rfl, ?_⟩
  decide +kernel

/-- For `EfRoundTrip`, in two blocks and with different lanes. -/
theorem witness_EfRoundTrip :
    let s := efState
    let t := after (exec (.efEnc .w32 .delta .scalar 3#8) s)
    let s' := backFrom t 32
    wellFormed (.efEnc .w32 .delta .scalar 3#8) = true ∧
    EfMonotone (strictStep .delta) (seedElem Width.w32.bits s) ((3#8 : BlockField).toNat + 1) (srcElem .w32 s) (count s) ∧
    exec (.efEnc .w32 .delta .scalar 3#8) s = .next t ∧ t.status = .done ∧
    s'.operands.n = s.operands.n ∧ s'.operands.seed = s.operands.seed ∧
    WindowsReady s' ∧ BeginsWith s' (bytesFrom t.mem.read s.operands.dstBase.toNat t.results.dstEnd.toNat) ∧
    count s * Width.w32.bytes ≤ s'.operands.dstCap.toNat := by
  refine ⟨rfl, efState_monotone, rfl, ?_⟩
  decide +kernel

/-- The 32-bit array of G8. -/
def twoBlocks : List (BitVec Width.w32.bits) := [3#32, 7#32, 7#32, 12#32, 20#32, 21#32]

/-- For `EfAccessAgrees`: the last index of the whole buffer (H25), and the last element of a window that holds only the
first block (H30). -/
theorem witness_EfAccessAgrees :
    (let s := startWith efBuffer 8 0 0 7 16
     wellFormed (.efGetx .w32 .delta .scalar 7#8) = true ∧ efArray.length = count s ∧
     efEncodeBlocks (strictStep .delta) (seedElem Width.w32.bits s) (chunks (blockSize 7#8) (efArray.take 8)) =
       .ok (efBuffer, 43#32) ∧
     SrcValid s ∧ BeginsWith s efBuffer ∧ s.operands.index.toNat < 8) ∧
    (let s := startWith [12, 0, 0, 0, 7, 0x32, 2] 6 0 0 3 12
     wellFormed (.efGetx .w32 .delta .scalar 3#8) = true ∧ twoBlocks.length = count s ∧
     efEncodeBlocks (strictStep .delta) (seedElem Width.w32.bits s) (chunks (blockSize 3#8) (twoBlocks.take 4)) =
       .ok ([12, 0, 0, 0, 7, 0x32, 2], 12#32) ∧
     SrcValid s ∧ BeginsWith s [12, 0, 0, 0, 7, 0x32, 2] ∧ 4 ≤ count s ∧ 4 % blockSize 3#8 = 0 ∧
     s.operands.index.toNat < 4) := by
  refine ⟨⟨rfl, rfl, rfl, ?_⟩, ⟨rfl, rfl, rfl, ?_⟩⟩ <;> decide +kernel

/-- For `CapacityFaults`, decoders: the buffers of D10, E6, S5 and G1 with a destination one byte too small. -/
theorem witness_CapacityFaults_decoders :
    (let s := startWith [0, 5, 0, 0xA7, 2] 4 15 100 0 0
     argFault (.vbDec .w32 .delta) s.operands = false ∧ Footprint (.vbDec .w32 .delta) s 5 16 ∧
     5 ≤ s.operands.srcLen.toNat ∧ s.operands.dstCap.toNat < 16) ∧
    (let s := start turboBuffer 5 19
     argFault (.tbDec .w32 .ident .scalar .g4) s.operands = false ∧ Footprint (.tbDec .w32 .ident .scalar .g4) s 13 20 ∧
     13 ≤ s.operands.srcLen.toNat ∧ s.operands.dstCap.toNat < 20) ∧
    (let s := start [4, 0, 0x0A, 2, 0x80] 6 23
     argFault (.pfDec .w32 .delta .scalar 5#8) s.operands = false ∧ Footprint (.pfDec .w32 .delta .scalar 5#8) s 5 24 ∧
     5 ≤ s.operands.srcLen.toNat ∧ s.operands.dstCap.toNat < 24) ∧
    (let s := start efBuffer 8 31
     argFault (.efDec .w32 .delta .scalar 7#8) s.operands = false ∧ Footprint (.efDec .w32 .delta .scalar 7#8) s 9 32 ∧
     9 ≤ s.operands.srcLen.toNat ∧ s.operands.dstCap.toNat < 32) := by
  refine ⟨⟨?_, ⟨?_, gaps, ?_⟩, ?_⟩, ⟨?_, ⟨?_, turboArray, ?_⟩, ?_⟩, ⟨?_, ⟨?_, tenArray, ?_⟩, ?_⟩,
    ⟨?_, ⟨?_, efArray, efBuffer, 43#32, rfl, rfl, ?_⟩, ?_⟩⟩ <;> decide +kernel

end Sys2Proof.Tests
end

