-- ==== Sys2Proof/Proofs/Zigzag.lean ====
section
/-! PROOFS. The zigzag code as arithmetic: `zz` and `unzz` said once as equations on naturals, for every
width, from which the signed formula and both inverses follow (spec/00_scope.md R15, R16). -/

namespace Sys2Proof.Machine

/-- `zz_W` on naturals: the even codes for the patterns with the sign bit clear, the odd codes for the others,
counted from the top. -/
theorem toNat_zz {w : Nat} (d : BitVec w) :
    (zz d).toNat = if d.msb then 2 * (2 ^ w - d.toNat) - 1 else 2 * d.toNat := by
  have hlt := d.isLt
  have hshift : (d <<< 1).toNat = 2 * d.toNat % 2 ^ w := by
    rw [BitVec.toNat_shiftLeft, Nat.shiftLeft_eq, pow_one, Nat.mul_comm]
  cases hs : d.msb with
  | false =>
    have hsmall := BitVec.msb_eq_false_iff_two_mul_lt.mp hs
    simp [zz, hs, hshift, Nat.mod_eq_of_lt hsmall]
  | true =>
    have hbig := BitVec.msb_eq_true_iff_two_mul_ge.mp hs
    have hwrap : 2 * d.toNat % 2 ^ w = 2 * d.toNat - 2 ^ w := by
      rw [Nat.mod_eq_sub_mod hbig, Nat.mod_eq_of_lt (by omega)]
    simp only [zz, hs, if_true, BitVec.xor_allOnes, BitVec.toNat_not, hshift, hwrap]
    omega

/-- `unzz_W` on naturals: the half of an even code, the complement of the half of an odd one. -/
theorem toNat_unzz {w : Nat} (u : BitVec w) :
    (unzz u).toNat = if u.toNat % 2 = 1 then 2 ^ w - 1 - u.toNat / 2 else u.toNat / 2 := by
  have hhalf : (u >>> 1).toNat = u.toNat / 2 := by
    rw [BitVec.toNat_ushiftRight, Nat.shiftRight_eq_div_pow, pow_one]
  have hodd : u.getLsbD 0 = decide (u.toNat % 2 = 1) := by
    rw [← BitVec.testBit_toNat, Nat.testBit_zero]
  by_cases h : u.toNat % 2 = 1 <;> simp [unzz, hodd, h, hhalf]

/-- The low bit of a zigzag code is the sign. -/
theorem toNat_zz_mod_two {w : Nat} (d : BitVec w) : (zz d).toNat % 2 = if d.msb then 1 else 0 := by
  have hlt := d.isLt
  rw [toNat_zz]
  split <;> omega

/-- The sign of a decoded difference is the low bit of its code. -/
theorem msb_unzz {w : Nat} (u : BitVec w) : (unzz u).msb = decide (u.toNat % 2 = 1) := by
  have hlt := u.isLt
  rw [Bool.eq_iff_iff, BitVec.msb_eq_true_iff_two_mul_ge, toNat_unzz, decide_eq_true_iff]
  split <;> omega

/-- R15: the signed formula. -/
theorem toNat_zz_eq_toInt {w : Nat} (d : BitVec w) :
    ((zz d).toNat : Int) = if 0 ≤ d.toInt then 2 * d.toInt else 2 * -d.toInt - 1 := by
  have hlt := d.isLt
  rw [toNat_zz, BitVec.toInt_eq_msb_cond]
  cases hs : d.msb with
  | false => simp
  | true =>
    have hneg : ¬ (0 ≤ (d.toNat : Int) - (2 ^ w : Nat)) := by omega
    simp only [if_true, if_neg hneg]
    omega

/-- R16: decoding undoes coding. -/
@[simp] theorem unzz_zz {w : Nat} (d : BitVec w) : unzz (zz d) = d := by
  apply BitVec.eq_of_toNat_eq
  have hlt := d.isLt
  rw [toNat_unzz, toNat_zz_mod_two, toNat_zz]
  cases d.msb with
  | false => simp
  | true => simp only [if_true]; omega

/-- Coding undoes decoding, so `zz_W` is a bijection on `W`-bit patterns (R15). -/
@[simp] theorem zz_unzz {w : Nat} (u : BitVec w) : zz (unzz u) = u := by
  apply BitVec.eq_of_toNat_eq
  have hlt := u.isLt
  rw [toNat_zz, msb_unzz, toNat_unzz]
  simp only [decide_eq_true_iff]
  split <;> omega

/-- Settles O36: the formula and both inverses hold at every width, so at the four of the unit. -/
theorem zigzagMap : Obligations.ZigzagMap := fun _ d => ⟨toNat_zz_eq_toInt d, unzz_zz d, zz_unzz d⟩

end Sys2Proof.Machine
end

