-- ==== Sys2Proof/Proofs/Pack.lean ====
section
/-! PROOFS. Little-endian bytes and packed fields as numbers (spec/00_scope.md R12 to R14): `LEV` undoes
`LE` up to the bits that `k` bytes hold, the packed fields fit their bytes, and dividing off one field at a time
reads them back. -/

namespace Sys2Proof.Machine

@[simp] theorem leBytes_length (k v : Nat) : (leBytes k v).length = k := by
  induction k generalizing v with
  | zero => rfl
  | succ k ih => simp [leBytes, ih]

/-- R14: `LEV` of `LE` is the number modulo what `k` bytes hold. -/
theorem leValue_leBytes (k v : Nat) : leValue (leBytes k v) = v % 2 ^ (8 * k) := by
  induction k generalizing v with
  | zero => simp [leBytes, leValue, Nat.mod_one]
  | succ k ih =>
    have hpow : 2 ^ (8 * (k + 1)) = 256 * 2 ^ (8 * k) := by rw [Nat.mul_succ, pow_add]; omega
    simp [leBytes, leValue, ih, hpow, Nat.mod_mul]

theorem leValue_leBytes_of_lt {k v : Nat} (h : v < 2 ^ (8 * k)) : leValue (leBytes k v) = v := by
  rw [leValue_leBytes, Nat.mod_eq_of_lt h]

/-- `ceil(n/8)` bytes hold `n` bits (R11). -/
theorem le_eight_mul_bytesFor (n : Nat) : n ≤ 8 * bytesFor n := by
  unfold bytesFor
  omega

/-- The packed number has `w` bits per field (R12). -/
theorem packNat_lt (w : Nat) (xs : List Nat) : packNat w xs < 2 ^ (w * xs.length) := by
  induction xs with
  | nil => simp [packNat]
  | cons x xs ih =>
    have hfield : x % 2 ^ w < 2 ^ w := Nat.mod_lt _ (Nat.two_pow_pos w)
    calc packNat w (x :: xs)
        < 2 ^ w + 2 ^ w * packNat w xs := Nat.add_lt_add_right hfield _
      _ = 2 ^ w * (packNat w xs + 1) := by ring
      _ ≤ 2 ^ w * 2 ^ (w * xs.length) := Nat.mul_le_mul_left _ ih
      _ = 2 ^ (w * (x :: xs).length) := by rw [List.length_cons, Nat.mul_succ, pow_add, Nat.mul_comm]

/-- Dividing off one field at a time reads the packed number back, each field modulo `2^w` (R13). -/
theorem unpackNat_packNat (w : Nat) (xs : List Nat) :
    unpackNat w xs.length (packNat w xs) = xs.map fun x => x % 2 ^ w := by
  induction xs with
  | nil => rfl
  | cons x xs ih =>
    have hpos := Nat.two_pow_pos w
    have hhead : packNat w (x :: xs) % 2 ^ w = x % 2 ^ w := by simp [packNat]
    have htail : packNat w (x :: xs) / 2 ^ w = packNat w xs := by
      rw [packNat, Nat.add_mul_div_left _ _ hpos, Nat.div_eq_of_lt (Nat.mod_lt _ hpos), Nat.zero_add]
    rw [List.length_cons, unpackNat, hhead, htail, ih, List.map_cons]

@[simp] theorem pack_length (w : Nat) (xs : List Nat) : (pack w xs).length = bytesFor (w * xs.length) :=
  leBytes_length _ _

/-- The bytes of `PACK` hold the whole packed number. -/
theorem leValue_pack (w : Nat) (xs : List Nat) : leValue (pack w xs) = packNat w xs :=
  leValue_leBytes_of_lt <|
    (packNat_lt w xs).trans_le (Nat.pow_le_pow_right two_pos (le_eight_mul_bytesFor _))

theorem unpack_pack (w : Nat) (xs : List Nat) : unpack w (pack w xs) xs.length = xs.map fun x => x % 2 ^ w := by
  rw [unpack, leValue_pack, unpackNat_packNat]

/-- Settles O39: the bytes hold the packed number, and the number gives its fields back. -/
theorem packUnpackFields : Obligations.PackUnpackFields := fun w xs => ⟨pack_length w xs, unpack_pack w xs⟩

end Sys2Proof.Machine
end

