-- ==== Sys2Proof/Proofs/HostSteps.lean ====
section
/-! PROOFS. What one event does, said once per event, and the statements about the host's accesses that follow
(spec/10_state.md R31 to R36, R44, R47). -/

namespace Sys2Proof.Machine

/-! ### Which register an offset reaches -/

/-- Offset `0x18 + 8*k` reaches the operand register number `k` (R31). -/
theorem hostRegAt_operand {k : Nat} (hk : k < 9) :
    ∃ r, hostRegAt (0x18 + 8 * k) = some (.operand r) ∧
      (∀ o, getOperand r o = (operandList o).getD k 0#64) ∧
      ∀ v o, operandList (setOperand r v o) = (operandList o).set k v :=
  match k, hk with
  | 0, _ => ⟨.srcBase, rfl, fun _ => rfl, fun _ _ => rfl⟩
  | 1, _ => ⟨.srcLen, rfl, fun _ => rfl, fun _ _ => rfl⟩
  | 2, _ => ⟨.dstBase, rfl, fun _ => rfl, fun _ _ => rfl⟩
  | 3, _ => ⟨.dstCap, rfl, fun _ => rfl, fun _ _ => rfl⟩
  | 4, _ => ⟨.n, rfl, fun _ => rfl, fun _ _ => rfl⟩
  | 5, _ => ⟨.seed, rfl, fun _ => rfl, fun _ _ => rfl⟩
  | 6, _ => ⟨.seed2, rfl, fun _ => rfl, fun _ _ => rfl⟩
  | 7, _ => ⟨.index, rfl, fun _ => rfl, fun _ _ => rfl⟩
  | 8, _ => ⟨.key, rfl, fun _ => rfl, fun _ _ => rfl⟩

/-- Offset `0x60 + 8*k` reaches the result register number `9 + k` (R31). -/
theorem hostRegAt_result {k : Nat} (hk : k < 5) :
    ∃ r, hostRegAt (0x60 + 8 * k) = some (.result r) ∧ ∀ o, getResult r o = (resultList o).getD k 0#64 :=
  match k, hk with
  | 0, _ => ⟨.res, rfl, fun _ => rfl⟩
  | 1, _ => ⟨.srcEnd, rfl, fun _ => rfl⟩
  | 2, _ => ⟨.dstEnd, rfl, fun _ => rfl⟩
  | 3, _ => ⟨.rseed, rfl, fun _ => rfl⟩
  | 4, _ => ⟨.rseed2, rfl, fun _ => rfl⟩

/-- `CMD` is reached at offset 0 only (R34). -/
theorem hostRegAt_eq_cmd {off : Nat} (h : hostRegAt off = some .cmd) : off = 0x00 := by
  unfold hostRegAt at h
  split at h <;> simp_all

/-- `CTRL` is reached at offset `0x10` only (R36). -/
theorem hostRegAt_eq_ctrl {off : Nat} (h : hostRegAt off = some .ctrl) : off = 0x10 := by
  unfold hostRegAt at h
  split at h <;> simp_all

/-! ### The event a step takes -/

/-- A step takes the first listed event. -/
@[simp] theorem step_cons (s : State) (e : Event) (es : List Event) :
    step { s with events := e :: es } = takeEvent e { s with events := es } := rfl

/-- A whole-register write reaches the register at its offset. -/
theorem step_regWrite {off : Nat} {r : HostReg} (h : hostRegAt off = some r) (s : State) (es : List Event)
    (v : Word) :
    step { s with events := .regWrite 8 off v :: es } = .next (hostWriteReg r v { s with events := es }) := by
  simp [takeEvent, accessedReg, h]

/-- A whole-register read reaches the register at its offset. -/
theorem step_regRead {off : Nat} {r : HostReg} (h : hostRegAt off = some r) (s : State) (es : List Event) :
    step { s with events := .regRead 8 off :: es } = .next (hostReadReg r { s with events := es }) := by
  simp [takeEvent, accessedReg, h]

/-! ### Register accesses -/

/-- A write to `CMD` starts a command in `IDLE` and `DONE` (R34, R43). -/
theorem hostWriteReg_cmd_ready {s : State} (h : s.status = .idle ∨ s.status = .done) (v : Word) :
    hostWriteReg .cmd v s = { s with cmd := v.setWidth 32, status := .busy } := by
  rcases h with h | h <;> simp [hostWriteReg, h]

/-- A write to `CMD` is ignored in `BUSY` and `FAULT` (R34, spec/60_exceptions.md R292). -/
theorem hostWriteReg_cmd_ignored {s : State} (h : s.status = .busy ∨ ∃ f, s.status = .fault f) (v : Word) :
    hostWriteReg .cmd v s = s := by
  rcases h with h | ⟨f, h⟩ <;> simp [hostWriteReg, h]

/-- A write to an operand register is ignored in `BUSY` (R32). -/
theorem hostWriteReg_operand_busy {s : State} (h : s.status = .busy) (r : OperandReg) (v : Word) :
    hostWriteReg (.operand r) v s = s := by
  simp [hostWriteReg, h]

/-- A write to an operand register outside `BUSY` (R32). -/
theorem hostWriteReg_operand_quiet {s : State} (h : s.status ≠ .busy) (r : OperandReg) (v : Word) :
    hostWriteReg (.operand r) v s = { s with operands := setOperand r v s.operands } := by
  cases hs : s.status with
  | busy => exact absurd hs h
  | idle | done | fault f => simp [hostWriteReg, hs]

/-- A write to `CTRL` with bit 0 clear is ignored (R36). -/
theorem hostWriteReg_ctrl_clear {v : Word} (h : v.getLsbD 0 = false) (s : State) :
    hostWriteReg .ctrl v s = s := by
  simp only [hostWriteReg, h]
  rfl

/-- A read of a result register outside `BUSY` (R32). -/
theorem hostReadReg_result_quiet {s : State} (h : s.status ≠ .busy) (r : ResultReg) :
    hostReadReg (.result r) s = { s with readData := getResult r s.results } := by
  cases hs : s.status with
  | busy => exact absurd hs h
  | idle | done | fault f => simp [hostReadReg, hs]

/-- A read of a register changes what the read returned and the count of draws, nothing else. -/
theorem hostReadReg_frame (r : HostReg) (s : State) :
    ∃ v d, hostReadReg r s = { s with readData := v, draws := d } := by
  cases r with
  | cmd | status | ctrl | operand r => exact ⟨_, s.draws, rfl⟩
  | result r =>
    by_cases h : s.status = .busy
    · exact ⟨_, _, by simp only [hostReadReg, h]; rfl⟩
    · exact ⟨_, s.draws, hostReadReg_result_quiet h r⟩

/-- Everything a host write to a register can do: nothing, start a command, reset the unit, or write one operand
register of a unit that is not `BUSY`. -/
theorem hostWriteReg_cases (r : HostReg) (v : Word) (s : State) :
    hostWriteReg r v s = s ∨
    (r = .cmd ∧ (s.status = .idle ∨ s.status = .done) ∧
      hostWriteReg r v s = { s with cmd := v.setWidth 32, status := .busy }) ∨
    (r = .ctrl ∧ v.getLsbD 0 = true ∧ hostWriteReg r v s = resetUnit (currentWrites s) s) ∨
    (s.status ≠ .busy ∧ ∃ o, hostWriteReg r v s = { s with operands := o }) := by
  cases r with
  | status => exact .inl rfl
  | result r => exact .inl rfl
  | cmd =>
    cases h : s.status with
    | idle => exact .inr (.inl ⟨rfl, .inl rfl, hostWriteReg_cmd_ready (.inl h) v⟩)
    | done => exact .inr (.inl ⟨rfl, .inr rfl, hostWriteReg_cmd_ready (.inr h) v⟩)
    | busy => exact .inl (hostWriteReg_cmd_ignored (.inl h) v)
    | fault f => exact .inl (hostWriteReg_cmd_ignored (.inr ⟨f, h⟩) v)
  | ctrl =>
    cases h : v.getLsbD 0 with
    | false => exact .inl (hostWriteReg_ctrl_clear h s)
    | true => exact .inr (.inr (.inl ⟨rfl, rfl, by simp only [hostWriteReg, h, if_true]⟩))
  | operand r =>
    by_cases h : s.status = .busy
    · exact .inl (hostWriteReg_operand_busy h r v)
    · exact .inr (.inr (.inr ⟨h, _, hostWriteReg_operand_quiet h r v⟩))

/-- The two fields of the `STATUS` word, as a number (R35). -/
theorem toNat_statusWord (st : Status) :
    (statusWord st).toNat = (stateField st).toNat + 16 * (fcodeField st).toNat := by
  cases st with
  | idle | busy | done => rfl
  | fault f => cases f <;> rfl

/-! ### Memory accesses by another agent -/

/-- An agent's write outside `BUSY` leaves no mark (R44). -/
theorem agentWriteByte_quiet {s : State} (h : s.status ≠ .busy) (a : Nat) (b : Byte) :
    agentWriteByte a b s = { s with mem := s.mem.write a b } := by
  cases hs : s.status with
  | busy => exact absurd hs h
  | idle | done | fault f => simp [agentWriteByte, hs]

/-- An agent's write while `BUSY` leaves its marks (spec/70_reset_and_hazards.md R316). -/
theorem agentWriteByte_busy {s : State} (h : s.status = .busy) (a : Nat) (b : Byte) :
    agentWriteByte a b s =
      { s with
        mem := s.mem.write a b
        srcTouched := s.srcTouched || (currentReads s && inSrcWindow s.operands a)
        dstTouched :=
          if currentWrites s && inDstWindow s.operands a then a :: s.dstTouched else s.dstTouched } := by
  simp only [agentWriteByte, h]

@[simp] theorem agentWriteByte_status (a : Nat) (b : Byte) (s : State) :
    (agentWriteByte a b s).status = s.status := by
  by_cases h : s.status = .busy
  · rw [agentWriteByte_busy h]
  · rw [agentWriteByte_quiet h]

/-- An agent's read outside `BUSY` returns the byte (R44). -/
theorem agentReadByte_quiet {s : State} (h : s.status ≠ .busy) (a : Nat) :
    agentReadByte a s = { s with readData := (s.mem.read a).setWidth 64 } := by
  simp [agentReadByte, h]

/-- An agent's read changes what the read returned and the count of draws, nothing else. -/
theorem agentReadByte_frame (a : Nat) (s : State) :
    ∃ v d, agentReadByte a s = { s with readData := v, draws := d } := by
  unfold agentReadByte
  split
  · exact ⟨_, _, rfl⟩
  · exact ⟨_, s.draws, rfl⟩

/-! ### The unit's turn -/

/-- The unit's turn in `BUSY` is its execute step (R45). -/
theorem unitTurn_busy {s : State} (h : s.status = .busy) : unitTurn s = execute s := by
  simp only [unitTurn, h]

/-- The unit's turn outside `BUSY` changes nothing (spec/60_exceptions.md R300). -/
theorem unitTurn_quiet {s : State} (h : s.status ≠ .busy) : unitTurn s = .next s := by
  cases hs : s.status with
  | busy => exact absurd hs h
  | idle | done | fault f => simp only [unitTurn, hs]

/-- The execute step of a legal word whose windows nobody touched is the meaning of its command. -/
theorem execute_of_untouched {s : State} {i : Instr} (hd : decode s.cmd = .ok i) (hu : untouched s = true) :
    execute s = exec i s := by
  simp only [execute, hd, hu, if_true]

/-- The execute step of an illegal word (spec/60_exceptions.md R282). -/
theorem execute_of_illegal {s : State} {e : DecodeError} (hd : decode s.cmd = .error e) :
    execute s = .next (raise .illegalCmd false (clearTouched s)) := by
  simp only [execute, hd]

/-- A step with no event listed is the unit's turn. -/
theorem step_of_no_events {s : State} (h : s.events = []) : step s = unitTurn s := by
  simp only [step, h]

/-! ### Everything a step can do -/

/-- Everything an event that is answered can do: a write of a register, a read, a write of a byte that exists, the
hardware reset, the unit's turn. -/
theorem takeEvent_cases {e : Event} {s t : State} (h : takeEvent e s = .next t) :
    (∃ off r v, e = .regWrite 8 off v ∧ hostRegAt off = some r ∧ t = hostWriteReg r v s) ∨
    (∃ v d, t = { s with readData := v, draws := d }) ∨
    (∃ a b, a < addressLimit ∧ t = agentWriteByte a b s) ∨
    (e = .hardReset ∧ t = resetUnit false s) ∨
    (e = .unitTurn ∧ unitTurn s = .next t) := by
  cases e with
  | regWrite size off v =>
    by_cases hsize : size = 8
    · cases hr : hostRegAt off with
      | none => simp [takeEvent, accessedReg, hr] at h
      | some r =>
        subst hsize
        simp only [takeEvent, accessedReg, if_true, hr, Host.Outcome.next.injEq] at h
        exact .inl ⟨off, r, v, rfl, hr, h.symm⟩
    · simp [takeEvent, accessedReg, hsize] at h
  | regRead size off =>
    cases hr : accessedReg size off with
    | none => simp [takeEvent, hr] at h
    | some r =>
      simp only [takeEvent, hr, Host.Outcome.next.injEq] at h
      obtain ⟨v, d, hread⟩ := hostReadReg_frame r s
      exact .inr (.inl ⟨v, d, h.symm.trans hread⟩)
  | memWrite a b =>
    by_cases ha : a < addressLimit
    · simp only [takeEvent, if_pos ha, Host.Outcome.next.injEq] at h
      exact .inr (.inr (.inl ⟨a, b, ha, h.symm⟩))
    · simp only [takeEvent, if_neg ha, reduceCtorEq] at h
  | memRead a =>
    by_cases ha : a < addressLimit
    · simp only [takeEvent, if_pos ha, Host.Outcome.next.injEq] at h
      obtain ⟨v, d, hread⟩ := agentReadByte_frame a s
      exact .inr (.inl ⟨v, d, h.symm.trans hread⟩)
    · simp only [takeEvent, if_neg ha, reduceCtorEq] at h
  | hardReset =>
    cases h
    exact .inr (.inr (.inr (.inl ⟨rfl, rfl⟩)))
  | unitTurn => exact .inr (.inr (.inr (.inr ⟨rfl, h⟩)))

/-- A step is the unit's turn when no event is listed, and the first event otherwise. -/
theorem step_cases {s t : State} (h : step s = .next t) :
    (s.events = [] ∧ unitTurn s = .next t) ∨
    ∃ e es, s.events = e :: es ∧ takeEvent e { s with events := es } = .next t := by
  cases hes : s.events with
  | nil => exact .inl ⟨rfl, step_of_no_events hes ▸ h⟩
  | cons e es => exact .inr ⟨e, es, rfl, by simpa only [step, hes] using h⟩

/-! ### The statements about the host's accesses -/

/-- Settles O5: both forms of the unit's turn are the execute step of the same busy unit. -/
theorem stepRunsDecoded : Obligations.StepRunsDecoded := by
  intro s i es hbusy hu hd
  have turn (es : List Event) : unitTurn { s with events := es } = exec i { s with events := es } :=
    (unitTurn_busy (s := { s with events := es }) hbusy).trans (execute_of_untouched hd hu)
  exact ⟨turn [], turn es⟩

/-- Settles O13. -/
theorem resetValues : Obligations.ResetValues := by
  refine ⟨?_, ?_, rfl, rfl⟩
  · simp [operandList, State.reset]
  · simp [resultList, State.reset]

/-- Settles O16. -/
theorem cmdWriteStarts : Obligations.CmdWriteStarts := by
  intro s es v
  rw [step_regWrite (r := .cmd) rfl]
  refine ⟨fun h => ?_, fun h => ?_⟩
  · rw [hostWriteReg_cmd_ready (s := { s with events := es }) h]
  · rw [hostWriteReg_cmd_ignored (s := { s with events := es }) h]

/-- Settles O17. -/
theorem operandWrites : Obligations.OperandWrites := by
  intro s es v k hk
  obtain ⟨r, hr, _, hset⟩ := hostRegAt_operand hk
  rw [step_regWrite hr]
  refine ⟨fun h => ⟨setOperand r v s.operands, ?_, hset v s.operands⟩, fun h => ?_⟩
  · rw [hostWriteReg_operand_quiet (s := { s with events := es }) h]
  · rw [hostWriteReg_operand_busy (s := { s with events := es }) h]

/-- Settles O18. -/
theorem ignoredWrites : Obligations.IgnoredWrites := by
  intro s es v off hoff
  rcases hoff with rfl | ⟨rfl, hv⟩ | ⟨k, hk, rfl⟩
  · exact step_regWrite (r := .status) rfl s es v
  · rw [step_regWrite (r := .ctrl) rfl, hostWriteReg_ctrl_clear hv]
  · obtain ⟨r, hr, _⟩ := hostRegAt_result hk
    exact step_regWrite hr s es v

/-- Settles O19. -/
theorem registerReads : Obligations.RegisterReads := by
  intro s es
  refine ⟨fun k hk => ?_, fun k hk hs => ?_, fun k hk _ => ?_, ?_, ?_⟩
  · obtain ⟨r, hr, hget, _⟩ := hostRegAt_operand hk
    rw [step_regRead hr, ← hget]
    rfl
  · obtain ⟨r, hr, hget⟩ := hostRegAt_result hk
    rw [step_regRead hr, hostReadReg_result_quiet (s := { s with events := es }) hs, ← hget]
  · obtain ⟨r, hr, _⟩ := hostRegAt_result hk
    obtain ⟨v, d, hread⟩ := hostReadReg_frame (.result r) { s with events := es }
    exact ⟨v, d, by rw [step_regRead hr, hread]⟩
  · exact ⟨_, step_regRead (r := .cmd) rfl s es, BitVec.toNat_setWidth_of_le (by decide), rfl⟩
  · exact step_regRead (r := .ctrl) rfl s es

/-- Settles O20. -/
theorem statusReadWord : Obligations.StatusReadWord := by
  intro s es
  refine ⟨_, step_regRead (r := .status) rfl s es, rfl, (toNat_statusWord s.status).trans ?_⟩
  cases s.status with
  | idle | busy | done => rfl
  | fault f => cases f <;> rfl

/-- Settles O21. -/
theorem hostMemoryAccess : Obligations.HostMemoryAccess := by
  intro s es a b hs
  simp only [step_cons, takeEvent]
  refine ⟨fun ha => ⟨⟨s.mem.write a b, ?_, read_write_same _ _ _, fun x hx => read_write_other _ _ _ _ hx⟩,
    ⟨(s.mem.read a).setWidth 64, ?_, BitVec.toNat_setWidth_of_le (by decide)⟩⟩, fun ha => ⟨?_, ?_⟩⟩
  · rw [if_pos ha, agentWriteByte_quiet (s := { s with events := es }) hs]
  · rw [if_pos ha, agentReadByte_quiet (s := { s with events := es }) hs]
  · exact if_neg (Nat.not_lt.mpr ha)
  · exact if_neg (Nat.not_lt.mpr ha)

end Sys2Proof.Machine
end

