-- ==== Sys2Proof/Proofs/Invariant.lean ====
section
/-! PROOFS. What the unit's turn leaves, said once for every word, and from it the invariant of the machine and the
moves of `STATUS` (spec/10_state.md R43, R45; spec/70_reset_and_hazards.md R316). -/

namespace Sys2Proof.Machine

/-! ### How a command ends -/

/-- The status a decoded command ends with: `DONE`, or a fault other than `ILLEGAL_CMD`. -/
def Finished (t : State) : Prop := t.status = .done ∨ ∃ f, f ≠ .illegalCmd ∧ t.status = .fault f

/-- A raised fault other than `ILLEGAL_CMD` ends a decoded command. -/
theorem finished_raise {f : FaultCode} (h : f ≠ .illegalCmd) (writes : Bool) (s : State) :
    Finished (raise f writes s) :=
  .inr ⟨f, h, raise_status f writes s⟩

theorem finished_completeFree (writes : Bool) (s : State) : Finished (completeFree writes s) :=
  .inl (completeFree_status writes s)

theorem finished_malformedOutcome (writes : Bool) (need : Nat) (s : State) :
    Finished (malformedOutcome writes need s) := by
  obtain ⟨t, _, h | ⟨_, _, h⟩ | ⟨_, h⟩⟩ := malformedOutcome_cases writes need s <;> rw [h]
  · exact finished_raise (by decide) _ _
  · exact finished_raise (by decide) _ _
  · exact finished_completeFree _ _

theorem finished_contractOutcome (need : Nat) (s : State) : Finished (contractOutcome need s) := by
  obtain h | ⟨_, _, _, h⟩ := contractOutcome_cases need s <;> rw [h]
  · exact finished_raise (by decide) _ _
  · exact .inl rfl

theorem finished_touchedOutcome (writes : Bool) (s : State) : Finished (touchedOutcome writes s) := by
  obtain ⟨t, _, h | ⟨_, h⟩ | h⟩ := touchedOutcome_cases writes s <;> rw [h]
  · exact finished_completeFree _ _
  · exact finished_raise (by decide) _ _
  · exact finished_raise (by decide) _ _

theorem finished_runCommand (i : Instr) (rule : Except Stop Output) (s : State) :
    Finished (runCommand i rule s) := by
  rcases runCommand_cases i rule s with
      ⟨_, h⟩ | ⟨_, ⟨_, _, _, h⟩ | ⟨_, _, _, h⟩ | ⟨_, h⟩ | ⟨_, h⟩ | ⟨_, h⟩⟩ <;>
    rw [h]
  · exact finished_raise (by decide) _ _
  · exact finished_raise (by decide) _ _
  · exact .inl (complete_status _ _)
  · exact finished_raise (by decide) _ _
  · exact finished_malformedOutcome _ _ _
  · exact finished_contractOutcome _ _

/-- Every command answers a next state, in which it has ended and kept what `Kept` lists. -/
theorem exec_ends (i : Instr) (s : State) :
    ∃ t, exec i s = .next t ∧ Finished t ∧ Kept (writesMem i) s t := by
  obtain ⟨rule, hexec, hsilent⟩ := exec_eq_runCommand i s
  exact ⟨_, hexec, finished_runCommand i rule s, runCommand_kept i rule s hsilent⟩

/-! ### Touched windows -/

/-- The marks an agent's writes may leave: addresses in the destination window of a command that writes memory
(spec/70_reset_and_hazards.md R316). -/
def MarksInWindow (s : State) : Prop :=
  ∀ a ∈ s.dstTouched, currentWrites s = true ∧ inDstWindow s.operands a = true

/-- A unit without marks has none to drop. -/
theorem clearTouched_of_untouched {s : State} (h : untouched s = true) : clearTouched s = s := by
  obtain ⟨hsrc, hdst⟩ : s.srcTouched = false ∧ s.dstTouched = [] := by simpa [untouched] using h
  unfold clearTouched
  rw [← hsrc, ← hdst]

/-- A legal command in `CMD` is the one whose window the marks speak of. -/
theorem currentWrites_of_decode {s : State} {i : Instr} (h : decode s.cmd = .ok i) :
    currentWrites s = writesMem i := by
  simp only [currentWrites, currentInstr, h]
  rfl

/-- Freeing bytes of the destination window keeps what the end of a command keeps. -/
theorem Kept.freeTouched {writes : Bool} {s t : State} {as : List Nat} (h : Kept writes s t)
    (hmarks : ∀ a ∈ as, writes = true ∧ inDstWindow s.operands a = true)
    (hvalid : writes = true → s.operands.dstBase.toNat + s.operands.dstCap.toNat ≤ addressLimit) :
    Kept writes s (freeTouched as t) := by
  cases as with
  | nil => exact h
  | cons a as =>
    obtain ⟨m, d, heq, hread, hwf⟩ := freeTouched_frame (a :: as) t
    have hwrites : writes = true := (hmarks a List.mem_cons_self).1
    have hexists : ∀ x ∈ a :: as, x < addressLimit := fun x hx => by
      have hin := (inDstWindow_eq_true _ _).mp (hmarks x hx).2
      have hend := hvalid hwrites
      omega
    have hout : ∀ x, inDstWindow s.operands x = false → x ∉ a :: as := fun x hx hmem => by
      simpa [hx] using (hmarks x hmem).2
    rw [heq]
    exact ⟨h.operands, h.cmd, h.events, h.readData, h.srcTouched, h.dstTouched,
      fun hw => absurd (hw.symm.trans hwrites) Bool.false_ne_true,
      fun x hx => (hread x (hout x hx)).trans (h.outside x hx), fun hm => hwf hexists (h.canonical hm)⟩

/-- Freeing touched bytes leaves the status alone. -/
theorem finished_freeTouched {t : State} (as : List Nat) (h : Finished t) : Finished (freeTouched as t) := by
  obtain ⟨m, d, heq, _⟩ := freeTouched_frame as t
  rw [heq]
  exact h

/-- Whatever other agents touched, the command ends, and keeps what `Kept` lists of the state without marks. -/
theorem executeTouched_ends (i : Instr) (s : State) :
    ∃ t, executeTouched i s = .next t ∧ Finished t ∧
      ((∀ a ∈ s.dstTouched, writesMem i = true ∧ inDstWindow s.operands a = true) →
        Kept (writesMem i) (clearTouched s) t) := by
  obtain ⟨t, hexec, hfin, hkept⟩ := exec_ends i (clearTouched s)
  unfold executeTouched
  cases harg : argFault i s.operands with
  | true => exact ⟨t, hexec, hfin, fun _ => hkept⟩
  | false =>
    cases s.srcTouched with
    | true => exact ⟨_, rfl, finished_touchedOutcome _ _, fun _ => touchedOutcome_kept _ _⟩
    | false =>
      refine ⟨freeTouched s.dstTouched t, ?_, finished_freeTouched _ hfin, fun hmarks => ?_⟩
      · simp [hexec, settleTouched]
      · exact hkept.freeTouched hmarks (dstValid_of_argFault harg)

/-- The execute step of a legal word, with the marks in the destination window: the command ends, and what is kept
is kept of the state without marks. -/
theorem execute_ends {s : State} {i : Instr} (hd : decode s.cmd = .ok i) :
    ∃ t, execute s = .next t ∧ Finished t ∧ (MarksInWindow s → Kept (writesMem i) (clearTouched s) t) := by
  cases hu : untouched s with
  | true =>
    obtain ⟨t, hexec, hfin, hkept⟩ := exec_ends i s
    refine ⟨t, (execute_of_untouched hd hu).trans hexec, hfin, fun _ => ?_⟩
    rwa [clearTouched_of_untouched hu]
  | false =>
    have heq : execute s = executeTouched i s := by simp [execute, hd, hu]
    rw [heq, MarksInWindow, currentWrites_of_decode hd]
    exact executeTouched_ends i s

/-! ### The invariant -/

/-- The invariant speaks neither of the draws nor of the host's own fields. -/
theorem Inv.setReadData {s : State} (h : Inv s) (v : Word) (d : Nat) :
    Inv { s with readData := v, draws := d } :=
  ⟨h.memory, h.idle, h.done, h.illegal, h.faulted, h.quiet, h.marks⟩

theorem Inv.setEvents {s : State} (h : Inv s) (es : List Event) : Inv { s with events := es } :=
  ⟨h.memory, h.idle, h.done, h.illegal, h.faulted, h.quiet, h.marks⟩

/-- The marks of a unit that meets the invariant lie in the destination window. -/
theorem Inv.marksInWindow {s : State} (h : Inv s) : MarksInWindow s := fun a ha => (h.marks a ha).2

/-- A busy unit meets the invariant by its memory and its marks alone. -/
theorem Inv.of_busy {s : State} (hbusy : s.status = .busy) (hmem : s.mem.wf = true)
    (hmarks : ∀ a ∈ s.dstTouched, a < addressLimit ∧ currentWrites s = true ∧ inDstWindow s.operands a = true) :
    Inv s where
  memory := hmem
  idle h := by simp [hbusy] at h
  done h := by simp [hbusy] at h
  illegal h := by simp [hbusy] at h
  faulted f h := by simp [hbusy] at h
  quiet h := absurd hbusy h
  marks := hmarks

/-- After a reset the invariant holds. -/
theorem inv_resetUnit {s : State} (leavesFree : Bool) (h : s.mem.wf = true) : Inv (resetUnit leavesFree s) where
  memory := by
    unfold resetUnit
    split
    · exact wf_freeDstWindow h
    · exact h
  idle _ := ⟨rfl, rfl⟩
  done h := by cases h
  illegal h := by cases h
  faulted _ h := by cases h
  quiet _ := ⟨rfl, rfl⟩
  marks _ ha := by cases ha

/-- A unit whose decoded command has ended meets the invariant. -/
theorem Inv.of_finished {t : State} (hfin : Finished t) (hlegal : CmdLegal t) (hmem : t.mem.wf = true)
    (hsrc : t.srcTouched = false) (hdst : t.dstTouched = []) : Inv t where
  memory := hmem
  idle h := by rcases hfin with hs | ⟨f, _, hs⟩ <;> cases hs.symm.trans h
  done _ := hlegal
  illegal h := by
    rcases hfin with hs | ⟨f, hne, hs⟩
    · cases hs.symm.trans h
    · cases hs.symm.trans h
      exact absurd rfl hne
  faulted _ _ _ := hlegal
  quiet _ := ⟨hsrc, hdst⟩
  marks a ha := by simp [hdst] at ha

/-- A unit that has raised `ILLEGAL_CMD` on an illegal word meets the invariant. -/
theorem Inv.of_illegal {t : State} (hs : t.status = .fault .illegalCmd) (hillegal : ¬ CmdLegal t)
    (hmem : t.mem.wf = true) (hsrc : t.srcTouched = false) (hdst : t.dstTouched = []) : Inv t where
  memory := hmem
  idle h := by cases hs.symm.trans h
  done h := by cases hs.symm.trans h
  illegal _ := hillegal
  faulted f h hne := by
    cases hs.symm.trans h
    exact absurd rfl hne
  quiet _ := ⟨hsrc, hdst⟩
  marks a ha := by simp [hdst] at ha

/-- The execute step keeps the invariant. -/
theorem inv_execute {s t : State} (h : Inv s) (ht : execute s = .next t) : Inv t := by
  cases hd : decode s.cmd with
  | error e =>
    cases (execute_of_illegal hd).symm.trans ht
    refine Inv.of_illegal rfl ?_ h.memory rfl rfl
    rintro ⟨i, hi⟩
    cases hd.symm.trans hi
  | ok i =>
    obtain ⟨t', heq, hfin, hkept⟩ := execute_ends hd
    cases heq.symm.trans ht
    have k := hkept h.marksInWindow
    exact Inv.of_finished hfin ⟨i, by rw [k.cmd]; exact hd⟩ (k.canonical h.memory) k.srcTouched k.dstTouched

/-- The unit's turn keeps the invariant. -/
theorem inv_unitTurn {s t : State} (h : Inv s) (ht : unitTurn s = .next t) : Inv t := by
  by_cases hs : s.status = .busy
  · exact inv_execute h (unitTurn_busy hs ▸ ht)
  · cases (unitTurn_quiet hs).symm.trans ht
    exact h

/-- A host write to a register keeps the invariant: a new word or new operands meet no mark, for marks exist only
while BUSY. -/
theorem inv_hostWriteReg {s : State} (h : Inv s) (r : HostReg) (v : Word) : Inv (hostWriteReg r v s) := by
  obtain heq | ⟨_, hready, heq⟩ | ⟨_, _, heq⟩ | ⟨hquiet, o, heq⟩ := hostWriteReg_cases r v s <;>
    rw [heq]
  · exact h
  · have hdst : s.dstTouched = [] := (h.quiet (by rcases hready with hs | hs <;> simp [hs])).2
    exact Inv.of_busy rfl h.memory fun a ha => by simp [hdst] at ha
  · exact inv_resetUnit _ h.memory
  · have hdst : s.dstTouched = [] := (h.quiet hquiet).2
    exact ⟨h.memory, h.idle, h.done, h.illegal, h.faulted, h.quiet, fun a ha => by simp [hdst] at ha⟩

/-- Another agent's write of a byte that exists keeps the invariant: its mark lies in the window. -/
theorem inv_agentWriteByte {s : State} (h : Inv s) {a : Nat} (ha : a < addressLimit) (b : Byte) :
    Inv (agentWriteByte a b s) := by
  have hmem : (s.mem.write a b).wf = true := wf_write ha h.memory
  by_cases hs : s.status = .busy
  · rw [agentWriteByte_busy hs]
    refine Inv.of_busy hs hmem fun x hx => ?_
    split at hx
    · rename_i hin
      rcases List.mem_cons.mp hx with rfl | hx
      · exact ⟨ha, Bool.and_eq_true_iff.mp hin⟩
      · exact h.marks x hx
    · exact h.marks x hx
  · rw [agentWriteByte_quiet hs]
    exact ⟨hmem, h.idle, h.done, h.illegal, h.faulted, h.quiet, h.marks⟩

/-- Every event keeps the invariant. -/
theorem inv_takeEvent {e : Event} {s t : State} (h : Inv s) (ht : takeEvent e s = .next t) : Inv t := by
  obtain ⟨off, r, v, _, _, rfl⟩ | ⟨v, d, rfl⟩ | ⟨a, b, ha, rfl⟩ | ⟨_, rfl⟩ | ⟨_, hturn⟩ := takeEvent_cases ht
  · exact inv_hostWriteReg h r v
  · exact h.setReadData v d
  · exact inv_agentWriteByte h ha b
  · exact inv_resetUnit false h.memory
  · exact inv_unitTurn h hturn

/-- Settles O6: the unit's turn keeps the invariant, and so does every event. -/
theorem stepKeepsInvariant : Obligations.StepKeepsInvariant := by
  intro s t h ht
  obtain ⟨_, hturn⟩ | ⟨e, es, _, htake⟩ := step_cases ht
  · exact inv_unitTurn h hturn
  · exact inv_takeEvent (h.setEvents es) htake

/-- Settles O7: a reset of the state at reset leaves it as it is. -/
theorem resetMeetsInvariant : Obligations.ResetMeetsInvariant :=
  inv_resetUnit (s := State.reset) false wf_reset

/-! ### The moves of `STATUS` -/

/-- The execute step ends in `DONE` or `FAULT`, on every word (R43, R45). -/
theorem execute_status {s t : State} (ht : execute s = .next t) : t.status = .done ∨ ∃ f, t.status = .fault f := by
  cases hd : decode s.cmd with
  | error e =>
    cases (execute_of_illegal hd).symm.trans ht
    exact .inr ⟨_, rfl⟩
  | ok i =>
    obtain ⟨t', heq, hfin, _⟩ := execute_ends hd
    cases heq.symm.trans ht
    exact hfin.imp_right fun ⟨f, _, hf⟩ => ⟨f, hf⟩

/-- The unit's turn moves `STATUS` out of `BUSY` and out of no other state. -/
theorem unitTurn_status {s t : State} (ht : unitTurn s = .next t) :
    t.status = s.status ∨ (s.status = .busy ∧ (t.status = .done ∨ ∃ f, t.status = .fault f)) := by
  by_cases hs : s.status = .busy
  · exact .inr ⟨hs, execute_status (unitTurn_busy hs ▸ ht)⟩
  · cases (unitTurn_quiet hs).symm.trans ht
    exact .inl rfl

/-- Settles O11: of the events only a write to `CMD` or `CTRL`, a hardware reset and the unit's turn move
`STATUS`. -/
theorem statusTransitions : Obligations.StatusTransitions := by
  intro s t ht
  obtain ⟨hnone, hturn⟩ | ⟨e, es, hes, htake⟩ := step_cases ht
  · exact (unitTurn_status hturn).imp_right fun ⟨hbusy, hend⟩ => .inr (.inl ⟨hbusy, hend, .inl hnone⟩)
  · obtain ⟨off, r, v, rfl, hr, rfl⟩ | ⟨v, d, rfl⟩ | ⟨a, b, _, rfl⟩ | ⟨rfl, rfl⟩ | ⟨rfl, hturn⟩ :=
      takeEvent_cases htake
    · obtain heq | ⟨rfl, hready, heq⟩ | ⟨rfl, hv, heq⟩ | ⟨_, o, heq⟩ :=
        hostWriteReg_cases r v { s with events := es }
      · exact .inl (by rw [heq])
      · obtain rfl := hostRegAt_eq_cmd hr
        exact .inr (.inl ⟨hready, by rw [heq], v, es, hes, by rw [heq]⟩)
      · obtain rfl := hostRegAt_eq_ctrl hr
        exact .inr (.inr (.inr ⟨by rw [heq]; rfl, es, .inr ⟨v, hv, hes⟩⟩))
      · exact .inl (by rw [heq])
    · exact .inl rfl
    · exact .inl (agentWriteByte_status a b _)
    · exact .inr (.inr (.inr ⟨rfl, es, .inl hes⟩))
    · exact (unitTurn_status hturn).imp_right fun ⟨hbusy, hend⟩ => .inr (.inl ⟨hbusy, hend, .inr ⟨es, hes⟩⟩)

end Sys2Proof.Machine
end

