-- ==== Sys2Proof/Proofs/Noninterference.lean ====
section
/-! PROOFS. The outcome of a command as a function of its inputs (spec/10_state.md R48): every rule reads memory
through `srcRead` alone, so two states with the same operands and the same source bytes give the same rule, and
each end of a command then makes the same values or leaves the old ones. -/

namespace Sys2Proof.Machine

/-! ### Source windows that read the same -/

/-- Two source windows of one length that answer every `SrcRead` alike (spec/20_memory.md R74). -/
structure SameReads (v v' : Src) : Prop where
  len : v.len = v'.len
  read : srcRead v = srcRead v'

/-- Windows that agree on the bytes they hold answer every `SrcRead` alike. -/
theorem SameReads.of_bytes {v v' : Src} (hlen : v.len = v'.len)
    (hbyte : ∀ off, off < v.len → v.byte off = v'.byte off) : SameReads v v' := by
  refine ⟨hlen, funext fun off => funext fun k => ?_⟩
  simp only [srcRead, ← hlen]
  split
  · rfl
  · rw [bytesFrom_congr fun j _ hj => hbyte j (by omega)]

section Readers

variable {v v' : Src} (h : SameReads v v')
include h

theorem srcElements_congr (w n : Nat) : srcElements v w n = srcElements v' w n := by
  simp only [srcElements, h.read]

theorem vbScan_congr (fuel pos : Nat) : vbScan v fuel pos = vbScan v' fuel pos := by
  induction fuel generalizing pos with
  | zero => rfl
  | succ fuel ih => simp only [vbScan, h.read, ih]

theorem vbValueBytes_congr (pos : Nat) : vbValueBytes v pos = vbValueBytes v' pos := by
  simp only [vbValueBytes, h.len, vbScan_congr h]

theorem vbGetAll_congr (w n pos : Nat) : vbGetAll v w n pos = vbGetAll v' w n pos := by
  induction n generalizing pos with
  | zero => rfl
  | succ n ih => simp only [vbGetAll, vbGet, vbValueBytes_congr h, ih]

theorem tbPayloads_congr (w : Nat) (cs : List Nat) (pos : Nat) : tbPayloads v w cs pos = tbPayloads v' w cs pos := by
  induction cs generalizing pos with
  | nil => rfl
  | cons c cs ih => simp only [tbPayloads, h.read, ih]

theorem tbGroups_congr (w g groups left pos : Nat) :
    tbGroups v w g groups left pos = tbGroups v' w g groups left pos := by
  induction groups generalizing left pos with
  | zero => rfl
  | succ groups ih => simp only [tbGroups, h.read, tbPayloads_congr h, ih]

theorem pfBlocks_congr (w b blocks left pos : Nat) :
    pfBlocks v w b blocks left pos = pfBlocks v' w b blocks left pos := by
  induction blocks generalizing left pos with
  | zero => rfl
  | succ blocks ih => simp only [pfBlocks, pfUnblock, h.read, ih]

theorem efBlocks_congr (w st b blocks left : Nat) (p : BitVec w) (pos : Nat) :
    efBlocks v w st b blocks left p pos = efBlocks v' w st b blocks left p pos := by
  induction blocks generalizing left p pos with
  | zero => rfl
  | succ blocks ih => simp only [efBlocks, efUnblock, h.read, ih]

end Readers

/-! ### States that give a rule the same inputs -/

/-- Two states with the same operands and the same source bytes. -/
structure SameInputs (s s' : State) : Prop where
  operands : s.operands = s'.operands
  reads : SameReads (srcWindow s) (srcWindow s')

section Rules

variable {s s' : State} (h : SameInputs s s')
include h

theorem count_congr : count s = count s' := by
  simp only [count, h.operands]

theorem seedElem_congr (w : Nat) : seedElem w s = seedElem w s' := by
  simp only [seedElem, h.operands]

theorem seed2Elem_congr (w : Nat) : seed2Elem w s = seed2Elem w s' := by
  simp only [seed2Elem, h.operands]

theorem keyElem_congr (w : Nat) : keyElem w s = keyElem w s' := by
  simp only [keyElem, h.operands]

theorem vbDecode_congr (w : Nat) (tr : Transform) : vbDecode w tr s = vbDecode w tr s' := by
  funext m
  simp only [vbDecode, vbGetAll_congr h.reads, seedElem_congr h, seed2Elem_congr h]

theorem tbDecode_congr (w : Nat) (tr : Transform) (g : Nat) : tbDecode w tr g s = tbDecode w tr g s' := by
  funext m
  simp only [tbDecode, tbGroups_congr h.reads, seedElem_congr h, seed2Elem_congr h]

theorem pfDecode_congr (w : Nat) (tr : Transform) (b : Nat) : pfDecode w tr b s = pfDecode w tr b s' := by
  funext m
  simp only [pfDecode, pfBlocks_congr h.reads, seedElem_congr h, seed2Elem_congr h]

theorem efDecode_congr (w : Nat) (tr : Transform) (b : Nat) : efDecode w tr b s = efDecode w tr b s' := by
  funext m
  simp only [efDecode, efBlocks_congr h.reads, seedElem_congr h]

theorem encodeRule_congr (w : Nat) (tr : Transform) (layout : List (BitVec w) → List Byte) :
    encodeRule w tr layout s = encodeRule w tr layout s' := by
  simp only [encodeRule, srcElements_congr h.reads, count_congr h, seedElem_congr h, seed2Elem_congr h]

theorem xfInvRule_congr (w : Nat) (tr : Transform) : xfInvRule w tr s = xfInvRule w tr s' := by
  simp only [xfInvRule, srcElements_congr h.reads, count_congr h, seedElem_congr h, seed2Elem_congr h]

theorem efEncRule_congr (w : Nat) (tr : Transform) (b : Nat) : efEncRule w tr b s = efEncRule w tr b s' := by
  simp only [efEncRule, srcElements_congr h.reads, count_congr h, seedElem_congr h]

theorem blkbitwRule_congr (w : Nat) : blkbitwRule w s = blkbitwRule w s' := by
  simp only [blkbitwRule, srcElements_congr h.reads, count_congr h]

theorem pfSelwRule_congr (w b : Nat) : pfSelwRule w b s = pfSelwRule w b s' := by
  simp only [pfSelwRule, srcElements_congr h.reads, count_congr h]

theorem vbvlenRule_congr : vbvlenRule s = vbvlenRule s' := by
  simp only [vbvlenRule, vbValueBytes_congr h.reads]

theorem bpPackRule_congr (w pw : Nat) : bpPackRule w pw s = bpPackRule w pw s' := by
  simp only [bpPackRule, srcElements_congr h.reads, count_congr h]

theorem bpUnpackRule_congr (w pw : Nat) : bpUnpackRule w pw s = bpUnpackRule w pw s' := by
  simp only [bpUnpackRule, h.reads.read, count_congr h]

/-- The three shapes of the commands that run a decoder, from the decoder of the other state. -/
theorem decodeRule_congr {w : Nat} {d d' : Nat → Except Stop (Decoded w)} (hd : d = d') :
    decodeRule d s = decodeRule d' s' := by
  simp only [decodeRule, hd, count_congr h]

theorem getxRule_congr {w : Nat} {d d' : Nat → Except Stop (Decoded w)} (hd : d = d') (unit : Nat) :
    getxRule d unit s = getxRule d' unit s' := by
  simp only [getxRule, hd, count_congr h, h.operands]

theorem searchRule_congr {w : Nat} {d d' : Nat → Except Stop (Decoded w)} (hd : d = d') (unit : Nat)
    {hit hit' : BitVec w → Bool} (hhit : hit = hit') : searchRule d unit hit s = searchRule d' unit hit' s' := by
  simp only [searchRule, hd, hhit, count_congr h, h.operands]

theorem hitEq_congr (w : Nat) : hitEq w s = hitEq w s' := by
  funext x
  simp only [hitEq, keyElem_congr h]

theorem hitGeq_congr (w : Nat) : hitGeq w s = hitGeq w s' := by
  funext x
  simp only [hitGeq, keyElem_congr h]

end Rules

/-- Every command runs one rule, and the rule is a function of the operands and the source bytes. -/
theorem exec_rule_of_inputs (i : Instr) :
    ∃ rule : State → Except Stop Output, (∀ s, exec i s = .next (runCommand i (rule s) s)) ∧
      ∀ s s', SameInputs s s' → rule s = rule s' := by
  cases i
  case bitw ws => exact ⟨_, fun _ => rfl, fun _ _ h => by rw [keyElem_congr h]⟩
  case vblen ws => exact ⟨_, fun _ => rfl, fun _ _ h => by rw [keyElem_congr h]⟩
  case blkbitw ws => exact ⟨_, fun _ => rfl, fun _ _ h => blkbitwRule_congr h _⟩
  case vbvlen => exact ⟨_, fun _ => rfl, fun _ _ h => vbvlenRule_congr h⟩
  case xfFwd ws tr => exact ⟨_, fun _ => rfl, fun _ _ h => encodeRule_congr h _ _ _⟩
  case xfInv ws tr => exact ⟨_, fun _ => rfl, fun _ _ h => xfInvRule_congr h _ _⟩
  case bpPack ws lane pw => exact ⟨_, fun _ => rfl, fun _ _ h => bpPackRule_congr h _ _⟩
  case bpUnpack ws lane pw => exact ⟨_, fun _ => rfl, fun _ _ h => bpUnpackRule_congr h _ _⟩
  case pfSelw ws bm1 => exact ⟨_, fun _ => rfl, fun _ _ h => pfSelwRule_congr h _ _⟩
  case vbEnc ws tr => exact ⟨_, fun _ => rfl, fun _ _ h => encodeRule_congr h _ _ _⟩
  case vbDec ws tr => exact ⟨_, fun _ => rfl, fun _ _ h => decodeRule_congr h (vbDecode_congr h _ _)⟩
  case vbGetx ws tr => exact ⟨_, fun _ => rfl, fun _ _ h => getxRule_congr h (vbDecode_congr h _ _) _⟩
  case vbGeteq ws tr =>
    exact ⟨_, fun _ => rfl, fun _ _ h => searchRule_congr h (vbDecode_congr h _ _) _ (hitEq_congr h _)⟩
  case vbGetgeq ws tr =>
    exact ⟨_, fun _ => rfl, fun _ _ h => searchRule_congr h (vbDecode_congr h _ _) _ (hitGeq_congr h _)⟩
  case tbEnc ws tr lane gs => exact ⟨_, fun _ => rfl, fun _ _ h => encodeRule_congr h _ _ _⟩
  case tbDec ws tr lane gs => exact ⟨_, fun _ => rfl, fun _ _ h => decodeRule_congr h (tbDecode_congr h _ _ _)⟩
  case tbGetx ws tr lane gs => exact ⟨_, fun _ => rfl, fun _ _ h => getxRule_congr h (tbDecode_congr h _ _ _) _⟩
  case tbGeteq ws tr lane gs =>
    exact ⟨_, fun _ => rfl, fun _ _ h => searchRule_congr h (tbDecode_congr h _ _ _) _ (hitEq_congr h _)⟩
  case tbGetgeq ws tr lane gs =>
    exact ⟨_, fun _ => rfl, fun _ _ h => searchRule_congr h (tbDecode_congr h _ _ _) _ (hitGeq_congr h _)⟩
  case pfEnc ws tr lane bm1 => exact ⟨_, fun _ => rfl, fun _ _ h => encodeRule_congr h _ _ _⟩
  case pfDec ws tr lane bm1 => exact ⟨_, fun _ => rfl, fun _ _ h => decodeRule_congr h (pfDecode_congr h _ _ _)⟩
  case pfGetx ws tr lane bm1 => exact ⟨_, fun _ => rfl, fun _ _ h => getxRule_congr h (pfDecode_congr h _ _ _) _⟩
  case pfGeteq ws tr lane bm1 =>
    exact ⟨_, fun _ => rfl, fun _ _ h => searchRule_congr h (pfDecode_congr h _ _ _) _ (hitEq_congr h _)⟩
  case pfGetgeq ws tr lane bm1 =>
    exact ⟨_, fun _ => rfl, fun _ _ h => searchRule_congr h (pfDecode_congr h _ _ _) _ (hitGeq_congr h _)⟩
  case efEnc ws tr lane bm1 => exact ⟨_, fun _ => rfl, fun _ _ h => efEncRule_congr h _ _ _⟩
  case efDec ws tr lane bm1 => exact ⟨_, fun _ => rfl, fun _ _ h => decodeRule_congr h (efDecode_congr h _ _ _)⟩
  case efGetx ws tr lane bm1 => exact ⟨_, fun _ => rfl, fun _ _ h => getxRule_congr h (efDecode_congr h _ _ _) _⟩
  case efGeteq ws tr lane bm1 =>
    exact ⟨_, fun _ => rfl, fun _ _ h => searchRule_congr h (efDecode_congr h _ _ _) _ (hitEq_congr h _)⟩
  case efGetgeq ws tr lane bm1 =>
    exact ⟨_, fun _ => rfl, fun _ _ h => searchRule_congr h (efDecode_congr h _ _ _) _ (hitGeq_congr h _)⟩

/-! ### Ends of a command in two states -/

/-- What the ends of a command read of a state besides its memory. -/
structure SameBefore (s s' : State) : Prop where
  operands : s.operands = s'.operands
  draws : s.draws = s'.draws
  status : s.status = s'.status

/-- Two states after the same command: the results and each byte of memory are either the same in both or as they
were in both (R48). -/
structure SameAfter (s s' t t' : State) : Prop where
  status : t.status = t'.status
  draws : t.draws = t'.draws
  results : t.results = t'.results ∨ (t.results = s.results ∧ t'.results = s'.results)
  memory : ∀ a, t.mem.read a = t'.mem.read a ∨ (t.mem.read a = s.mem.read a ∧ t'.mem.read a = s'.mem.read a)

/-- The same bytes written to two memories: each byte is the same in both or as it was in both. -/
theorem read_writeBytes_pair (m m' : Memory) (a : Nat) (bs : List Byte) (x : Nat) :
    (m.writeBytes a bs).read x = (m'.writeBytes a bs).read x ∨
    ((m.writeBytes a bs).read x = m.read x ∧ (m'.writeBytes a bs).read x = m'.read x) := by
  by_cases hx : x < a ∨ a + bs.length ≤ x
  · exact .inr ⟨read_writeBytes_outside m a bs x hx, read_writeBytes_outside m' a bs x hx⟩
  · obtain ⟨i, rfl⟩ : ∃ i, x = a + i := ⟨x - a, by omega⟩
    have hi : i < bs.length := by omega
    exact .inl ((read_writeBytes_inside m a bs i hi).trans (read_writeBytes_inside m' a bs i hi).symm)

theorem SameBefore.addDraws {s s' : State} (h : SameBefore s s') (k : Nat) :
    SameBefore { s with draws := s.draws + k } { s' with draws := s'.draws + k } :=
  ⟨h.operands, congrArg (· + k) h.draws, h.status⟩

/-- Nothing done. -/
theorem SameBefore.refl_after {s s' : State} (h : SameBefore s s') : SameAfter s s' s s' :=
  ⟨h.status, h.draws, .inr ⟨rfl, rfl⟩, fun _ => .inr ⟨rfl, rfl⟩⟩

theorem SameAfter.setStatus {s s' t t' : State} (h : SameAfter s s' t t') (st : Status) :
    SameAfter s s' { t with status := st } { t' with status := st } :=
  ⟨rfl, h.draws, h.results, h.memory⟩

/-- The draws of the states before do not matter. -/
theorem SameAfter.of_draws {s s' t t' : State} {k k' : Nat}
    (h : SameAfter { s with draws := k } { s' with draws := k' } t t') : SameAfter s s' t t' :=
  ⟨h.status, h.draws, h.results, h.memory⟩

section Ends

variable {s s' : State} (h : SameBefore s s')
include h

/-- Both windows are freed with the same draws. -/
theorem freeDstWindow_sameAfter : SameAfter s s' (freeDstWindow s) (freeDstWindow s') where
  status := h.status
  draws := by simp only [freeDstWindow_draws, h.draws, h.operands]
  results := .inr ⟨rfl, rfl⟩
  memory a := by
    simp only [freeDstWindow_mem, h.draws, h.operands]
    exact read_writeBytes_pair _ _ _ _ a

/-- The outputs are freed with the same draws. -/
theorem freeOutputs_sameAfter (writes : Bool) : SameAfter s s' (freeOutputs writes s) (freeOutputs writes s') := by
  refine ⟨by simp [h.status], ?_, .inl (by simp [h.draws]), fun a => ?_⟩
  · cases writes <;> simp [h.draws, h.operands]
  · cases writes with
    | false => exact .inr ⟨rfl, rfl⟩
    | true =>
      simp only [freeOutputs_true_mem, h.draws, h.operands]
      exact read_writeBytes_pair _ _ _ _ a

theorem raise_sameAfter (f : FaultCode) (writes : Bool) : SameAfter s s' (raise f writes s) (raise f writes s') := by
  cases f with
  | illegalCmd | arg => exact h.refl_after.setStatus _
  | srcBounds | dstCapacity => exact (freeOutputs_sameAfter h writes).setStatus _

theorem completeFree_sameAfter (writes : Bool) :
    SameAfter s s' (completeFree writes s) (completeFree writes s') :=
  (freeOutputs_sameAfter h writes).setStatus _

theorem complete_sameAfter (o : Output) : SameAfter s s' (complete o s) (complete o s') where
  status := rfl
  draws := h.draws
  results := .inl rfl
  memory a := by
    simp only [complete_mem, h.operands]
    exact read_writeBytes_pair _ _ _ _ a

theorem malformedOutcome_sameAfter (writes : Bool) (need : Nat) :
    SameAfter s s' (malformedOutcome writes need s) (malformedOutcome writes need s') := by
  have hchoice : Config.freeChoice s.draws = Config.freeChoice s'.draws := by rw [h.draws]
  have hcap : s.operands.dstCap = s'.operands.dstCap := by rw [h.operands]
  simp only [malformedOutcome, hchoice, hcap]
  split
  · exact (raise_sameAfter (h.addDraws 1) _ _).of_draws
  · split
    · exact (raise_sameAfter (h.addDraws 1) _ _).of_draws
    · exact (completeFree_sameAfter (h.addDraws 1) _).of_draws

theorem contractOutcome_sameAfter (need : Nat) :
    SameAfter s s' (contractOutcome need s) (contractOutcome need s') := by
  have hchoice : Config.freeChoice s.draws = Config.freeChoice s'.draws := by rw [h.draws]
  simp only [contractOutcome, hchoice]
  split
  · exact (raise_sameAfter (h.addDraws 1) _ _).of_draws
  · have hfreed := freeDstWindow_sameAfter ((h.addDraws 1).addDraws 2)
    exact ⟨rfl, hfreed.draws, .inl (by simp only [h.operands, h.draws]), hfreed.memory⟩

/-- The same rule ends the same way in both states. -/
theorem runCommand_sameAfter (i : Instr) (rule : Except Stop Output) :
    SameAfter s s' (runCommand i rule s) (runCommand i rule s') := by
  have hcount : count s = count s' := by simp only [count, h.operands]
  simp only [runCommand, h.operands, hcount]
  split
  · exact raise_sameAfter h _ _
  · split
    · split
      · exact raise_sameAfter h _ _
      · exact complete_sameAfter h _
    · exact raise_sameAfter h _ _
    · exact malformedOutcome_sameAfter h _ _
    · exact contractOutcome_sameAfter h _

end Ends

/-- A command ends the same way in two states with the same inputs and draws. -/
theorem exec_sameAfter (i : Instr) {s s' : State} (hin : SameInputs s s') (h : SameBefore s s') :
    ∃ t t', exec i s = .next t ∧ exec i s' = .next t' ∧ SameAfter s s' t t' := by
  obtain ⟨rule, hexec, hrule⟩ := exec_rule_of_inputs i
  refine ⟨_, _, hexec s, hexec s', ?_⟩
  rw [hrule s s' hin]
  exact runCommand_sameAfter h i _

/-- So does the execute step, for a legal word and for an illegal one. -/
theorem execute_sameAfter {s s' : State} (hcmd : s.cmd = s'.cmd) (hin : SameInputs s s') (h : SameBefore s s')
    (hu : untouched s = true) (hu' : untouched s' = true) :
    ∃ t t', execute s = .next t ∧ execute s' = .next t' ∧ SameAfter s s' t t' := by
  cases hd : decode s.cmd with
  | ok i =>
    rw [execute_of_untouched hd hu, execute_of_untouched (hcmd ▸ hd) hu']
    exact exec_sameAfter i hin h
  | error e =>
    rw [execute_of_illegal hd, execute_of_illegal (hcmd ▸ hd), clearTouched_of_untouched hu,
      clearTouched_of_untouched hu']
    exact ⟨_, _, rfl, rfl, raise_sameAfter h _ _⟩

/-- Settles O10: the step is the execute step of both units, and its rule sees the same inputs. -/
theorem outcomeDependsOnInputsOnly : Obligations.OutcomeDependsOnInputsOnly := by
  intro s s' hbusy hbusy' hev hev' hu hu' hcmd hops hdraws hbytes
  have hreads : SameReads (srcWindow s) (srcWindow s') :=
    .of_bytes (by simp only [srcWindow, hops]) fun off hoff => by
      simpa only [srcWindow, hops] using hbytes off hoff
  obtain ⟨t, t', ht, ht', hafter⟩ :=
    execute_sameAfter hcmd ⟨hops, hreads⟩ ⟨hops, hdraws, hbusy.trans hbusy'.symm⟩ hu hu'
  rw [step_of_no_events hev, step_of_no_events hev', unitTurn_busy hbusy, unitTurn_busy hbusy']
  exact ⟨t, t', ht, ht', hafter.status, hafter.draws, hafter.results, hafter.memory⟩

end Sys2Proof.Machine
end

