-- ==== Sys2Proof/Proofs/Encoding.lean ====
section
/-! PROOFS. The decoder and the encoder undo each other (spec/30_encoding.md R101 to R105). Both go through the parts
of a command, its operation and a value for each of the six fields: a word decodes exactly when it holds the fields of
parts that leave the unused fields 0 and make a well-formed command. -/

namespace Sys2Proof

/-! ### The values of one field (R102, R103) -/

@[simp] theorem opOf_opCode (op : Op) : opOf (opCode op) = some op := by cases op <;> rfl

@[simp] theorem widthOf_widthBits (ws : Width) : widthOf (widthBits ws) = ws := by cases ws <;> rfl

@[simp] theorem transformOf_transformBits (tr : Transform) : transformOf (transformBits tr) = some tr := by
  cases tr <;> rfl

@[simp] theorem laneOf_laneBits (lane : Lane) : laneOf (laneBits lane) = some lane := by cases lane <;> rfl

@[simp] theorem groupSizeOf_groupSizeBits (gs : GroupSize) : groupSizeOf (groupSizeBits gs) = gs := by
  cases gs <;> rfl

@[simp] theorem widthBits_widthOf : ∀ b : BitVec 2, widthBits (widthOf b) = b := by decide

@[simp] theorem groupSizeBits_groupSizeOf : ∀ b : BitVec 2, groupSizeBits (groupSizeOf b) = b := by decide

/-- Every `OP` value but the three reserved ones selects the operation with that code (R103, R106). -/
theorem opOf_map_opCode : ∀ b : BitVec 5,
    (opOf b).map opCode = if 1 ≤ b.toNat ∧ b.toNat ≤ 29 then some b else none := by decide

/-- Every `TR` value below 6 selects the transform with that value (R102). -/
theorem transformOf_map_transformBits : ∀ b : BitVec 3,
    (transformOf b).map transformBits = if b.toNat < 6 then some b else none := by decide

/-- Every `LANE` value but 3 selects the strategy with that value (R102). -/
theorem laneOf_map_laneBits : ∀ b : BitVec 2,
    (laneOf b).map laneBits = if b.toNat < 3 then some b else none := by decide

/-- A field decoder that gives a value gives one that encodes to the bits read. -/
theorem encode_of_map_eq_ite {α β : Type} {p : Prop} [Decidable p] {o : Option α} {enc : α → β} {a : α} {b : β}
    (hmap : o.map enc = if p then some b else none) (ho : o = some a) : enc a = b := by
  subst ho
  split at hmap
  · exact Option.some.inj hmap
  · cases hmap

/-- A field decoder gives a value on the bits that satisfy its condition. -/
theorem exists_encode_of_map_eq_ite {α β : Type} {p : Prop} [Decidable p] {o : Option α} {enc : α → β} {b : β}
    (hmap : o.map enc = if p then some b else none) (hp : p) : ∃ a, enc a = b := by
  rw [if_pos hp, Option.map_eq_some_iff] at hmap
  obtain ⟨a, _, ha⟩ := hmap
  exact ⟨a, ha⟩

/-! ### The parts of a command -/

/-- An operation and a value of each field. -/
structure Parts where
  op : Op
  ws : Width := .w8
  tr : Transform := .ident
  lane : Lane := .scalar
  bm1 : BlockField := 0#8
  gs : GroupSize := .g4
  pw : PackField := 0#7

/-- The command that the parts make. -/
def Parts.instr (p : Parts) : Instr := instrOf p.op p.ws p.tr p.lane p.bm1 p.gs p.pw

/-- The parts as raw fields. -/
def Parts.fields (p : Parts) : Fields :=
  rawFields p.op (widthBits p.ws) (transformBits p.tr) (laneBits p.lane) p.bm1 (groupSizeBits p.gs) p.pw

/-- The parts pass check 3 of R105. -/
def Parts.tidy (p : Parts) : Bool := unusedFieldsZero (fieldUse p.op) p.fields

/-- Every command is made of parts that leave the fields it does not use 0, and its fields are theirs. -/
theorem exists_parts (i : Instr) : ∃ p : Parts, p.tidy = true ∧ p.instr = i ∧ p.fields = fieldsOfInstr i :=
  match i with
  | .bitw ws => ⟨{ op := .bitw, ws }, rfl, rfl, rfl⟩
  | .blkbitw ws => ⟨{ op := .blkbitw, ws }, rfl, rfl, rfl⟩
  | .vblen ws => ⟨{ op := .vblen, ws }, rfl, rfl, rfl⟩
  | .vbvlen => ⟨{ op := .vbvlen }, rfl, rfl, rfl⟩
  | .xfFwd ws tr => ⟨{ op := .xfFwd, ws, tr }, rfl, rfl, rfl⟩
  | .xfInv ws tr => ⟨{ op := .xfInv, ws, tr }, rfl, rfl, rfl⟩
  | .bpPack ws lane pw => ⟨{ op := .bpPack, ws, lane, pw }, rfl, rfl, rfl⟩
  | .bpUnpack ws lane pw => ⟨{ op := .bpUnpack, ws, lane, pw }, rfl, rfl, rfl⟩
  | .pfSelw ws bm1 => ⟨{ op := .pfSelw, ws, bm1 }, rfl, rfl, rfl⟩
  | .vbEnc ws tr => ⟨{ op := .vbEnc, ws, tr }, rfl, rfl, rfl⟩
  | .vbDec ws tr => ⟨{ op := .vbDec, ws, tr }, rfl, rfl, rfl⟩
  | .vbGetx ws tr => ⟨{ op := .vbGetx, ws, tr }, rfl, rfl, rfl⟩
  | .vbGeteq ws tr => ⟨{ op := .vbGeteq, ws, tr }, rfl, rfl, rfl⟩
  | .vbGetgeq ws tr => ⟨{ op := .vbGetgeq, ws, tr }, rfl, rfl, rfl⟩
  | .tbEnc ws tr lane gs => ⟨{ op := .tbEnc, ws, tr, lane, gs }, rfl, rfl, rfl⟩
  | .tbDec ws tr lane gs => ⟨{ op := .tbDec, ws, tr, lane, gs }, rfl, rfl, rfl⟩
  | .tbGetx ws tr lane gs => ⟨{ op := .tbGetx, ws, tr, lane, gs }, rfl, rfl, rfl⟩
  | .tbGeteq ws tr lane gs => ⟨{ op := .tbGeteq, ws, tr, lane, gs }, rfl, rfl, rfl⟩
  | .tbGetgeq ws tr lane gs => ⟨{ op := .tbGetgeq, ws, tr, lane, gs }, rfl, rfl, rfl⟩
  | .pfEnc ws tr lane bm1 => ⟨{ op := .pfEnc, ws, tr, lane, bm1 }, rfl, rfl, rfl⟩
  | .pfDec ws tr lane bm1 => ⟨{ op := .pfDec, ws, tr, lane, bm1 }, rfl, rfl, rfl⟩
  | .pfGetx ws tr lane bm1 => ⟨{ op := .pfGetx, ws, tr, lane, bm1 }, rfl, rfl, rfl⟩
  | .pfGeteq ws tr lane bm1 => ⟨{ op := .pfGeteq, ws, tr, lane, bm1 }, rfl, rfl, rfl⟩
  | .pfGetgeq ws tr lane bm1 => ⟨{ op := .pfGetgeq, ws, tr, lane, bm1 }, rfl, rfl, rfl⟩
  | .efEnc ws tr lane bm1 => ⟨{ op := .efEnc, ws, tr, lane, bm1 }, rfl, rfl, rfl⟩
  | .efDec ws tr lane bm1 => ⟨{ op := .efDec, ws, tr, lane, bm1 }, rfl, rfl, rfl⟩
  | .efGetx ws tr lane bm1 => ⟨{ op := .efGetx, ws, tr, lane, bm1 }, rfl, rfl, rfl⟩
  | .efGeteq ws tr lane bm1 => ⟨{ op := .efGeteq, ws, tr, lane, bm1 }, rfl, rfl, rfl⟩
  | .efGetgeq ws tr lane bm1 => ⟨{ op := .efGetgeq, ws, tr, lane, bm1 }, rfl, rfl, rfl⟩

/-- A field that is used or 0 is what is left of it when an unused field is set to 0. -/
theorem ite_eq_of_used_or_zero {n : Nat} {used : Bool} {b : BitVec n} (h : (used || b == 0#n) = true) :
    (if used then b else 0#n) = b := by
  cases used with
  | true => rfl
  | false => exact (eq_of_beq h).symm

/-- The raw fields of the command that parts make: theirs, with the fields its row of R103 does not list set to 0. -/
theorem fieldsOfInstr_instr (p : Parts) :
    fieldsOfInstr p.instr =
      rawFields p.op (if (fieldUse p.op).ws then widthBits p.ws else 0#2)
        (if (fieldUse p.op).tr then transformBits p.tr else 0#3)
        (if (fieldUse p.op).lane then laneBits p.lane else 0#2)
        (if (fieldUse p.op).bm1 then p.bm1 else 0#8)
        (if (fieldUse p.op).gs then groupSizeBits p.gs else 0#2)
        (if (fieldUse p.op).pw then p.pw else 0#7) := by
  obtain ⟨op, ws, tr, lane, bm1, gs, pw⟩ := p
  cases op <;> rfl

/-- Parts that leave the unused fields 0 have the raw fields of their command. -/
theorem fieldsOfInstr_of_tidy {p : Parts} (h : p.tidy = true) : fieldsOfInstr p.instr = p.fields := by
  simp only [Parts.tidy, unusedFieldsZero, Parts.fields, rawFields, Bool.and_eq_true] at h
  obtain ⟨⟨⟨⟨⟨hws, htr⟩, hlane⟩, hbm1⟩, hgs⟩, hpw⟩ := h
  rw [fieldsOfInstr_instr, ite_eq_of_used_or_zero hws, ite_eq_of_used_or_zero htr, ite_eq_of_used_or_zero hlane,
    ite_eq_of_used_or_zero hbm1, ite_eq_of_used_or_zero hgs, ite_eq_of_used_or_zero hpw, Parts.fields]

/-! ### The decoder -/

/-- Fields decode to the command that their parts make, when it passes the checks of R105. -/
theorem decodeFields_eq_ok {p : Parts} (htidy : p.tidy = true) (hwf : wellFormed p.instr = true) :
    decodeFields p.fields = .ok p.instr := by
  simp only [Parts.tidy, Parts.fields, rawFields] at htidy
  simp only [Parts.instr] at hwf ⊢
  simp [decodeFields, Parts.fields, rawFields, htidy, hwf]

/-- Fields that decode are those of parts that pass the checks of R105. -/
theorem parts_of_decodeFields {f : Fields} {i : Instr} (h : decodeFields f = .ok i) :
    ∃ p : Parts, p.fields = f ∧ p.tidy = true ∧ p.instr = i ∧ wellFormed i = true := by
  simp only [decodeFields] at h
  split at h
  case isFalse => cases h
  rename_i hrsv
  split at h
  case h_1 => cases h
  rename_i op hop
  split at h
  case isFalse => cases h
  rename_i hunused
  split at h
  case h_1 => cases h
  case h_2 => cases h
  rename_i tr lane htr hlane
  split at h
  case isFalse => cases h
  rename_i hwf
  cases h
  have hfields : ({ op, ws := widthOf f.ws, tr, lane, bm1 := f.bm1, gs := groupSizeOf f.gs, pw := f.pw } :
      Parts).fields = f := by
    simp only [Parts.fields, rawFields, widthBits_widthOf, groupSizeBits_groupSizeOf,
      encode_of_map_eq_ite (opOf_map_opCode _) hop, encode_of_map_eq_ite (laneOf_map_laneBits _) hlane,
      encode_of_map_eq_ite (transformOf_map_transformBits _) htr, ← hrsv]
  exact ⟨_, hfields, by rw [Parts.tidy, hfields]; exact hunused, rfl, hwf⟩

/-- A word decodes to a command exactly when it is the command's encoding and the command is well formed (R104, R105). -/
theorem decode_eq_ok_iff {c : CmdWord} {i : Instr} : decode c = .ok i ↔ encode i = c ∧ wellFormed i = true := by
  constructor
  · intro h
    obtain ⟨p, hfields, htidy, rfl, hwf⟩ := parts_of_decodeFields h
    exact ⟨by rw [encode, fieldsOfInstr_of_tidy htidy, hfields, wordOf_fieldsOf], hwf⟩
  · rintro ⟨rfl, hwf⟩
    obtain ⟨p, htidy, rfl, hfields⟩ := exists_parts i
    rw [decode, encode, fieldsOf_wordOf, ← hfields]
    exact decodeFields_eq_ok htidy hwf

/-! ### The statements about the encoding -/

/-- Settles O1. -/
theorem decodeEncodeAgree : Obligations.DecodeEncodeAgree := fun _ hwf => decode_eq_ok_iff.mpr ⟨rfl, hwf⟩

/-- Settles O2. -/
theorem encodeDecodeAgree : Obligations.EncodeDecodeAgree := fun _ _ h => decode_eq_ok_iff.mp h

/-- Settles O4: each word is the encoding of the command it is named for, which is well formed. -/
theorem specWordsDecode : Obligations.SpecWordsDecode :=
  ⟨decode_eq_ok_iff.mpr ⟨rfl, rfl⟩, decode_eq_ok_iff.mpr ⟨rfl, rfl⟩, decode_eq_ok_iff.mpr ⟨rfl, rfl⟩,
    decode_eq_ok_iff.mpr ⟨rfl, rfl⟩, decode_eq_ok_iff.mpr ⟨rfl, rfl⟩⟩

end Sys2Proof
end

