-- ==== Sys2Proof/Proofs/IllegalWords.lean ====
section
/-! PROOFS. The checks of spec/30_encoding.md R105 on the raw bits of a word are those of the decoder: for each check
the same condition on the parts of a command, in the numbers of its fields. -/

namespace Sys2Proof.Machine

/-! ### The fields of a word as numbers (R101) -/

theorem toNat_fieldsOf_op (c : CmdWord) : (fieldsOf c).op.toNat = c.toNat % 32 := by
  simp [fieldsOf]

theorem toNat_fieldsOf_ws (c : CmdWord) : (fieldsOf c).ws.toNat = c.toNat / 32 % 4 := by
  simp [fieldsOf, Nat.shiftRight_eq_div_pow]

theorem toNat_fieldsOf_tr (c : CmdWord) : (fieldsOf c).tr.toNat = c.toNat / 128 % 8 := by
  simp [fieldsOf, Nat.shiftRight_eq_div_pow]

theorem toNat_fieldsOf_lane (c : CmdWord) : (fieldsOf c).lane.toNat = c.toNat / 1024 % 4 := by
  simp [fieldsOf, Nat.shiftRight_eq_div_pow]

theorem toNat_fieldsOf_bm1 (c : CmdWord) : (fieldsOf c).bm1.toNat = c.toNat / 4096 % 256 := by
  simp [fieldsOf, Nat.shiftRight_eq_div_pow]

theorem toNat_fieldsOf_gs (c : CmdWord) : (fieldsOf c).gs.toNat = c.toNat / 1048576 % 4 := by
  simp [fieldsOf, Nat.shiftRight_eq_div_pow]

theorem toNat_fieldsOf_pw (c : CmdWord) : (fieldsOf c).pw.toNat = c.toNat / 4194304 % 128 := by
  simp [fieldsOf, Nat.shiftRight_eq_div_pow]

theorem toNat_fieldsOf_rsv (c : CmdWord) : (fieldsOf c).rsv.toNat = c.toNat / 536870912 := by
  have hfits : c.toNat / 536870912 < 8 := by have hlt := c.isLt; omega
  simpa [fieldsOf, Nat.shiftRight_eq_div_pow] using hfits

/-! ### Check 3: which fields an operation uses, by its number in R103 -/

theorem fieldUse_ws (op : Op) : (fieldUse op).ws = decide ((opCode op).toNat ≠ 4) := by cases op <;> rfl

theorem fieldUse_tr (op : Op) :
    (fieldUse op).tr = decide ((opCode op).toNat = 5 ∨ (opCode op).toNat = 6 ∨ 10 ≤ (opCode op).toNat) := by
  cases op <;> rfl

theorem fieldUse_lane (op : Op) :
    (fieldUse op).lane = decide ((opCode op).toNat = 7 ∨ (opCode op).toNat = 8 ∨ 15 ≤ (opCode op).toNat) := by
  cases op <;> rfl

theorem fieldUse_bm1 (op : Op) :
    (fieldUse op).bm1 = decide ((opCode op).toNat = 9 ∨ 20 ≤ (opCode op).toNat) := by
  cases op <;> rfl

theorem fieldUse_gs (op : Op) :
    (fieldUse op).gs = decide (15 ≤ (opCode op).toNat ∧ (opCode op).toNat ≤ 19) := by
  cases op <;> rfl

theorem fieldUse_pw (op : Op) :
    (fieldUse op).pw = decide ((opCode op).toNat = 7 ∨ (opCode op).toNat = 8) := by
  cases op <;> rfl

/-- Check 3 of R105 fails when some field is not used and not 0. -/
theorem tidy_eq_false_iff (p : Parts) :
    p.tidy = false ↔
      (p.fields.op.toNat = 4 ∧ p.fields.ws.toNat ≠ 0) ∨
      (¬ (p.fields.op.toNat = 5 ∨ p.fields.op.toNat = 6 ∨ 10 ≤ p.fields.op.toNat) ∧ p.fields.tr.toNat ≠ 0) ∨
      (¬ (p.fields.op.toNat = 7 ∨ p.fields.op.toNat = 8 ∨ 15 ≤ p.fields.op.toNat) ∧ p.fields.lane.toNat ≠ 0) ∨
      (¬ (p.fields.op.toNat = 9 ∨ 20 ≤ p.fields.op.toNat) ∧ p.fields.bm1.toNat ≠ 0) ∨
      (¬ (15 ≤ p.fields.op.toNat ∧ p.fields.op.toNat ≤ 19) ∧ p.fields.gs.toNat ≠ 0) ∨
      (¬ (p.fields.op.toNat = 7 ∨ p.fields.op.toNat = 8) ∧ p.fields.pw.toNat ≠ 0) := by
  have hop : p.fields.op = opCode p.op := rfl
  simp only [hop, Parts.tidy, unusedFieldsZero, fieldUse_ws, fieldUse_tr, fieldUse_lane, fieldUse_bm1, fieldUse_gs,
    fieldUse_pw, Bool.and_eq_false_iff, Bool.or_eq_false_iff, decide_eq_false_iff_not, beq_eq_false_iff_ne, ne_eq,
    not_not, BitVec.toNat_eq, BitVec.toNat_ofNat, Nat.zero_mod, or_assoc]

/-! ### Checks 6 to 8 -/

/-- Check 6 of R105: `W = 8 << WS` (R102). -/
theorem packWidthLegal_eq_false_iff (ws : Width) (pw : PackField) :
    packWidthLegal ws pw = false ↔ 8 * 2 ^ (widthBits ws).toNat < pw.toNat := by
  rw [packWidthLegal, decide_eq_false_iff_not, Nat.not_le]
  cases ws <;> rfl

/-- Check 7 of R105, by lane strategy. -/
theorem turboLegal_eq_false_iff (ws : Width) (lane : Lane) (gs : GroupSize) :
    turboLegal ws lane gs = false ↔
      (widthBits ws).toNat = 3 ∨
      (((laneBits lane).toNat = 1 ∨ (laneBits lane).toNat = 2) ∧ (widthBits ws).toNat = 0) ∨
      ((laneBits lane).toNat = 1 ∧ (groupSizeBits gs).toNat ≠ 0) ∨
      ((laneBits lane).toNat = 2 ∧ (groupSizeBits gs).toNat = 0) := by
  cases lane with
  | scalar => cases ws <;> simp [turboLegal, widthBits, laneBits]
  | lane128 | lane256 => cases ws <;> cases gs <;> decide

/-- Check 8 of R105. -/
theorem eliasFanoLegal_eq_false_iff (ws : Width) (tr : Transform) :
    eliasFanoLegal ws tr = false ↔
      (widthBits ws).toNat ≤ 1 ∨ ((transformBits tr).toNat ≠ 1 ∧ (transformBits tr).toNat ≠ 2) := by
  cases ws <;> cases tr <;> decide

/-- Checks 6, 7 and 8 of R105 are each about the operations of one range of numbers. -/
theorem wellFormed_instr (p : Parts) :
    wellFormed p.instr =
      ((!(fieldUse p.op).pw || packWidthLegal p.ws p.pw) && (!(fieldUse p.op).gs || turboLegal p.ws p.lane p.gs) &&
        (!decide (25 ≤ (opCode p.op).toNat) || eliasFanoLegal p.ws p.tr)) := by
  obtain ⟨op, ws, tr, lane, bm1, gs, pw⟩ := p
  cases op <;> simp [Parts.instr, instrOf, wellFormed, fieldUse, opCode]

/-- Check 6, 7 or 8 of R105 fails. -/
theorem wellFormed_instr_eq_false_iff (p : Parts) :
    wellFormed p.instr = false ↔
      ((p.fields.op.toNat = 7 ∨ p.fields.op.toNat = 8) ∧ 8 * 2 ^ p.fields.ws.toNat < p.fields.pw.toNat) ∨
      ((15 ≤ p.fields.op.toNat ∧ p.fields.op.toNat ≤ 19) ∧
        (p.fields.ws.toNat = 3 ∨
          ((p.fields.lane.toNat = 1 ∨ p.fields.lane.toNat = 2) ∧ p.fields.ws.toNat = 0) ∨
          (p.fields.lane.toNat = 1 ∧ p.fields.gs.toNat ≠ 0) ∨ (p.fields.lane.toNat = 2 ∧ p.fields.gs.toNat = 0))) ∨
      (25 ≤ p.fields.op.toNat ∧ (p.fields.ws.toNat ≤ 1 ∨ (p.fields.tr.toNat ≠ 1 ∧ p.fields.tr.toNat ≠ 2))) := by
  simp only [wellFormed_instr, Parts.fields, rawFields, fieldUse_pw, fieldUse_gs, Bool.and_eq_false_iff,
    Bool.or_eq_false_iff, Bool.not_eq_false', decide_eq_true_iff, packWidthLegal_eq_false_iff,
    turboLegal_eq_false_iff, eliasFanoLegal_eq_false_iff, or_assoc]

/-! ### Checks 1, 2, 4 and 5 -/

/-- Fields that pass checks 1, 2, 4 and 5 of R105 are those of parts. -/
theorem exists_parts_of_fields {f : Fields} (hrsv : f.rsv.toNat = 0) (hop : 1 ≤ f.op.toNat ∧ f.op.toNat ≤ 29)
    (htr : f.tr.toNat < 6) (hlane : f.lane.toNat < 3) : ∃ p : Parts, p.fields = f := by
  have hzero : f.rsv = 0#3 := BitVec.eq_of_toNat_eq hrsv
  obtain ⟨op, hop⟩ := exists_encode_of_map_eq_ite (opOf_map_opCode _) hop
  obtain ⟨tr, htr⟩ := exists_encode_of_map_eq_ite (transformOf_map_transformBits _) htr
  obtain ⟨lane, hlane⟩ := exists_encode_of_map_eq_ite (laneOf_map_laneBits _) hlane
  refine ⟨{ op, ws := widthOf f.ws, tr, lane, bm1 := f.bm1, gs := groupSizeOf f.gs, pw := f.pw }, ?_⟩
  simp only [Parts.fields, rawFields, hop, htr, hlane, widthBits_widthOf, groupSizeBits_groupSizeOf, ← hzero]

/-- The fields of parts pass checks 1, 2, 4 and 5 of R105. -/
theorem toNat_fields_bounds (p : Parts) :
    p.fields.rsv.toNat = 0 ∧ (1 ≤ p.fields.op.toNat ∧ p.fields.op.toNat ≤ 29) ∧ p.fields.tr.toNat < 6 ∧
      p.fields.lane.toNat < 3 := by
  refine ⟨rfl, ?_, ?_, ?_⟩ <;> simp only [Parts.fields, rawFields]
  · cases p.op <;> decide
  · cases p.tr <;> decide
  · cases p.lane <;> decide

/-! ### The words that decode -/

/-- A word that fails no check of R105 has the fields of parts: a field that its command does not use is 0, so it is
in range too. -/
theorem exists_parts_of_legal {c : CmdWord} (h : ¬ illegalWord c) : ∃ p : Parts, p.fields = fieldsOf c := by
  simp only [illegalWord, not_or, ← toNat_fieldsOf_op, ← toNat_fieldsOf_tr, ← toNat_fieldsOf_lane,
    ← toNat_fieldsOf_rsv] at h
  obtain ⟨hrsv, hop, -, htrUnused, hlaneUnused, -, -, -, htr, hlane, -⟩ := h
  have htrLt : (fieldsOf c).tr.toNat < 6 := by clear hop hlaneUnused hlane; omega
  have hlaneLt : (fieldsOf c).lane.toNat < 3 := by
    have hlt := (fieldsOf c).lane.isLt
    clear hop htrUnused htr
    omega
  have hopRange : 1 ≤ (fieldsOf c).op.toNat ∧ (fieldsOf c).op.toNat ≤ 29 := by
    have hlt := (fieldsOf c).op.isLt
    clear htrUnused htr hlaneUnused hlane
    omega
  exact exists_parts_of_fields (not_not.mp hrsv) hopRange htrLt hlaneLt

/-- A word with the fields of parts fails a check of R105 exactly when the parts do. -/
theorem illegalWord_iff_of_fields {c : CmdWord} {p : Parts} (h : p.fields = fieldsOf c) :
    illegalWord c ↔ p.tidy = false ∨ wellFormed p.instr = false := by
  obtain ⟨hrsv, hop, htr, hlane⟩ := toNat_fields_bounds p
  have hopReserved : ¬ (p.fields.op.toNat = 0 ∨ p.fields.op.toNat = 30 ∨ p.fields.op.toNat = 31) := by omega
  simp only [illegalWord, ← toNat_fieldsOf_op, ← toNat_fieldsOf_ws, ← toNat_fieldsOf_tr, ← toNat_fieldsOf_lane,
    ← toNat_fieldsOf_bm1, ← toNat_fieldsOf_gs, ← toNat_fieldsOf_pw, ← toNat_fieldsOf_rsv, ← h]
  rw [tidy_eq_false_iff, wellFormed_instr_eq_false_iff]
  simp only [hrsv, hopReserved, htr.not_ge, hlane.ne, ne_eq, not_true_eq_false, and_false, false_or, or_assoc]

/-- A word fails a check of R105 exactly when it does not decode. -/
theorem illegalWord_iff (c : CmdWord) : illegalWord c ↔ ∀ i, decode c ≠ .ok i := by
  constructor
  · intro hillegal i hd
    obtain ⟨p, hfields, htidy, rfl, hwf⟩ := parts_of_decodeFields hd
    simp [illegalWord_iff_of_fields hfields, htidy, hwf] at hillegal
  · intro hnone
    by_contra hlegal
    obtain ⟨p, hfields⟩ := exists_parts_of_legal hlegal
    obtain ⟨htidy, hwf⟩ : p.tidy = true ∧ wellFormed p.instr = true := by
      simpa [illegalWord_iff_of_fields hfields] using hlegal
    exact hnone p.instr (hfields ▸ decodeFields_eq_ok htidy hwf :)

/-- Settles O3: an illegal word does not decode, so the execute step raises the fault; a legal word decodes, and its
command ends in `DONE` or another fault. -/
theorem illegalWordRaises : Obligations.IllegalWordRaises := by
  intro s hbusy hevents
  rw [step_of_no_events hevents, unitTurn_busy hbusy, illegalWord_iff]
  cases hd : decode s.cmd with
  | error e => exact ⟨fun _ => execute_of_illegal hd, fun hlegal => absurd (fun _ => nofun) hlegal⟩
  | ok i =>
    obtain ⟨t, ht, hfin, _⟩ := execute_ends hd
    refine ⟨fun hnone => absurd rfl (hnone i), fun _ => ⟨t, ht, ?_⟩⟩
    rcases hfin with hdone | ⟨f, hf, hfault⟩
    · simp [hdone]
    · simpa [hfault] using hf

end Sys2Proof.Machine
end

/-! PROOFS. The bit-width utilities (spec/40_bitwidth.md R141 to R144): `bw`, its count of groups and the maximum of an
array as the least bound they are, the array a whole-array read answers, the end of a VByte value as the first byte with
bit 7 clear, and what a command that writes no memory reports. -/

namespace Sys2Proof.Machine

/-! ### Widths, groups and maxima as least bounds -/

/-- R10: `bw` is the least number of bits that holds a number. -/
theorem bw_le_iff {x k : Nat} : bw x ≤ k ↔ x < 2 ^ k := by
  unfold bw
  split
  · next hzero => simp [hzero]
  · next hne => rw [Nat.succ_le_iff, Nat.log2_lt hne]

/-- A `w`-bit value needs no more than `w` bits. -/
theorem bw_toNat_le {w : Nat} (x : BitVec w) : bw x.toNat ≤ w := bw_le_iff.mpr x.isLt

theorem ceilDiv_le_iff {a b k : Nat} (hb : 0 < b) : ceilDiv a b ≤ k ↔ a ≤ b * k :=
  ceilDiv_le_iff_le_mul (b := a) (c := k) hb

theorem ceilDiv_mono {a a' b : Nat} (hb : 0 < b) (h : a ≤ a') : ceilDiv a b ≤ ceilDiv a' b :=
  (ceilDiv_le_iff hb).mpr (h.trans ((ceilDiv_le_iff hb).mp le_rfl))

/-- R143: `vblen` is the least positive number of 7-bit groups that holds a number. -/
theorem vblenOf_le_iff {v k : Nat} (hk : 1 ≤ k) : vblenOf v ≤ k ↔ v < 2 ^ (7 * k) := by
  rw [vblenOf, max_le_iff, and_iff_right hk, ceilDiv_le_iff (by decide), bw_le_iff]

theorem one_le_vblenOf (v : Nat) : 1 ≤ vblenOf v := le_max_left _ _

theorem listMax_le_iff {xs : List Nat} {b : Nat} : listMax xs ≤ b ↔ ∀ x ∈ xs, x ≤ b := by
  induction xs with
  | nil => simp [listMax]
  | cons x xs ih => simp [listMax, ih]

/-- The width of the maximum is the least width that holds every number. -/
theorem bw_listMax_le_iff {xs : List Nat} {k : Nat} : bw (listMax xs) ≤ k ↔ ∀ x ∈ xs, x < 2 ^ k := by
  rw [bw_le_iff, ← Nat.le_sub_one_iff_lt (Nat.two_pow_pos k), listMax_le_iff]
  simp only [Nat.le_sub_one_iff_lt (Nat.two_pow_pos k)]

/-! ### Element widths -/

theorem bits_div_eight (ws : Width) : ws.bits / 8 = ws.bytes := by cases ws <;> rfl

theorem bits_le (ws : Width) : ws.bits ≤ 64 := by cases ws <;> decide

/-! ### The array in the source window -/

@[simp] theorem srcWindow_len (s : State) : (srcWindow s).len = s.operands.srcLen.toNat := rfl

@[simp] theorem srcWindow_byte (s : State) (off : Nat) :
    (srcWindow s).byte off = s.mem.read (s.operands.srcBase.toNat + off) := rfl

theorem bytesFrom_add (f : Nat → Byte) (off j k : Nat) :
    bytesFrom f off (j + k) = bytesFrom f off j ++ bytesFrom f (off + j) k := by
  induction j generalizing off with
  | zero => simp [bytesFrom]
  | succ j ih => rw [Nat.succ_add, bytesFrom, bytesFrom, ih, List.cons_append, Nat.add_assoc, Nat.add_comm 1]

/-- Bytes of the source window are bytes of memory from `SRC_BASE` on (R73). -/
theorem bytesFrom_srcWindow (s : State) (off k : Nat) :
    bytesFrom (srcWindow s).byte off k = bytesFrom s.mem.read (s.operands.srcBase.toNat + off) k := by
  induction k generalizing off with
  | zero => rfl
  | succ k ih => simp only [bytesFrom, srcWindow_byte, ih, Nat.add_assoc]

/-- The elements cut from consecutive bytes, each by its index (R71). -/
theorem elements_bytesFrom (w n off : Nat) (f : Nat → Byte) :
    elements w n (bytesFrom f off (n * (w / 8))) =
      (List.range n).map fun i => BitVec.ofNat w (leValue (bytesFrom f (off + i * (w / 8)) (w / 8))) := by
  induction n generalizing off with
  | zero => rfl
  | succ n ih =>
    have hcut : bytesFrom f off ((n + 1) * (w / 8)) =
        bytesFrom f off (w / 8) ++ bytesFrom f (off + w / 8) (n * (w / 8)) := by
      rw [Nat.succ_mul, Nat.add_comm, bytesFrom_add]
    rw [elements, hcut, List.take_left' (bytesFrom_length ..), List.drop_left' (bytesFrom_length ..), ih,
      List.range_succ_eq_map]
    simp [Function.comp_def, Nat.succ_mul, Nat.add_assoc, Nat.add_comm (w / 8)]

/-- A whole-array read of a window that holds the array answers the array. -/
theorem srcElements_srcWindow {ws : Width} {s : State} (h : count s * ws.bytes ≤ s.operands.srcLen.toNat) :
    srcElements (srcWindow s) ws.bits (count s) = .ok (srcArray ws s) := by
  refine (srcElements_eq_ok ..).mpr ⟨by rwa [bits_div_eight ws], ?_⟩
  rw [elements_bytesFrom]
  simp only [bytesFrom_srcWindow, bits_div_eight ws, Nat.zero_add]
  rfl

theorem mem_srcArray {ws : Width} {s : State} {x : BitVec ws.bits} :
    x ∈ srcArray ws s ↔ ∃ i < count s, srcElem ws s i = x := by
  simp [srcArray]

/-! ### The end of a VByte value -/

/-- Past the window's end there is no byte to read. -/
theorem vbScan_beyond {v : Src} {pos : Nat} (h : v.len ≤ pos) (fuel : Nat) :
    vbScan v fuel pos = .error .srcBounds := by
  cases fuel with
  | zero => rfl
  | succ fuel => rw [vbScan, (srcRead_eq_error v pos 1 .srcBounds).mpr ⟨by omega, rfl⟩]

/-- A byte with bit 7 clear ends the value. -/
theorem vbScan_last {v : Src} {pos : Nat} (h : pos < v.len) (hlast : (v.byte pos).toNat < 128) (fuel : Nat) :
    vbScan v (fuel + 1) pos = .ok [v.byte pos] := by
  rw [vbScan, (srcRead_eq_ok v pos 1 _).mpr ⟨h, rfl⟩]
  simp [bytesFrom, hlast]

/-- After a byte with bit 7 set the value goes on. -/
theorem vbScan_continue {v : Src} {pos : Nat} (h : pos < v.len) (hgo : 128 ≤ (v.byte pos).toNat) (fuel : Nat) :
    vbScan v (fuel + 1) pos = (vbScan v fuel (pos + 1)).map (v.byte pos :: ·) := by
  rw [vbScan, (srcRead_eq_ok v pos 1 _).mpr ⟨h, rfl⟩]
  simp only [bytesFrom, List.all_cons, List.all_nil, Nat.not_lt.mpr hgo, decide_false, Bool.false_and]
  cases vbScan v fuel (pos + 1) <;> rfl

/-- R172: a value is read up to and with the first byte with bit 7 clear. -/
theorem vbScan_terminated {v : Src} {k pos fuel : Nat} (hfuel : k < fuel) (hlen : pos + k < v.len)
    (hgo : ∀ j, j < k → 128 ≤ (v.byte (pos + j)).toNat) (hlast : (v.byte (pos + k)).toNat < 128) :
    vbScan v fuel pos = .ok (bytesFrom v.byte pos (k + 1)) := by
  induction fuel generalizing k pos with
  | zero => omega
  | succ fuel ih =>
    cases k with
    | zero => exact vbScan_last hlen hlast fuel
    | succ k =>
      have hshift (j : Nat) : pos + 1 + j = pos + (j + 1) := by omega
      have hrest : vbScan v fuel (pos + 1) = .ok (bytesFrom v.byte (pos + 1) (k + 1)) :=
        ih (by omega) (by rwa [hshift]) (fun j hj => by rw [hshift]; exact hgo (j + 1) (by omega))
          (by rwa [hshift])
      rw [vbScan_continue (pos := pos) (by omega) (hgo 0 (by omega)), hrest]
      rfl

/-- R144: without such a byte the scan runs past the window. -/
theorem vbScan_unterminated {v : Src} {pos : Nat} (hgo : ∀ j, pos ≤ j → j < v.len → 128 ≤ (v.byte j).toNat)
    (fuel : Nat) : vbScan v fuel pos = .error .srcBounds := by
  induction fuel generalizing pos with
  | zero => rfl
  | succ fuel ih =>
    by_cases h : pos < v.len
    · rw [vbScan_continue h (hgo pos le_rfl h), ih fun j hj => hgo j (by omega)]
      rfl
    · exact vbScan_beyond (by omega) _

/-! ### Commands that write no memory -/

theorem toNat_resultOfNat {v : Nat} (h : v < 2 ^ 64) : (resultOfNat v).toNat = v :=
  Nat.mod_eq_of_lt h

/-- A command that writes no memory and has no index check passes the argument checks with a source window that
exists, or without reading one (spec/60_exceptions.md R283). -/
theorem argFault_eq_false_of_readOnly {i : Instr} {s : State} (hwrites : writesMem i = false)
    (hindex : indexFault i s.operands = false) (hsrc : readsMem i = true → SrcValid s) :
    argFault i s.operands = false := by
  simpa [argFault, hwrites, hindex, windowWraps] using hsrc

/-- A rule's output that fits completes the command. -/
theorem runCommand_ok {i : Instr} {o : Output} {s : State} (harg : argFault i s.operands = false)
    (hfit : o.bytes.length ≤ s.operands.dstCap.toNat) : runCommand i (.ok o) s = complete o s := by
  simp [runCommand, harg, Nat.not_lt.mpr hfit]

/-- A rule that reads beyond the source window raises `SRC_BOUNDS`. -/
theorem runCommand_srcBounds {i : Instr} {s : State} (harg : argFault i s.operands = false) :
    runCommand i (.error .srcBounds) s = raise .srcBounds (writesMem i) s := by
  simp [runCommand, harg]

/-- A command whose rule gives `RES` and `SRC_END` and no bytes reports the two (R46). -/
theorem reports_of_rule {i : Instr} {s : State} {rule : Except Stop Output} {a b : Word} {res srcEnd : Nat}
    (hexec : exec i s = .next (runCommand i rule s)) (harg : argFault i s.operands = false)
    (hrule : rule = .ok { results := { res := a, srcEnd := b } }) (hres : a.toNat = res)
    (hsrcEnd : b.toNat = srcEnd) : Reports i s res srcEnd := by
  subst hrule hres hsrcEnd
  rw [runCommand_ok harg (Nat.zero_le _)] at hexec
  refine ⟨_, hexec, rfl, ⟨rfl, rfl, rfl, rfl, rfl⟩, ?_, ⟨rfl, rfl, rfl, rfl, rfl, rfl, rfl⟩⟩
  rw [complete_mem, writeBytes_nil]

/-! ### The statements -/

/-- `KEY[W-1:0]` as a number (R33). -/
theorem toNat_keyElem (w : Nat) (s : State) : (keyElem w s).toNat = s.operands.key.toNat % 2 ^ w :=
  BitVec.toNat_setWidth ..

/-- Settles O27: the result is `bw` of the key, the least width that holds it. -/
theorem bitwLeastWidth : Obligations.BitwLeastWidth := by
  intro ws s
  have hle : bw (keyElem ws.bits s).toNat ≤ ws.bits := bw_toNat_le _
  refine ⟨bw (keyElem ws.bits s).toNat, ?_, hle, fun k => ?_⟩
  · have hres := toNat_resultOfNat (show bw (keyElem ws.bits s).toNat < 2 ^ 64 by have := bits_le ws; omega)
    exact reports_of_rule rfl (argFault_eq_false_of_readOnly rfl rfl nofun) rfl hres rfl
  · rw [bw_le_iff, toNat_keyElem]

/-- Settles O28: the result is `vblen` of the key, the least positive number of groups that holds it. -/
theorem vblenCountsGroups : Obligations.VblenCountsGroups := by
  intro ws s
  have hgroups : 1 ≤ ceilDiv ws.bits 7 := by cases ws <;> decide
  have hle : vblenOf (keyElem ws.bits s).toNat ≤ ceilDiv ws.bits 7 :=
    max_le hgroups (ceilDiv_mono (by decide) (bw_toNat_le _))
  refine ⟨vblenOf (keyElem ws.bits s).toNat, ?_, one_le_vblenOf _, hle, fun k hk => ?_⟩
  · have hmax : ceilDiv ws.bits 7 ≤ 10 := by cases ws <;> decide
    have hres := toNat_resultOfNat (show vblenOf (keyElem ws.bits s).toNat < 2 ^ 64 by omega)
    exact reports_of_rule rfl (argFault_eq_false_of_readOnly rfl rfl nofun) rfl hres rfl
  · rw [vblenOf_le_iff hk, toNat_keyElem]

/-- The width of an array's maximum is the least width that holds every element. -/
theorem bw_listMax_srcArray_le_iff {ws : Width} {s : State} {k : Nat} :
    bw (listMax ((srcArray ws s).map BitVec.toNat)) ≤ k ↔ ∀ i, i < count s → (srcElem ws s i).toNat < 2 ^ k := by
  simp [bw_listMax_le_iff, mem_srcArray]

/-- Settles O29: the rule reads the whole array, and the result is the width of its maximum. -/
theorem blkbitwHoldsAll : Obligations.BlkbitwHoldsAll := by
  intro ws s hsrc hlen
  refine ⟨bw (listMax ((srcArray ws s).map BitVec.toNat)), ?_, fun k => bw_listMax_srcArray_le_iff.symm⟩
  have hle : bw (listMax ((srcArray ws s).map BitVec.toNat)) ≤ ws.bits :=
    bw_listMax_srcArray_le_iff.mpr fun i _ => (srcElem ws s i).isLt
  have hrule : blkbitwRule ws.bits s =
      .ok { results := { res := resultOfNat (bw (listMax ((srcArray ws s).map BitVec.toNat)))
                         srcEnd := resultOfNat (count s * ws.bytes) } } := by
    rw [blkbitwRule, srcElements_srcWindow hlen, bits_div_eight ws]
  exact reports_of_rule rfl (argFault_eq_false_of_readOnly rfl rfl fun _ => hsrc) hrule
    (toNat_resultOfNat (by have := bits_le ws; omega))
    (toNat_resultOfNat (hlen.trans_lt s.operands.srcLen.isLt))

/-- Settles O30: the scan ends with the first byte with bit 7 clear, or past the window. -/
theorem vbvlenFindsTerminator : Obligations.VbvlenFindsTerminator := by
  intro s hsrc byte
  have harg : argFault .vbvlen s.operands = false := argFault_eq_false_of_readOnly rfl rfl fun _ => hsrc
  constructor
  · intro k hk hgo hlast
    have hscan : vbValueBytes (srcWindow s) 0 = .ok (bytesFrom (srcWindow s).byte 0 (k + 1)) :=
      vbScan_terminated (by rw [srcWindow_len]; omega) (by simpa using hk) (by simpa using hgo) (by simpa using hlast)
    have hrule : vbvlenRule s =
        .ok { results := { res := resultOfNat (k + 1), srcEnd := resultOfNat (k + 1) } } := by
      rw [vbvlenRule, hscan]
      simp only [bytesFrom_length]
    have hres := toNat_resultOfNat (show k + 1 < 2 ^ 64 by have := s.operands.srcLen.isLt; omega)
    exact reports_of_rule rfl harg hrule hres hres
  · intro hgo
    have hrule : vbvlenRule s = .error .srcBounds := by
      rw [vbvlenRule, vbValueBytes, vbScan_unterminated fun j _ hj => hgo j hj]
    refine ⟨raise .srcBounds false s, ?_, raise_status .., rfl, raise_operands ..⟩
    rw [exec, execVbvlen, hrule, runCommand_srcBounds harg, writesMem]

end Sys2Proof.Machine

/-! PROOFS. The transform stage and its two commands (spec/41_transform.md R150 to R166): one step of the transform and
one of its inverse undo each other, the transform chains, its element-wise form is the chaining taken one element at a
time, and what `XF_FWD` and `XF_INV` make of memory and the result registers is that form of the array in memory. -/

namespace Sys2Proof.Machine

/-! ### The transform and its inverse -/

/-- The inverse step takes the forward step back and goes on from the same running seeds (R166). -/
theorem xfiStep_xfStep {w : Nat} (tr : Transform) (p q x : BitVec w) :
    xfiStep tr p q (xfStep tr p q x).1 = (x, (xfStep tr p q x).2) := by
  cases tr with
  | ident => rfl
  | delta => simp [xfStep, xfiStep]
  | delta1 => simp only [xfStep, xfiStep, Prod.mk.injEq]; grind
  | zigzag => simp [xfStep, xfiStep]
  | ddelta => simp [xfStep, xfiStep]
  | xorPrev => simp [xfStep, xfiStep]

/-- The forward step takes the inverse step back and goes on from the same running seeds (R166). -/
theorem xfStep_xfiStep {w : Nat} (tr : Transform) (p q y : BitVec w) :
    xfStep tr p q (xfiStep tr p q y).1 = (y, (xfiStep tr p q y).2) := by
  cases tr with
  | ident => rfl
  | delta => simp [xfStep, xfiStep]
  | delta1 => simp only [xfStep, xfiStep, Prod.mk.injEq]; grind
  | zigzag => simp [xfStep, xfiStep]
  | ddelta => simp [xfStep, xfiStep]
  | xorPrev => simp [xfStep, xfiStep]

theorem xfi_xf {w : Nat} (tr : Transform) (p q : BitVec w) (xs : List (BitVec w)) :
    xfi tr p q (xf tr p q xs).xs = { xf tr p q xs with xs := xs } := by
  induction xs generalizing p q with
  | nil => rfl
  | cons x xs ih => simp only [xf, xfi, xfiStep_xfStep, ih]

theorem xf_xfi {w : Nat} (tr : Transform) (p q : BitVec w) (ys : List (BitVec w)) :
    xf tr p q (xfi tr p q ys).xs = { xfi tr p q ys with xs := ys } := by
  induction ys generalizing p q with
  | nil => rfl
  | cons y ys ih => simp only [xf, xfi, xfStep_xfiStep, ih]

/-- R165 for the transform. -/
theorem xf_append {w : Nat} (tr : Transform) (p q : BitVec w) (a b : List (BitVec w)) :
    xf tr p q (a ++ b) =
      { xf tr (xf tr p q a).p (xf tr p q a).q b with
        xs := (xf tr p q a).xs ++ (xf tr (xf tr p q a).p (xf tr p q a).q b).xs } := by
  induction a generalizing p q with
  | nil => rfl
  | cons x a ih => simp only [List.cons_append, xf, ih]

/-- R165 for the inverse. -/
theorem xfi_append {w : Nat} (tr : Transform) (p q : BitVec w) (a b : List (BitVec w)) :
    xfi tr p q (a ++ b) =
      { xfi tr (xfi tr p q a).p (xfi tr p q a).q b with
        xs := (xfi tr p q a).xs ++ (xfi tr (xfi tr p q a).p (xfi tr p q a).q b).xs } := by
  induction a generalizing p q with
  | nil => rfl
  | cons y a ih => simp only [List.cons_append, xfi, ih]

@[simp] theorem xf_length {w : Nat} (tr : Transform) (p q : BitVec w) (xs : List (BitVec w)) :
    (xf tr p q xs).xs.length = xs.length := by
  induction xs generalizing p q with
  | nil => rfl
  | cons x xs ih => simp only [xf, List.length_cons, ih]

@[simp] theorem xfi_length {w : Nat} (tr : Transform) (p q : BitVec w) (ys : List (BitVec w)) :
    (xfi tr p q ys).xs.length = ys.length := by
  induction ys generalizing p q with
  | nil => rfl
  | cons y ys ih => simp only [xfi, List.length_cons, ih]

/-- Settles O34. -/
theorem transformInverts : Obligations.TransformInverts :=
  fun _ tr p q xs => ⟨xfi_xf tr p q xs, xf_xfi tr p q xs⟩

/-- Settles O35. -/
theorem transformChains : Obligations.TransformChains :=
  fun _ tr p q a b => ⟨xf_append tr p q a b, xfi_append tr p q a b⟩

/-! ### The transform element by element -/

/-- The step at element `n`, taken from the running seeds after the first `n` elements, gives element `n` of the
forward transform and the running seeds after one more (R151 to R156). -/
theorem xfStep_seedAfter {w : Nat} (tr : Transform) (p q : BitVec w) (x : Nat → BitVec w) (n : Nat) :
    xfStep tr (seedAfter tr p x n) (seed2After tr p q x n) (x n) =
      (forwardAt tr p q x n, seedAfter tr p x (n + 1), seed2After tr p q x (n + 1)) := by
  cases tr <;> simp [xfStep, seedAfter, seed2After, forwardAt, prevOf, prevDiffOf]

/-- The transform of an array given by its elements. -/
theorem xf_map_range {w : Nat} (tr : Transform) (p q : BitVec w) (x : Nat → BitVec w) (n : Nat) :
    xf tr p q ((List.range n).map x) =
      { xs := (List.range n).map (forwardAt tr p q x), p := seedAfter tr p x n, q := seed2After tr p q x n } := by
  induction n with
  | zero => cases tr <;> rfl
  | succ n ih =>
    rw [List.range_succ, List.map_append, xf_append, ih]
    simp [xf, xfStep_seedAfter]

/-! ### Arrays in memory -/

/-- The array of `n` elements at a byte address (spec/20_memory.md R71). -/
def arrayAt (m : Memory) (ws : Width) (base n : Nat) : List (BitVec ws.bits) :=
  (List.range n).map (elemAt m ws base)

theorem srcArray_eq_arrayAt (ws : Width) (s : State) :
    srcArray ws s = arrayAt s.mem ws s.operands.srcBase.toNat (count s) := rfl

@[simp] theorem srcArray_length (ws : Width) (s : State) : (srcArray ws s).length = count s := by simp [srcArray]

/-- Equal arrays are equal element by element. -/
theorem arrayAt_eq_map_range_iff {m : Memory} {ws : Width} {base n : Nat} {x : Nat → BitVec ws.bits} :
    arrayAt m ws base n = (List.range n).map x ↔ ∀ i, i < n → elemAt m ws base i = x i := by
  simp [arrayAt]

theorem arrayAt_eq_elements (m : Memory) (ws : Width) (base n : Nat) :
    arrayAt m ws base n = elements ws.bits n (bytesFrom m.read base (n * ws.bytes)) := by
  rw [← bits_div_eight, elements_bytesFrom, bits_div_eight]
  rfl

theorem eight_mul_bytes (ws : Width) : 8 * ws.bytes = ws.bits := by cases ws <;> rfl

@[simp] theorem arrBytes_length {ws : Width} (xs : List (BitVec ws.bits)) :
    (arrBytes xs).length = xs.length * ws.bytes := by
  simp [arrBytes, bits_div_eight]

/-- The elements of `ARR(W, xs)` are `xs` (R71). -/
theorem elements_arrBytes {ws : Width} (xs : List (BitVec ws.bits)) :
    elements ws.bits xs.length (arrBytes xs) = xs := by
  induction xs with
  | nil => rfl
  | cons x xs ih =>
    have hcut : arrBytes (x :: xs) = leBytes (ws.bits / 8) x.toNat ++ arrBytes xs := rfl
    have hvalue : leValue (leBytes (ws.bits / 8) x.toNat) = x.toNat :=
      leValue_leBytes_of_lt (by rw [bits_div_eight, eight_mul_bytes]; exact x.isLt)
    rw [List.length_cons, elements, hcut, List.take_left' (leBytes_length ..), List.drop_left' (leBytes_length ..),
      hvalue, ih, BitVec.ofNat_toNat, BitVec.setWidth_eq]

/-- An array written reads back. -/
theorem arrayAt_writeBytes {ws : Width} (m : Memory) (base : Nat) (xs : List (BitVec ws.bits)) :
    arrayAt (m.writeBytes base (arrBytes xs)) ws base xs.length = xs := by
  rw [arrayAt_eq_elements, ← arrBytes_length, bytesFrom_writeBytes, elements_arrBytes]

/-! ### Commands that write memory -/

theorem windowsOverlap_eq_false_iff (s : State) : windowsOverlap s.operands = false ↔ Disjoint s := by
  simp only [windowsOverlap, Bool.and_eq_false_iff, decide_eq_false_iff_not]
  omega

/-- Windows that exist and lie apart, or have the same base where the command allows it, pass the argument checks
of a command that has no index check (spec/60_exceptions.md R283). -/
theorem argFault_eq_false_of_windows {i : Instr} {s : State} (hindex : indexFault i s.operands = false)
    (hsrc : SrcValid s) (hdst : DstValid s)
    (hapart : (inPlaceAllowed i = true ∧ s.operands.srcBase = s.operands.dstBase) ∨ Disjoint s) :
    argFault i s.operands = false := by
  have hoverlap : (inPlaceAllowed i && s.operands.srcBase == s.operands.dstBase) = true ∨
      windowsOverlap s.operands = false :=
    hapart.imp (by simp) (windowsOverlap_eq_false_iff s).mpr
  have hsrcWraps : windowWraps s.operands.srcBase s.operands.srcLen = false := by simpa [windowWraps] using hsrc
  have hdstWraps : windowWraps s.operands.dstBase s.operands.dstCap = false := by simpa [windowWraps] using hdst
  rcases hoverlap with h | h <;> simp [argFault, hindex, hsrcWraps, hdstWraps, h]

theorem argFault_eq_false_of_inPlace {i : Instr} {s : State} (hindex : indexFault i s.operands = false)
    (hallowed : inPlaceAllowed i = true) (hwin : WindowsReadyInPlace s) : argFault i s.operands = false := by
  obtain ⟨hsrc, hdst, hapart⟩ := hwin
  exact argFault_eq_false_of_windows hindex hsrc hdst (hapart.imp_left (⟨hallowed, ·⟩))

/-- Completing changes the results, the status and the memory, nothing else. -/
theorem sameElse_complete (o : Output) (s : State) : SameElse s (complete o s) :=
  ⟨rfl, rfl, rfl, rfl, rfl, rfl, rfl⟩

/-- Completing writes the output's bytes from `DST_BASE` on (spec/20_memory.md R81). -/
theorem wrote_complete (o : Output) (s : State) : Wrote s (complete o s) o.bytes :=
  ⟨bytesFrom_writeBytes .., fun a ha => read_writeBytes_outside _ _ _ a ha⟩

/-- A command that ends in `DONE` passed its checks, and its rule gave an output that fits or left the outcome free. -/
theorem runCommand_done {i : Instr} {rule : Except Stop Output} {s : State}
    (h : (runCommand i rule s).status = .done) :
    argFault i s.operands = false ∧
      ((∃ o, rule = .ok o ∧ o.bytes.length ≤ s.operands.dstCap.toNat ∧ runCommand i rule s = complete o s) ∨
        rule = .error .malformed ∨ rule = .error .contract) := by
  rcases runCommand_cases i rule s with
    ⟨_, hrun⟩ | ⟨harg, ⟨o, _, _, hrun⟩ | hok | ⟨_, hrun⟩ | ⟨hrule, _⟩ | ⟨hrule, _⟩⟩
  · simp [hrun] at h
  · simp [hrun] at h
  · exact ⟨harg, .inl hok⟩
  · simp [hrun] at h
  · exact ⟨harg, .inr (.inl hrule)⟩
  · exact ⟨harg, .inr (.inr hrule)⟩

/-! ### Commands with the transform stage -/

/-- What an encoder makes of the array in the source window, laid out by its format (R163, R168). -/
def sentOutput (ws : Width) (tr : Transform) (layout : List (BitVec ws.bits) → List Byte) (s : State) : Output where
  bytes := layout (sent ws tr s).xs
  results := seededResults (count s * ws.bytes) (layout (sent ws tr s).xs).length (sent ws tr s)

/-- An encoder's rule on a source window that holds the array. -/
theorem encodeRule_eq_ok {ws : Width} {s : State} (h : count s * ws.bytes ≤ s.operands.srcLen.toNat)
    (tr : Transform) (layout : List (BitVec ws.bits) → List Byte) :
    encodeRule ws.bits tr layout s = .ok (sentOutput ws tr layout s) := by
  simp only [encodeRule, srcElements_srcWindow h, bits_div_eight]
  rfl

/-- An encoder's rule on a source window that does not hold the array. -/
theorem encodeRule_eq_error {ws : Width} {s : State} (h : s.operands.srcLen.toNat < count s * ws.bytes)
    (tr : Transform) (layout : List (BitVec ws.bits) → List Byte) :
    encodeRule ws.bits tr layout s = .error .srcBounds := by
  rw [encodeRule, (srcElements_eq_error _ _ _ .srcBounds).mpr ⟨by rwa [bits_div_eight], rfl⟩]

/-- An encoder that ends in `DONE` completed with its output, for its rule leaves no outcome free. -/
theorem encode_done {i : Instr} {ws : Width} {tr : Transform} {layout : List (BitVec ws.bits) → List Byte} {s : State}
    (h : (runCommand i (encodeRule ws.bits tr layout s) s).status = .done) :
    runCommand i (encodeRule ws.bits tr layout s) s = complete (sentOutput ws tr layout s) s := by
  obtain ⟨_, hends⟩ := runCommand_done h
  by_cases hlen : count s * ws.bytes ≤ s.operands.srcLen.toNat
  · rw [encodeRule_eq_ok hlen] at hends ⊢
    obtain ⟨o, ho, _, hrun⟩ | h | h := hends
    · cases ho
      exact hrun
    · cases h
    · cases h
  · simp [encodeRule_eq_error (Nat.not_le.mp hlen)] at hends

/-- The output of `XF_FWD` and `XF_INV`: the array, and both cursors past it (R163, R164). -/
def arrayOutput {ws : Width} (r : Seeded ws.bits) : Output where
  bytes := arrBytes r.xs
  results := seededResults (r.xs.length * ws.bytes) (r.xs.length * ws.bytes) r

theorem sentOutput_arrBytes (ws : Width) (tr : Transform) (s : State) :
    sentOutput ws tr arrBytes s = arrayOutput (sent ws tr s) := by
  simp [sentOutput, arrayOutput, sent]

/-- What the inverse transform makes of the array in the source window (R150). -/
def received (ws : Width) (tr : Transform) (s : State) : Seeded ws.bits :=
  xfi tr (seedElem ws.bits s) (seed2Elem ws.bits s) (srcArray ws s)

theorem xfInvRule_eq_ok {ws : Width} {s : State} (h : count s * ws.bytes ≤ s.operands.srcLen.toNat)
    (tr : Transform) : xfInvRule ws.bits tr s = .ok (arrayOutput (received ws tr s)) := by
  simp [xfInvRule, srcElements_srcWindow h, bits_div_eight, arrayOutput, received]

@[simp] theorem sent_length (ws : Width) (tr : Transform) (s : State) : (sent ws tr s).xs.length = count s := by
  simp [sent]

@[simp] theorem received_length (ws : Width) (tr : Transform) (s : State) :
    (received ws tr s).xs.length = count s := by
  simp [received]

/-- The array written stands in the destination window. -/
theorem arrayAt_complete {ws : Width} {r : Seeded ws.bits} {n : Nat} (hlen : r.xs.length = n) (s : State) :
    arrayAt (complete (arrayOutput r) s).mem ws s.operands.dstBase.toNat n = r.xs := by
  subst hlen
  exact arrayAt_writeBytes ..

theorem toNat_resultOfElem {ws : Width} (v : BitVec ws.bits) : (resultOfElem v).toNat = v.toNat :=
  BitVec.toNat_setWidth_of_le (bits_le ws)

/-- The result registers hold the cursors and the running seeds. -/
theorem resultsAre_complete {ws : Width} {r : Seeded ws.bits} {n : Nat} {s : State} (hlen : r.xs.length = n)
    (hfit : n * ws.bytes ≤ s.operands.dstCap.toNat) :
    ResultsAre (complete (arrayOutput r) s) 0 (n * ws.bytes) (n * ws.bytes) r.p.toNat r.q.toNat := by
  subst hlen
  have hcursor := toNat_resultOfNat (hfit.trans_lt s.operands.dstCap.isLt)
  exact ⟨rfl, hcursor, hcursor, toNat_resultOfElem r.p, toNat_resultOfElem r.q⟩

section
variable {ws : Width} {s : State} (tr : Transform) (hwin : WindowsReadyInPlace s)
  (hsrc : count s * ws.bytes ≤ s.operands.srcLen.toNat) (hdst : count s * ws.bytes ≤ s.operands.dstCap.toNat)
include hwin hsrc hdst

/-- `XF_FWD` completes with the transform of the array in the source window (R163). -/
theorem exec_xfFwd : exec (.xfFwd ws tr) s = .next (complete (arrayOutput (sent ws tr s)) s) := by
  rw [exec, execXfFwd, encodeRule_eq_ok hsrc, sentOutput_arrBytes,
    runCommand_ok (argFault_eq_false_of_inPlace rfl rfl hwin) (by simpa [arrayOutput] using hdst)]

/-- `XF_INV` completes with the inverse transform of the array in the source window (R164). -/
theorem exec_xfInv : exec (.xfInv ws tr) s = .next (complete (arrayOutput (received ws tr s)) s) := by
  rw [exec, execXfInv, xfInvRule_eq_ok hsrc,
    runCommand_ok (argFault_eq_false_of_inPlace rfl rfl hwin) (by simpa [arrayOutput] using hdst)]

end

/-- `XF_FWD` in `DONE` has written the transform of the array in the source window. -/
theorem exec_xfFwd_done {ws : Width} {tr : Transform} {s t : State} (hexec : exec (.xfFwd ws tr) s = .next t)
    (hdone : t.status = .done) : t = complete (arrayOutput (sent ws tr s)) s := by
  rw [exec, execXfFwd] at hexec
  cases hexec
  rw [encode_done hdone, sentOutput_arrBytes]

/-! ### The statements about the two commands -/

/-- Settles O33: `XF_FWD` left the transform in memory, `XF_INV` reads it there, and the inverse gives the array back
with the running seeds of the transform. -/
theorem xfRoundTrip : Obligations.XfRoundTrip := by
  intro ws tr s t s' hexec hdone hwin hn hseed hseed2 hsrc hdst hback
  have hcount : count s' = count s := congrArg BitVec.toNat hn
  have hseedElem : seedElem ws.bits s' = seedElem ws.bits s := congrArg (BitVec.setWidth ws.bits) hseed
  have hseed2Elem : seed2Elem ws.bits s' = seed2Elem ws.bits s := congrArg (BitVec.setWidth ws.bits) hseed2
  obtain rfl := exec_xfFwd_done hexec hdone
  have hsent : srcArray ws s' = (sent ws tr s).xs :=
    calc srcArray ws s'
        = arrayAt (complete (arrayOutput (sent ws tr s)) s).mem ws s.operands.dstBase.toNat (count s) := by
          rw [srcArray_eq_arrayAt, hcount]
          exact arrayAt_eq_map_range_iff.mpr hback
      _ = (sent ws tr s).xs := arrayAt_complete (sent_length ..) s
  have hreceived : received ws tr s' = { sent ws tr s with xs := srcArray ws s } := by
    rw [received, hsent, hseedElem, hseed2Elem]
    exact xfi_xf ..
  refine ⟨_, exec_xfInv tr hwin (by rwa [hcount]) (by rwa [hcount]), rfl, ?_, ?_⟩
  · rw [← arrayAt_eq_map_range_iff, arrayAt_complete ((received_length ..).trans hcount), hreceived]
    rfl
  · rw [hreceived]
    simp [arrayOutput, seededResults]

/-- Settles O31: the array written is the transform of the source array, element by element. -/
theorem xfFwdElements : Obligations.XfFwdElements := by
  intro ws tr s hwin hsrc hdst p q x
  have hsent : sent ws tr s =
      { xs := (List.range (count s)).map (forwardAt tr p q x)
        p := seedAfter tr p x (count s), q := seed2After tr p q x (count s) } := xf_map_range ..
  refine ⟨_, arrBytes (sent ws tr s).xs, exec_xfFwd tr hwin hsrc hdst, rfl, sameElse_complete .., by simp,
    wrote_complete (arrayOutput _) s, ?_, ?_⟩
  · rw [← arrayAt_eq_map_range_iff, arrayAt_complete (sent_length ..), hsent]
  · have hresults := resultsAre_complete (sent_length ws tr s) hdst
    rwa [hsent] at hresults ⊢

/-- Settles O32: the transform of the array written is the source array, so the source array is its transform element
by element. -/
theorem xfInvElements : Obligations.XfInvElements := by
  intro ws tr s hwin hsrc hdst p q
  refine ⟨_, arrBytes (received ws tr s).xs, exec_xfInv tr hwin hsrc hdst, rfl, sameElse_complete .., by simp,
    wrote_complete (arrayOutput _) s, ?_⟩
  intro x
  have harray : (List.range (count s)).map x = (received ws tr s).xs := arrayAt_complete (received_length ..) s
  have hforward : ({ received ws tr s with xs := srcArray ws s } : Seeded ws.bits) =
      { xs := (List.range (count s)).map (forwardAt tr p q x)
        p := seedAfter tr p x (count s), q := seed2After tr p q x (count s) } :=
    calc _ = xf tr p q (received ws tr s).xs := (xf_xfi ..).symm
      _ = xf tr p q ((List.range (count s)).map x) := by rw [harray]
      _ = _ := xf_map_range ..
  obtain ⟨hxs, hp, hq⟩ := Seeded.mk.inj hforward
  refine ⟨arrayAt_eq_map_range_iff.mp hxs, ?_⟩
  rw [← hp, ← hq]
  exact resultsAre_complete (received_length ..) hdst

end Sys2Proof.Machine

/-! PROOFS. What encoders with the transform stage and decoders have in common, whatever their format
(spec/41_transform.md R163, R168; spec/20_memory.md R73 to R81): reads of a window that begins with known bytes, and
what memory and the result registers hold once the rule's answer is known. -/

namespace Sys2Proof.Machine

theorem toNat_lt_two_pow {ws : Width} (v : BitVec ws.bits) : v.toNat < 2 ^ 64 :=
  v.isLt.trans_le (Nat.pow_le_pow_right (by decide) (bits_le ws))

/-! ### Windows -/

/-- A window holds two byte strings one after the other when it holds each. -/
theorem srcRead_append_iff {v : Src} {pos : Nat} {a b : List Byte} :
    srcRead v pos (a ++ b).length = .ok (a ++ b) ↔
      srcRead v pos a.length = .ok a ∧ srcRead v (pos + a.length) b.length = .ok b := by
  simp only [srcRead_eq_ok, List.length_append, bytesFrom_add]
  constructor
  · rintro ⟨hlen, hbytes⟩
    obtain ⟨ha, hb⟩ := List.append_inj hbytes (by simp)
    exact ⟨⟨by omega, ha⟩, by omega, hb⟩
  · rintro ⟨⟨_, ha⟩, hlen, hb⟩
    exact ⟨by omega, by rw [← ha, ← hb]⟩

/-- A window that begins with some bytes answers a read of them (spec/20_memory.md R74). -/
theorem beginsWith_iff_srcRead {s : State} {out : List Byte} :
    BeginsWith s out ↔ srcRead (srcWindow s) 0 out.length = .ok out := by
  rw [srcRead_eq_ok, bytesFrom_srcWindow, srcWindow_len, Nat.zero_add, Nat.add_zero, eq_comm (a := out)]

/-- Windows as a command that writes memory needs them pass the checks of one without an index check (R283). -/
theorem argFault_eq_false_of_ready {i : Instr} {s : State} (hindex : indexFault i s.operands = false)
    (hwin : WindowsReady s) : argFault i s.operands = false := by
  obtain ⟨hsrc, hdst, hapart⟩ := hwin
  exact argFault_eq_false_of_windows hindex hsrc hdst (.inr hapart)

/-! ### Encoders with the transform stage -/

theorem sent_getElem? {ws : Width} {s : State} {i : Nat} (hi : i < count s) (tr : Transform) :
    (sent ws tr s).xs[i]? =
      some (forwardAt tr (seedElem ws.bits s) (seed2Elem ws.bits s) (srcElem ws s) i) := by
  rw [sent, srcArray, xf_map_range]
  simp [hi]

/-- The result registers after an encoder completed: the cursors and the running seeds (R173). -/
theorem resultsAre_sentOutput {ws : Width} {tr : Transform} {layout : List (BitVec ws.bits) → List Byte} {s : State}
    (hsrc : count s * ws.bytes ≤ s.operands.srcLen.toNat)
    (hfit : (layout (sent ws tr s).xs).length ≤ s.operands.dstCap.toNat) :
    ResultsAre (complete (sentOutput ws tr layout s) s) 0 (count s * ws.bytes) (layout (sent ws tr s).xs).length
      (sent ws tr s).p.toNat (sent ws tr s).q.toNat :=
  ⟨rfl, toNat_resultOfNat (hsrc.trans_lt s.operands.srcLen.isLt),
    toNat_resultOfNat (hfit.trans_lt s.operands.dstCap.isLt), toNat_resultOfElem _, toNat_resultOfElem _⟩

/-- An encoder that ends in `DONE` found the whole array in its source window, and its output fits. -/
theorem encode_done_fits {i : Instr} {ws : Width} {tr : Transform} {layout : List (BitVec ws.bits) → List Byte}
    {s : State} (h : (runCommand i (encodeRule ws.bits tr layout s) s).status = .done) :
    count s * ws.bytes ≤ s.operands.srcLen.toNat ∧
      (layout (sent ws tr s).xs).length ≤ s.operands.dstCap.toNat := by
  obtain ⟨_, hends⟩ := runCommand_done h
  by_cases hsrc : count s * ws.bytes ≤ s.operands.srcLen.toNat
  · rw [encodeRule_eq_ok hsrc] at hends
    obtain ⟨_, ⟨⟩, hfit, _⟩ | ⟨⟨⟩⟩ | ⟨⟨⟩⟩ := hends
    exact ⟨hsrc, hfit⟩
  · simp [encodeRule_eq_error (Nat.not_le.mp hsrc)] at hends

/-- What an encoder in `DONE` wrote is the layout of the transformed array. -/
theorem bytesFrom_encode_done {i : Instr} {ws : Width} {tr : Transform} {layout : List (BitVec ws.bits) → List Byte}
    {s t : State} (ht : t = runCommand i (encodeRule ws.bits tr layout s) s) (hdone : t.status = .done) :
    bytesFrom t.mem.read s.operands.dstBase.toNat t.results.dstEnd.toNat = layout (sent ws tr s).xs ∧
      ResultsAre t 0 (count s * ws.bytes) (layout (sent ws tr s).xs).length
        (sent ws tr s).p.toNat (sent ws tr s).q.toNat := by
  subst ht
  obtain ⟨hsrc, hfit⟩ := encode_done_fits hdone
  rw [encode_done hdone]
  have hresults := resultsAre_sentOutput (tr := tr) (layout := layout) hsrc hfit
  refine ⟨?_, hresults⟩
  obtain ⟨_, _, hdstEnd, _, _⟩ := hresults
  rw [hdstEnd]
  exact bytesFrom_writeBytes ..

/-! ### Decoders -/

/-- The output of a decoder: the array, the cursors past the buffer and past the array, the running seeds (R174). -/
def decodedOutput {ws : Width} (d : Decoded ws.bits) : Output where
  bytes := arrBytes d.seeded.xs
  results := seededResults d.pos (d.seeded.xs.length * ws.bytes) d.seeded

/-- A decoder that answers `N` elements, for which there is room, writes them and nothing else. -/
theorem exec_decode_writes {i : Instr} {ws : Width} {decoder : Nat → Except Stop (Decoded ws.bits)}
    {d : Decoded ws.bits} {s : State} (hexec : exec i s = .next (runCommand i (decodeRule decoder s) s))
    (harg : argFault i s.operands = false) (hdecoder : decoder (count s) = .ok d)
    (hlen : d.seeded.xs.length = count s) (hpos : d.pos ≤ s.operands.srcLen.toNat)
    (hfit : count s * ws.bytes ≤ s.operands.dstCap.toNat) :
    ∃ t, exec i s = .next t ∧ t.status = .done ∧ SameElse s t ∧ Wrote s t (arrBytes d.seeded.xs) ∧
      (∀ i, i < count s → d.seeded.xs[i]? = some (elemAt t.mem ws s.operands.dstBase.toNat i)) ∧
      ResultsAre t 0 d.pos (count s * ws.bytes) d.seeded.p.toNat d.seeded.q.toNat := by
  have hrule : decodeRule decoder s = .ok (decodedOutput d) := by
    simp only [decodeRule, hdecoder, decodedOutput, hlen, bits_div_eight]
  have harray : arrayAt (complete (decodedOutput d) s).mem ws s.operands.dstBase.toNat (count s) = d.seeded.xs := by
    rw [← hlen]
    exact arrayAt_writeBytes ..
  rw [hrule, runCommand_ok harg (by simpa [decodedOutput, hlen] using hfit)] at hexec
  refine ⟨_, hexec, rfl, sameElse_complete .., wrote_complete (decodedOutput d) s, fun i hi => ?_, rfl, ?_, ?_,
    toNat_resultOfElem _, toNat_resultOfElem _⟩
  · rw [← harray]
    simp [arrayAt, hi]
  · exact toNat_resultOfNat (hpos.trans_lt s.operands.srcLen.isLt)
  · rw [← hlen] at hfit ⊢
    exact toNat_resultOfNat (hfit.trans_lt s.operands.dstCap.isLt)

end Sys2Proof.Machine

/-! PROOFS. The scalar VByte codec (spec/42_vbyte.md R170 to R176): the bytes of `vb_put` by one induction over its
repetition, `vb_get` on a window that holds them, and the two commands. -/

namespace Sys2Proof.Machine

/-! ### Groups of seven bits -/

theorem vblenOf_of_lt {v : Nat} (h : v < 128) : vblenOf v = 1 :=
  le_antisymm ((vblenOf_le_iff le_rfl).mpr h) (one_le_vblenOf v)

/-- A value of more than seven bits has one group more than the rest of it. -/
theorem vblenOf_of_le {v : Nat} (h : 128 ≤ v) : vblenOf v = vblenOf (v / 128) + 1 := by
  have hiff {k : Nat} (hk : 1 ≤ k) : vblenOf v ≤ k + 1 ↔ vblenOf (v / 128) ≤ k := by
    rw [vblenOf_le_iff (by omega), vblenOf_le_iff hk, Nat.mul_succ, Nat.pow_add, Nat.div_lt_iff_lt_mul (by decide)]
  have hmore : ¬ vblenOf v ≤ 1 := by rw [vblenOf_le_iff le_rfl]; omega
  have hle : vblenOf v ≤ vblenOf (v / 128) + 1 := (hiff (one_le_vblenOf _)).mpr le_rfl
  have hge : vblenOf (v / 128) ≤ vblenOf v - 1 := (hiff (by omega)).mp (by omega)
  omega

/-- A `W`-bit value needs no more groups than `W` bits do (R175). -/
theorem vblenOf_toNat_le {ws : Width} (v : BitVec ws.bits) : vblenOf v.toNat ≤ ceilDiv ws.bits 7 :=
  max_le (by cases ws <;> decide) (ceilDiv_mono (by decide) (bw_toNat_le v))

/-! ### The bytes of a value -/

theorem vbPutFuel_of_lt {v : Nat} (h : v < 128) (fuel : Nat) : vbPutFuel (fuel + 1) v = [BitVec.ofNat 8 v] := by
  rw [vbPutFuel, if_pos (Nat.div_eq_of_lt h), Nat.mod_eq_of_lt h]

theorem vbPutFuel_of_le {v : Nat} (h : 128 ≤ v) (fuel : Nat) :
    vbPutFuel (fuel + 1) v = BitVec.ofNat 8 (v % 128 + 128) :: vbPutFuel fuel (v / 128) := by
  rw [vbPutFuel, if_neg (by omega)]

/-- The induction over the repetition of `vb_put` (R171): the last byte holds a value below 128, any other byte the low
seven bits of a value of which the rest follows. -/
theorem vbPut_induction {P : Nat → List Byte → Prop} (last : ∀ v, v < 128 → P v [BitVec.ofNat 8 v])
    (more : ∀ v bs, 128 ≤ v → P (v / 128) bs → P v (BitVec.ofNat 8 (v % 128 + 128) :: bs)) {v : Nat}
    (hv : v < 2 ^ 64) : P v (vbPut v) := by
  have hfuel (fuel v : Nat) (h : v < 128 ^ (fuel + 1)) : P v (vbPutFuel (fuel + 1) v) := by
    induction fuel generalizing v with
    | zero => rw [vbPutFuel_of_lt h]; exact last v h
    | succ fuel ih =>
      by_cases hlt : v < 128
      · rw [vbPutFuel_of_lt hlt]
        exact last v hlt
      · rw [vbPutFuel_of_le (Nat.not_lt.mp hlt)]
        exact more v _ (Nat.not_lt.mp hlt) (ih _ ((Nat.div_lt_iff_lt_mul (by decide)).mpr h))
  exact hfuel 9 v (hv.trans (by decide))

theorem vbPut_length {v : Nat} (hv : v < 2 ^ 64) : (vbPut v).length = vblenOf v := by
  refine vbPut_induction (P := fun v bs => bs.length = vblenOf v) ?last ?more hv
  case last => exact fun v h => (vblenOf_of_lt h).symm
  case more => exact fun v bs h ih => by rw [List.length_cons, ih, vblenOf_of_le h]

/-- Byte `j` carries the seven bits from `7j` on, and bit 7 exactly when a further byte follows (R171). -/
theorem toNat_getD_vbPut {v j : Nat} (hv : v < 2 ^ 64) (hj : j < vblenOf v) :
    ((vbPut v).getD j 0#8).toNat = v / 128 ^ j % 128 + if j + 1 < vblenOf v then 128 else 0 := by
  refine vbPut_induction (P := fun v bs => ∀ j, j < vblenOf v →
    (bs.getD j 0#8).toNat = v / 128 ^ j % 128 + if j + 1 < vblenOf v then 128 else 0) ?last ?more hv j hj
  case last =>
    intro v h j hj
    rw [vblenOf_of_lt h] at hj ⊢
    obtain rfl : j = 0 := by omega
    rw [List.getD_cons_zero, BitVec.toNat_ofNat, Nat.pow_zero, Nat.div_one, if_neg (by decide)]
    omega
  case more =>
    intro v bs h ih j hj
    rw [vblenOf_of_le h] at hj ⊢
    cases j with
    | zero =>
      have hmore : 0 + 1 < vblenOf (v / 128) + 1 := Nat.succ_lt_succ (one_le_vblenOf _)
      rw [List.getD_cons_zero, BitVec.toNat_ofNat, Nat.pow_zero, Nat.div_one, if_pos hmore]
      omega
    | succ j =>
      rw [List.getD_cons_succ, ih j (by omega), Nat.div_div_eq_div_mul, ← Nat.pow_succ']
      simp only [Nat.add_lt_add_iff_right]

/-- `vb_put` loses no bit: the groups are the value again (R172). -/
theorem vbPayload_vbPut {v : Nat} (hv : v < 2 ^ 64) : vbPayload (vbPut v) = v := by
  refine vbPut_induction (P := fun v bs => vbPayload bs = v) ?last ?more hv
  case last => intro v h; rw [vbPayload, vbPayload, BitVec.toNat_ofNat]; omega
  case more => intro v bs h ih; rw [vbPayload, ih, BitVec.toNat_ofNat]; omega

/-- Settles O40, by the induction over the repetition of `vb_put`, once for the length and once for the bytes. -/
theorem vbyteFormat : Obligations.VbyteFormat := fun _ hv => ⟨vbPut_length hv, fun _ hj => toNat_getD_vbPut hv hj⟩

/-! ### The buffer of an array -/

theorem vbLayout_length {ws : Width} (xs : List (BitVec ws.bits)) :
    (vbLayout xs).length = (xs.map fun v => vblenOf v.toNat).sum := by
  simp [vbLayout, List.length_flatMap, vbPut_length (toNat_lt_two_pow _)]

/-- An element takes at least one byte. -/
theorem length_le_vbLayout {ws : Width} (xs : List (BitVec ws.bits)) : xs.length ≤ (vbLayout xs).length := by
  rw [vbLayout_length]
  simpa using List.card_nsmul_le_sum (xs.map fun v => vblenOf v.toNat) 1 (by simp [one_le_vblenOf])

/-- An element takes at most `ceil(W/7)` bytes (R175, R317). -/
theorem vbLayout_length_le {ws : Width} (xs : List (BitVec ws.bits)) :
    (vbLayout xs).length ≤ xs.length * ceilDiv ws.bits 7 := by
  rw [vbLayout_length]
  simpa using List.sum_le_card_nsmul (xs.map fun v => vblenOf v.toNat) (ceilDiv ws.bits 7)
    (by simp [vblenOf_toNat_le])

/-! ### Reading a buffer back -/

/-- The bytes of a value that a window holds are read up to its end. -/
theorem vbValueBytes_vbPut {v : Src} {pos x : Nat} (hx : x < 2 ^ 64)
    (h : srcRead v pos (vbPut x).length = .ok (vbPut x)) : vbValueBytes v pos = .ok (vbPut x) := by
  obtain ⟨hlen, hbytes⟩ := (srcRead_eq_ok ..).mp h
  have hcount := vbPut_length hx
  have hpos := one_le_vblenOf x
  have hbyte (j : Nat) (hj : j < vblenOf x) : (v.byte (pos + j)).toNat =
      x / 128 ^ j % 128 + if j + 1 < vblenOf x then 128 else 0 := by
    rw [← toNat_getD_vbPut hx hj, hbytes, List.getD_eq_getElem?_getD, bytesFrom_getElem? _ _ _ _ (by omega)]
    rfl
  have hscan : vbValueBytes v pos = .ok (bytesFrom v.byte pos (vblenOf x - 1 + 1)) := by
    refine vbScan_terminated (by omega) (by omega) (fun j hj => ?_) ?_
    · rw [hbyte j (by omega), if_pos (by omega)]
      omega
    · rw [hbyte _ (by omega), if_neg (by omega)]
      omega
  rw [hscan, Nat.sub_add_cancel hpos, ← hcount, ← hbytes]

/-- `vb_get` on the bytes of a `W`-bit value answers the value and the offset past it (R172). -/
theorem vbGet_vbPut {ws : Width} {v : Src} {pos : Nat} {x : BitVec ws.bits}
    (h : srcRead v pos (vbPut x.toNat).length = .ok (vbPut x.toNat)) :
    vbGet v ws.bits pos = .ok (x, pos + (vbPut x.toNat).length) := by
  have hx := toNat_lt_two_pow x
  have hgroups : ¬ ceilDiv ws.bits 7 < (vbPut x.toNat).length := by
    rw [vbPut_length hx]
    exact Nat.not_lt.mpr (vblenOf_toNat_le x)
  simp [vbGet, vbValueBytes_vbPut hx h, hgroups, vbPayload_vbPut hx, x.isLt]

/-- The values of a buffer that a window holds are read one after the other (R174). -/
theorem vbGetAll_vbLayout {ws : Width} {v : Src} {pos : Nat} {xs : List (BitVec ws.bits)}
    (h : srcRead v pos (vbLayout xs).length = .ok (vbLayout xs)) :
    vbGetAll v ws.bits xs.length pos = .ok (xs, pos + (vbLayout xs).length) := by
  induction xs generalizing pos with
  | nil => rfl
  | cons x xs ih =>
    have hcut : vbLayout (x :: xs) = vbPut x.toNat ++ vbLayout xs := rfl
    rw [hcut] at h ⊢
    obtain ⟨hfirst, hrest⟩ := srcRead_append_iff.mp h
    simp only [List.length_cons, vbGetAll, vbGet_vbPut hfirst, ih hrest, List.length_append, Nat.add_assoc]

/-- The decoder on a window that begins with the buffer of transformed values (R174). -/
theorem vbDecode_vbLayout {ws : Width} {s : State} {ys : List (BitVec ws.bits)} (h : BeginsWith s (vbLayout ys))
    (tr : Transform) :
    vbDecode ws.bits tr s ys.length =
      .ok { seeded := xfi tr (seedElem ws.bits s) (seed2Elem ws.bits s) ys, pos := (vbLayout ys).length } := by
  simp only [vbDecode, vbGetAll_vbLayout (beginsWith_iff_srcRead.mp h), Nat.zero_add]

/-! ### The statements about the two commands -/

/-- Settles O41: the rule's output is the buffer of the transformed array, of one to `ceil(W/7)` bytes an element. -/
theorem vbEncWritesBuffer : Obligations.VbEncWritesBuffer := by
  intro ws tr s r out
  have hcount : r.xs.length = count s := sent_length ..
  refine ⟨hcount ▸ length_le_vbLayout r.xs, hcount ▸ vbLayout_length_le r.xs, fun hwin hsrc hfit => ?_⟩
  have hexec : exec (.vbEnc ws tr) s = .next (complete (sentOutput ws tr vbLayout s) s) := by
    rw [exec, execVbEnc, encodeRule_eq_ok hsrc, runCommand_ok (argFault_eq_false_of_ready rfl hwin) hfit]
  exact ⟨_, hexec, rfl, sameElse_complete .., hcount, fun i hi => sent_getElem? hi tr,
    wrote_complete (sentOutput ws tr vbLayout s) s, vbLayout_length r.xs, resultsAre_sentOutput hsrc hfit⟩

/-- Settles O42: the decoder reads the transformed array back, and the inverse transform takes it to the array. -/
theorem vbDecRestores : Obligations.VbDecRestores := by
  intro ws tr s xs hlen r hwin hbegins hfit
  have hdecoder : vbDecode ws.bits tr s (count s) =
      .ok { seeded := { r with xs := xs }, pos := (vbLayout r.xs).length } := by
    rw [← hlen, ← xf_length tr (seedElem ws.bits s) (seed2Elem ws.bits s) xs, vbDecode_vbLayout hbegins, xfi_xf]
  obtain ⟨hneed, _⟩ := hbegins
  exact exec_decode_writes rfl (argFault_eq_false_of_ready rfl hwin) hdecoder hlen hneed hfit

/-- Settles O43: `VB_ENC` left the buffer of the transformed source array in memory, and `VB_DEC` takes it back with the
encoder's cursor and running seeds. -/
theorem vbRoundTrip : Obligations.VbRoundTrip := by
  intro ws tr s t s' hexec hdone hn hseed hseed2 hwin hbegins hfit
  have hcount : count s' = count s := congrArg BitVec.toNat hn
  have hseedElem : seedElem ws.bits s' = seedElem ws.bits s := congrArg (BitVec.setWidth ws.bits) hseed
  have hseed2Elem : seed2Elem ws.bits s' = seed2Elem ws.bits s := congrArg (BitVec.setWidth ws.bits) hseed2
  have ht : t = runCommand (.vbEnc ws tr) (encodeRule ws.bits tr vbLayout s) s := by cases hexec; rfl
  obtain ⟨hwritten, _, _, hdstEnd, hrseed, hrseed2⟩ := bytesFrom_encode_done ht hdone
  have hsent : xf tr (seedElem ws.bits s') (seed2Elem ws.bits s') (srcArray ws s) = sent ws tr s := by
    rw [hseedElem, hseed2Elem, sent]
  obtain ⟨t', hexec', hdone', _, hwrote, _, _, hsrcEnd', _, hrseed', hrseed2'⟩ :=
    vbDecRestores ws tr s' (srcArray ws s) (by rw [srcArray_length, hcount]) hwin
      (by rwa [hsent, ← hwritten]) (by rwa [hcount])
  rw [hsent] at hsrcEnd' hrseed' hrseed2'
  exact ⟨t', hexec', hdone', hwrote, BitVec.eq_of_toNat_eq (hsrcEnd'.trans hdstEnd.symm),
    BitVec.eq_of_toNat_eq (hrseed'.trans hrseed.symm), BitVec.eq_of_toNat_eq (hrseed2'.trans hrseed2.symm)⟩

end Sys2Proof.Machine

/-! PROOFS. What the group and block formats have in common: a list cut into runs of equal length, one run at a time
(spec/45_pfor.md R210), single bytes of `LE` and single fields of `PACK`, and the round trip of an encoder and a decoder
of one format, whatever the format. -/

namespace Sys2Proof.Machine

/-! ### Lists cut into runs -/

/-- A run of at least one element leaves fewer elements. -/
theorem length_drop_cons_le {α : Type} {b : Nat} (hb : 0 < b) (x : α) (xs : List α) :
    ((x :: xs).drop b).length ≤ xs.length := by
  rw [List.length_drop, List.length_cons]
  omega

/-- Fuel for every element is enough. -/
theorem chunksFuel_congr {α : Type} {b : Nat} (hb : 0 < b) {fuel fuel' : Nat} {xs : List α} (h : xs.length ≤ fuel)
    (h' : xs.length ≤ fuel') : chunksFuel b fuel xs = chunksFuel b fuel' xs := by
  induction fuel generalizing fuel' xs with
  | zero =>
    obtain rfl := List.length_eq_zero_iff.mp (Nat.le_zero.mp h)
    cases fuel' <;> rfl
  | succ fuel ih =>
    cases xs with
    | nil => cases fuel' <;> rfl
    | cons x xs =>
      obtain ⟨fuel', rfl⟩ : ∃ k, fuel' = k + 1 := Nat.exists_eq_add_one.mpr (Nat.zero_lt_of_lt h')
      have hrest := length_drop_cons_le hb x xs
      rw [chunksFuel, chunksFuel,
        ih (hrest.trans (Nat.le_of_succ_le_succ h)) (hrest.trans (Nat.le_of_succ_le_succ h'))]

@[simp] theorem chunks_nil {α : Type} (b : Nat) : chunks b ([] : List α) = [] := rfl

/-- The first run of a list, then the runs of the rest. -/
theorem chunks_of_ne_nil {α : Type} {b : Nat} (hb : 0 < b) {xs : List α} (h : xs ≠ []) :
    chunks b xs = xs.take b :: chunks b (xs.drop b) := by
  obtain ⟨x, xs, rfl⟩ := List.exists_cons_of_ne_nil h
  rw [chunks, List.length_cons, chunksFuel, chunks, chunksFuel_congr hb (length_drop_cons_le hb x xs) le_rfl]

/-- The induction along the runs of a list. -/
theorem chunks_induction {α : Type} {b : Nat} (hb : 0 < b) {P : List α → Prop} (nil : P [])
    (run : ∀ xs, xs ≠ [] → P (xs.drop b) → P xs) (xs : List α) : P xs := by
  induction hn : xs.length using Nat.strong_induction_on generalizing xs with
  | _ n ih =>
    by_cases h : xs = []
    · exact h ▸ nil
    · have hpos := List.length_pos_iff.mpr h
      exact run xs h (ih _ (by rw [List.length_drop]; omega) _ rfl)

theorem ceilDiv_zero (b : Nat) : ceilDiv 0 b = 0 := by
  unfold ceilDiv
  cases b <;> simp

/-- `ceil(n/b)` counts one run and the runs of what it leaves. -/
theorem ceilDiv_sub_add_one {n b : Nat} (hb : 0 < b) (hn : 0 < n) : ceilDiv (n - b) b + 1 = ceilDiv n b := by
  unfold ceilDiv
  rcases Nat.le_total b n with h | h
  · rw [← Nat.add_div_right _ hb]
    congr 1
    omega
  · rw [Nat.sub_eq_zero_of_le h, Nat.div_eq_of_lt (by omega), eq_comm, Nat.div_eq_iff hb]
    omega

/-! ### Single bytes and fields -/

/-- Byte `j` of `LE(v, k)` (R14). -/
theorem leBytes_getElem? {k j : Nat} (v : Nat) (h : j < k) :
    (leBytes k v)[j]? = some (BitVec.ofNat 8 (v / 256 ^ j)) := by
  induction k generalizing v j with
  | zero => omega
  | succ k ih =>
    cases j with
    | zero => simp [leBytes]
    | succ j =>
      rw [leBytes, List.getElem?_cons_succ, ih _ (Nat.lt_of_succ_lt_succ h), Nat.div_div_eq_div_mul, ← Nat.pow_succ']

/-- Field `i` of a bit stream (R13). -/
theorem unpackNat_getElem? {w m i : Nat} (v : Nat) (h : i < m) :
    (unpackNat w m v)[i]? = some (v / 2 ^ (w * i) % 2 ^ w) := by
  induction m generalizing v i with
  | zero => omega
  | succ m ih =>
    cases i with
    | zero => simp [unpackNat]
    | succ i =>
      rw [unpackNat, List.getElem?_cons_succ, ih _ (Nat.lt_of_succ_lt_succ h), Nat.div_div_eq_div_mul, ← Nat.pow_add,
        Nat.mul_succ, Nat.add_comm w]

/-- Field `i` of the packed number (R12). -/
theorem packNat_field {w i x : Nat} {xs : List Nat} (h : xs[i]? = some x) :
    packNat w xs / 2 ^ (w * i) % 2 ^ w = x % 2 ^ w := by
  obtain ⟨hi, _⟩ := List.getElem?_eq_some_iff.mp h
  have hfield := unpackNat_getElem? (w := w) (packNat w xs) hi
  rw [unpackNat_packNat, List.getElem?_map, h] at hfield
  exact (Option.some.inj hfield).symm

/-! ### The round trip of a format -/

/-- The decoder completes with the array that a buffer holds, writes it and nothing else, and returns the cursors and
the encoder's running seeds (R174). -/
def Restores (dec : Instr) {ws : Width} (s : State) (xs : List (BitVec ws.bits)) (need : Nat) (p q : BitVec ws.bits) :
    Prop :=
  ∃ t, exec dec s = .next t ∧ t.status = .done ∧ SameElse s t ∧ Wrote s t (arrBytes xs) ∧
    (∀ i, i < count s → xs[i]? = some (elemAt t.mem ws s.operands.dstBase.toNat i)) ∧
    ResultsAre t 0 need (count s * ws.bytes) p.toNat q.toNat

/-- A decoder that inverts its format's layout and takes the inverse transform restores the array (R168). -/
theorem restores_of_layout {dec : Instr} {ws : Width} {tr : Transform} {s : State} {xs : List (BitVec ws.bits)}
    {layout : List (BitVec ws.bits) → List Byte} {decoder : Nat → Except Stop (Decoded ws.bits)}
    (hexec : exec dec s = .next (runCommand dec (decodeRule decoder s) s))
    (hindex : indexFault dec s.operands = false) (hwin : WindowsReady s) (hlen : xs.length = count s)
    (hdecoder : ∀ ys, BeginsWith s (layout ys) → decoder ys.length =
      .ok { seeded := xfi tr (seedElem ws.bits s) (seed2Elem ws.bits s) ys, pos := (layout ys).length })
    (hbegins : BeginsWith s (layout (stored ws tr s xs).xs)) (hfit : count s * ws.bytes ≤ s.operands.dstCap.toNat) :
    Restores dec s xs (layout (stored ws tr s xs).xs).length (stored ws tr s xs).p (stored ws tr s xs).q := by
  have hdecoded := hdecoder _ hbegins
  rw [stored, xf_length, xfi_xf, hlen] at hdecoded
  obtain ⟨hneed, _⟩ := hbegins
  exact exec_decode_writes hexec (argFault_eq_false_of_ready hindex hwin) hdecoded hlen hneed hfit

/-- What an encoder left in memory, a decoder that restores arrays from that layout takes back, with the encoder's
cursor and running seeds. -/
theorem roundTrip_of_restores {enc dec : Instr} {ws : Width} {tr : Transform} {s t s' : State}
    {layout : List (BitVec ws.bits) → List Byte}
    (ht : t = runCommand enc (encodeRule ws.bits tr layout s) s) (hdone : t.status = .done)
    (hn : s'.operands.n = s.operands.n) (hseed : s'.operands.seed = s.operands.seed)
    (hseed2 : s'.operands.seed2 = s.operands.seed2)
    (hbegins : BeginsWith s' (bytesFrom t.mem.read s.operands.dstBase.toNat t.results.dstEnd.toNat))
    (hrestores : ∀ xs, xs.length = count s' → BeginsWith s' (layout (stored ws tr s' xs).xs) →
      Restores dec s' xs (layout (stored ws tr s' xs).xs).length (stored ws tr s' xs).p (stored ws tr s' xs).q) :
    ∃ t', exec dec s' = .next t' ∧ t'.status = .done ∧ Wrote s' t' (arrBytes (srcArray ws s)) ∧
      t'.results.srcEnd = t.results.dstEnd ∧ t'.results.rseed = t.results.rseed ∧
      t'.results.rseed2 = t.results.rseed2 := by
  have hcount : count s' = count s := congrArg BitVec.toNat hn
  have hsent : stored ws tr s' (srcArray ws s) = sent ws tr s := by
    rw [stored, seedElem, seed2Elem, hseed, hseed2]
    rfl
  obtain ⟨hwritten, _, _, hdstEnd, hrseed, hrseed2⟩ := bytesFrom_encode_done ht hdone
  obtain ⟨t', hexec', hdone', _, hwrote, _, _, hsrcEnd', _, hrseed', hrseed2'⟩ :=
    hrestores (srcArray ws s) (by rw [srcArray_length, hcount]) (by rwa [hsent, ← hwritten])
  rw [hsent] at hsrcEnd' hrseed' hrseed2'
  exact ⟨t', hexec', hdone', hwrote, BitVec.eq_of_toNat_eq (hsrcEnd'.trans hdstEnd.symm),
    BitVec.eq_of_toNat_eq (hrseed'.trans hrseed.symm), BitVec.eq_of_toNat_eq (hrseed2'.trans hrseed2.symm)⟩

end Sys2Proof.Machine

/-! PROOFS. The TurboByte group-varint codec (spec/43_turbobyte.md R185 to R191): `tb_len` as the least bound it is, one
group as its descriptor of two-bit codes and its payloads, the buffer as its groups one at a time, the decoder's cut of
a window that holds them, and the two commands. -/

namespace Sys2Proof.Machine

/-! ### The length of a value -/

theorem bytesFor_le_iff {n k : Nat} : bytesFor n ≤ k ↔ n ≤ 8 * k := by
  unfold bytesFor
  omega

/-- R186: `tb_len` is the least positive number of bytes that holds a value. -/
theorem tbLen_le_iff {v k : Nat} (hk : 1 ≤ k) : tbLen v ≤ k ↔ v < 256 ^ k := by
  rw [tbLen, max_le_iff, and_iff_right hk, bytesFor_le_iff, bw_le_iff, Nat.pow_mul]

theorem one_le_tbLen (v : Nat) : 1 ≤ tbLen v := le_max_left _ _

theorem lt_pow_tbLen (v : Nat) : v < 256 ^ tbLen v := (tbLen_le_iff (one_le_tbLen v)).mp le_rfl

theorem pow_le_of_one_lt_tbLen {v : Nat} (h : 1 < tbLen v) : 256 ^ (tbLen v - 1) ≤ v := by
  by_contra hlt
  have hle := (tbLen_le_iff (Nat.le_sub_one_of_lt h)).mpr (Nat.not_le.mp hlt)
  omega

/-- A `W`-bit value needs no more than `W/8` bytes. -/
theorem tbLen_toNat_le {ws : Width} (v : BitVec ws.bits) : tbLen v.toNat ≤ ws.bytes := by
  have hpow : 256 ^ ws.bytes = 2 ^ ws.bits := by rw [← eight_mul_bytes, Nat.pow_mul]
  exact (tbLen_le_iff (by cases ws <;> decide)).mpr (hpow ▸ v.isLt)

/-- The widths of the TurboByte commands: a value has at most four bytes (R185). -/
theorem bytes_le_four_of_turboLegal {ws : Width} {lane : Lane} {gs : GroupSize} (h : turboLegal ws lane gs = true) :
    ws.bytes ≤ 4 := by
  cases ws with
  | w64 => cases lane <;> cases h
  | _ => decide

/-! ### One group -/

/-- The length codes of a group's descriptor (R187). -/
def tbCodes (vs : List Nat) : List Nat := vs.map fun v => tbLen v - 1

/-- The payloads of a group (R187). -/
def tbPayloadBytes (vs : List Nat) : List Byte := vs.flatMap fun v => leBytes (tbLen v) v

theorem tbGroup_eq (vs : List Nat) : tbGroup vs = pack 2 (tbCodes vs) ++ tbPayloadBytes vs := rfl

@[simp] theorem tbCodes_length (vs : List Nat) : (tbCodes vs).length = vs.length := List.length_map _

@[simp] theorem tbPayloadBytes_length (vs : List Nat) : (tbPayloadBytes vs).length = (vs.map tbLen).sum := by
  simp [tbPayloadBytes, List.length_flatMap]

/-- Four two-bit codes take one byte. -/
theorem bytesFor_two_mul (n : Nat) : bytesFor (2 * n) = ceilDiv n 4 := by
  unfold bytesFor ceilDiv
  omega

@[simp] theorem pack_tbCodes_length (vs : List Nat) : (pack 2 (tbCodes vs)).length = ceilDiv vs.length 4 := by
  rw [pack_length, tbCodes_length, bytesFor_two_mul]

theorem tbGroup_length (vs : List Nat) : (tbGroup vs).length = ceilDiv vs.length 4 + (vs.map tbLen).sum := by
  rw [tbGroup_eq, List.length_append, pack_tbCodes_length, tbPayloadBytes_length]

/-- Byte `i/4` of a descriptor holds code `i` in its two bits from `2*(i mod 4)` on. -/
theorem pack_two_getD {cs : List Nat} {i c : Nat} (h : cs[i]? = some c) :
    ((pack 2 cs).getD (i / 4) 0#8).toNat / 4 ^ (i % 4) % 4 = c % 4 := by
  obtain ⟨hi, _⟩ := List.getElem?_eq_some_iff.mp h
  have hbyte : i / 4 < bytesFor (2 * cs.length) := by
    unfold bytesFor
    omega
  have hsplit : 2 ^ 8 = 4 ^ (i % 4) * (4 * 4 ^ (3 - i % 4)) := by
    rw [← Nat.pow_succ', ← Nat.pow_add, show i % 4 + (3 - i % 4 + 1) = 4 by omega]
    rfl
  have hshift : 256 ^ (i / 4) * 4 ^ (i % 4) = 2 ^ (2 * i) := by
    rw [show 256 = 4 ^ 4 from rfl, ← Nat.pow_mul, ← Nat.pow_add, Nat.div_add_mod, Nat.pow_mul]
  rw [pack, List.getD_eq_getElem?_getD, leBytes_getElem? _ hbyte, Option.getD_some, BitVec.toNat_ofNat, hsplit,
    Nat.mod_mul_right_div_self, Nat.mod_mul_right_mod, Nat.div_div_eq_div_mul, hshift]
  exact packNat_field h

/-- Byte `b` of value `i` stands after the payloads of the values before it. -/
theorem tbPayloadBytes_getElem? {vs : List Nat} {i v b : Nat} (h : vs[i]? = some v) (hb : b < tbLen v) :
    (tbPayloadBytes vs)[((vs.take i).map tbLen).sum + b]? = some (BitVec.ofNat 8 (v / 256 ^ b)) := by
  induction vs generalizing i with
  | nil => cases h
  | cons u vs ih =>
    have hcut : tbPayloadBytes (u :: vs) = leBytes (tbLen u) u ++ tbPayloadBytes vs := rfl
    rw [hcut]
    cases i with
    | zero =>
      obtain rfl : u = v := Option.some.inj h
      rw [List.take_zero, List.map_nil, List.sum_nil, Nat.zero_add, List.getElem?_append_left (by simpa using hb),
        leBytes_getElem? _ hb]
    | succ i =>
      rw [List.take_succ_cons, List.map_cons, List.sum_cons, List.getElem?_append_right (by simp; omega),
        leBytes_length, Nat.add_assoc, Nat.add_sub_cancel_left, ih h]

/-- Settles O45: the descriptor is the packed codes, and the payloads follow it. -/
theorem turboGroupFormat : Obligations.TurboGroupFormat := by
  intro vs hvs
  refine ⟨tbGroup_length vs, fun i v hv => ?_⟩
  have hlen : tbLen v ≤ 4 := (tbLen_le_iff (by decide)).mpr (hvs v (List.mem_of_getElem? hv))
  obtain ⟨hi, _⟩ := List.getElem?_eq_some_iff.mp hv
  refine ⟨⟨one_le_tbLen v, hlen, lt_pow_tbLen v, pow_le_of_one_lt_tbLen⟩, ?_, fun b hb => ?_⟩
  · have hcode : (tbCodes vs)[i]? = some (tbLen v - 1) := by rw [tbCodes, List.getElem?_map, hv]; rfl
    have hdescriptor : i / 4 < (pack 2 (tbCodes vs)).length := by
      rw [pack_tbCodes_length, ceilDiv]
      omega
    rw [tbGroup_eq, List.getD_append _ _ _ _ hdescriptor, pack_two_getD hcode]
    omega
  · rw [tbGroup_eq, List.getD_eq_getElem?_getD, Nat.add_assoc, ← pack_tbCodes_length,
      List.getElem?_append_right (Nat.le_add_right _ _), Nat.add_sub_cancel_left, tbPayloadBytes_getElem? hv hb]
    exact BitVec.toNat_ofNat ..

/-! ### The buffer of an array -/

@[simp] theorem tbLayout_nil (g : Nat) {w : Nat} : tbLayout g ([] : List (BitVec w)) = [] := rfl

/-- The first group of a buffer, then the buffer of the rest. -/
theorem tbLayout_of_ne_nil {g w : Nat} (hg : 0 < g) {xs : List (BitVec w)} (h : xs ≠ []) :
    tbLayout g xs = tbGroup ((xs.take g).map BitVec.toNat) ++ tbLayout g (xs.drop g) := by
  rw [tbLayout, chunks_of_ne_nil hg (by simpa using h), List.flatMap_cons, List.map_take, tbLayout, List.map_drop]

/-- R190: groups of a multiple of four values fill their descriptor bytes, all but the last group. -/
theorem tbLayout_length {g w : Nat} (hg : 0 < g) (hfour : 4 ∣ g) (xs : List (BitVec w)) :
    (tbLayout g xs).length = ceilDiv xs.length 4 + (xs.map fun v => tbLen v.toNat).sum := by
  obtain ⟨k, rfl⟩ := hfour
  induction xs using chunks_induction hg with
  | nil => simp [ceilDiv_zero]
  | run xs hne ih =>
    have hdescriptors : ceilDiv (min (4 * k) xs.length) 4 + ceilDiv (xs.length - 4 * k) 4 = ceilDiv xs.length 4 := by
      unfold ceilDiv
      omega
    have hpayloads : (xs.map fun v => tbLen v.toNat).sum =
        ((xs.take (4 * k)).map fun v => tbLen v.toNat).sum + ((xs.drop (4 * k)).map fun v => tbLen v.toNat).sum := by
      rw [← List.sum_append, ← List.map_append, List.take_append_drop]
    rw [tbLayout_of_ne_nil hg hne, List.length_append, tbGroup_length, ih, hpayloads, ← hdescriptors,
      List.length_map, List.length_take, List.length_drop, List.map_map]
    simp only [Function.comp_def]
    omega

/-- The size of R317: a descriptor byte for four values, `W/8` bytes for a value. -/
theorem tbLayout_length_le {g : Nat} {ws : Width} (hg : 0 < g) (hfour : 4 ∣ g) (xs : List (BitVec ws.bits)) :
    (tbLayout g xs).length ≤ ceilDiv xs.length 4 + xs.length * ws.bytes := by
  rw [tbLayout_length hg hfour]
  simpa using List.sum_le_card_nsmul (xs.map fun v => tbLen v.toNat) ws.bytes (by simp [tbLen_toNat_le])

theorem groupCount_pos (gs : GroupSize) : 0 < gs.count := by cases gs <;> decide

theorem four_dvd_groupCount (gs : GroupSize) : 4 ∣ gs.count := by cases gs <;> decide

/-! ### Reading a buffer back -/

section
variable {ws : Width} {v : Src}

/-- The descriptor gives the length codes back when every value has at most four bytes. -/
theorem unpack_pack_tbCodes (hws : ws.bytes ≤ 4) (xs : List (BitVec ws.bits)) :
    unpack 2 (pack 2 (tbCodes (xs.map BitVec.toNat))) xs.length = tbCodes (xs.map BitVec.toNat) := by
  have hcode : ∀ c ∈ tbCodes (xs.map BitVec.toNat), c % 2 ^ 2 = c := by
    simp only [tbCodes, List.map_map, List.mem_map, Function.comp_apply]
    rintro _ ⟨x, _, rfl⟩
    have hlen := tbLen_toNat_le x
    omega
  have hround := unpack_pack 2 (tbCodes (xs.map BitVec.toNat))
  rwa [tbCodes_length, List.length_map, List.map_congr_left hcode, List.map_id'] at hround

/-- The payloads that a window holds are the values, by their length codes (R189). -/
theorem tbPayloads_tbPayloadBytes {pos : Nat} {xs : List (BitVec ws.bits)}
    (h : srcRead v pos (tbPayloadBytes (xs.map BitVec.toNat)).length = .ok (tbPayloadBytes (xs.map BitVec.toNat))) :
    tbPayloads v ws.bits (tbCodes (xs.map BitVec.toNat)) pos =
      .ok (xs, pos + (tbPayloadBytes (xs.map BitVec.toNat)).length) := by
  induction xs generalizing pos with
  | nil => rfl
  | cons x xs ih =>
    have hcut : tbPayloadBytes ((x :: xs).map BitVec.toNat) =
        leBytes (tbLen x.toNat) x.toNat ++ tbPayloadBytes (xs.map BitVec.toNat) := rfl
    have hcodes : tbCodes ((x :: xs).map BitVec.toNat) = (tbLen x.toNat - 1) :: tbCodes (xs.map BitVec.toNat) := rfl
    have hlen : tbLen x.toNat - 1 + 1 = tbLen x.toNat := Nat.sub_add_cancel (one_le_tbLen _)
    have hlegal : ¬ ws.bytes < tbLen x.toNat := Nat.not_lt.mpr (tbLen_toNat_le x)
    have hvalue : leValue (leBytes (tbLen x.toNat) x.toNat) = x.toNat :=
      leValue_leBytes_of_lt (by rw [Nat.pow_mul]; exact lt_pow_tbLen x.toNat)
    rw [hcut] at h ⊢
    obtain ⟨hfirst, hrest⟩ := srcRead_append_iff.mp h
    rw [leBytes_length] at hfirst hrest
    simp only [hcodes, tbPayloads, hlen, bits_div_eight, if_neg hlegal, hfirst, ih hrest, hvalue, BitVec.ofNat_toNat,
      BitVec.setWidth_eq, List.length_append, leBytes_length, Nat.add_assoc]

/-- A group that a window holds is read, and the groups after it follow from its end on (R189). -/
theorem tbGroups_tbGroup (hws : ws.bytes ≤ 4) {g groups left pos : Nat} {xs : List (BitVec ws.bits)}
    (hlen : xs.length = min g left)
    (h : srcRead v pos (tbGroup (xs.map BitVec.toNat)).length = .ok (tbGroup (xs.map BitVec.toNat))) :
    tbGroups v ws.bits g (groups + 1) left pos =
      (tbGroups v ws.bits g groups (left - g) (pos + (tbGroup (xs.map BitVec.toNat)).length)).map
        fun r => (xs ++ r.1, r.2) := by
  rw [tbGroup_eq] at h ⊢
  obtain ⟨hdescriptor, hpayloads⟩ := srcRead_append_iff.mp h
  rw [pack_tbCodes_length, List.length_map] at hdescriptor hpayloads
  rw [List.length_append, ← Nat.add_assoc, pack_tbCodes_length, List.length_map, tbGroups, ← hlen]
  simp only [hdescriptor, unpack_pack_tbCodes hws xs, tbPayloads_tbPayloadBytes hpayloads]
  cases tbGroups v ws.bits g groups (left - g) _ <;> rfl

/-- The groups of a buffer that a window holds are the array (R189). -/
theorem tbGroups_tbLayout (hws : ws.bytes ≤ 4) {g pos : Nat} (hg : 0 < g) {xs : List (BitVec ws.bits)}
    (h : srcRead v pos (tbLayout g xs).length = .ok (tbLayout g xs)) :
    tbGroups v ws.bits g (ceilDiv xs.length g) xs.length pos = .ok (xs, pos + (tbLayout g xs).length) := by
  induction xs using chunks_induction hg generalizing pos with
  | nil =>
    rw [List.length_nil, ceilDiv_zero]
    rfl
  | run xs hne ih =>
    rw [tbLayout_of_ne_nil hg hne] at h ⊢
    obtain ⟨hfirst, hrest⟩ := srcRead_append_iff.mp h
    have hgroups := ih hrest
    rw [List.length_drop] at hgroups
    rw [← ceilDiv_sub_add_one hg (List.length_pos_iff.mpr hne), tbGroups_tbGroup hws List.length_take hfirst, hgroups,
      List.length_append, ← Nat.add_assoc]
    exact congrArg (fun ys => Except.ok (ys, _)) (List.take_append_drop g xs)

end

/-- The decoder on a window that begins with the buffer of transformed values (R189). -/
theorem tbDecode_tbLayout {ws : Width} {g : Nat} (hg : 0 < g) (hws : ws.bytes ≤ 4) {s : State}
    {ys : List (BitVec ws.bits)} (h : BeginsWith s (tbLayout g ys)) (tr : Transform) :
    tbDecode ws.bits tr g s ys.length =
      .ok { seeded := xfi tr (seedElem ws.bits s) (seed2Elem ws.bits s) ys, pos := (tbLayout g ys).length } := by
  simp only [tbDecode, tbGroups_tbLayout hws hg (beginsWith_iff_srcRead.mp h), Nat.zero_add]

/-! ### The statements about the two commands -/

/-- Settles O46: the rule's output is the buffer of the transformed array. -/
theorem tbEncWritesBuffer : Obligations.TbEncWritesBuffer := by
  intro ws tr lane gs s _ r out
  have hcount : r.xs.length = count s := sent_length ..
  refine ⟨hcount ▸ tbLayout_length_le (groupCount_pos gs) (four_dvd_groupCount gs) r.xs,
    fun hwin hsrc hfit => ?_⟩
  have hexec : exec (.tbEnc ws tr lane gs) s = .next (complete (sentOutput ws tr (tbLayout gs.count) s) s) := by
    rw [exec, execTbEnc, encodeRule_eq_ok hsrc, runCommand_ok (argFault_eq_false_of_ready rfl hwin) hfit]
  exact ⟨_, hexec, rfl, sameElse_complete .., hcount, fun i hi => sent_getElem? hi tr,
    wrote_complete (sentOutput ws tr (tbLayout gs.count) s) s,
    hcount ▸ tbLayout_length (groupCount_pos gs) (four_dvd_groupCount gs) r.xs,
    resultsAre_sentOutput hsrc hfit⟩

/-- Settles O47: the decoder reads the transformed array back, and the inverse transform takes it to the array. -/
theorem tbDecRestores : Obligations.TbDecRestores := by
  intro ws tr lane gs s xs hlegal hlen r hwin hbegins hfit
  have hdecoder (ys : List (BitVec ws.bits)) (h : BeginsWith s (tbLayout gs.count ys)) :=
    tbDecode_tbLayout (groupCount_pos gs) (bytes_le_four_of_turboLegal hlegal) h tr
  exact restores_of_layout rfl rfl hwin hlen hdecoder hbegins hfit

/-- Settles O48: `TB_ENC` left the buffer of the transformed source array in memory, which does not depend on its lane,
and `TB_DEC` restores the array from it. -/
theorem tbRoundTrip : Obligations.TbRoundTrip := by
  intro ws tr l₁ l₂ gs s t s' _ hlegal hexec hdone hn hseed hseed2 hwin hbegins hfit
  have ht : t = runCommand (.tbEnc ws tr l₁ gs) (encodeRule ws.bits tr (tbLayout gs.count) s) s := by cases hexec; rfl
  have hcount : count s' = count s := congrArg BitVec.toNat hn
  exact roundTrip_of_restores ht hdone hn hseed hseed2 hbegins fun xs hlen hbuffer =>
    tbDecRestores ws tr l₂ gs s' xs hlegal hlen hwin hbuffer (by rwa [hcount])

end Sys2Proof.Machine

/-! PROOFS. The bit packer and its two commands (spec/44_bitpack.md R201 to R203): bit streams as numbers, so that bit
`k` of a stream is bit `k` of its number (spec/00_scope.md R11), the bits of packed fields, what `BP_PACK` and
`BP_UNPACK` make of memory and the result registers, and that no command depends on its lane. -/

namespace Sys2Proof.Machine

/-! ### Bit streams as numbers -/

/-- Bit `k` of `LEV` is bit `k mod 8` of byte `k/8` (R11, R14). -/
theorem testBit_leValue {bs : List Byte} {k : Nat} {b : Byte} (h : bs[k / 8]? = some b) :
    (leValue bs).testBit k = b.getLsbD (k % 8) := by
  induction bs generalizing k with
  | nil => cases h
  | cons c bs ih =>
    have hsplit : leValue (c :: bs) = 2 ^ 8 * leValue bs + c.toNat := Nat.add_comm ..
    rw [hsplit, Nat.testBit_two_pow_mul_add _ c.isLt]
    split
    · next hlow =>
      rw [Nat.div_eq_of_lt hlow, List.getElem?_cons_zero] at h
      rw [Option.some.inj h, Nat.mod_eq_of_lt hlow, BitVec.testBit_toNat]
    · next hhigh =>
      have hbyte : k / 8 = (k - 8) / 8 + 1 := by omega
      rw [hbyte, List.getElem?_cons_succ] at h
      rw [ih h, show (k - 8) % 8 = k % 8 by omega]

/-- A bit of the stream at an address is a bit of the number that its bytes hold (R11). -/
theorem streamBit_eq_testBit {k n : Nat} (h : k < 8 * n) (m : Memory) (base : Nat) :
    streamBit m base k = (leValue (bytesFrom m.read base n)).testBit k :=
  (testBit_leValue (bytesFrom_getElem? m.read base n (k / 8) (by omega))).symm

/-- Bit `j` of field `i` of a packed number stands at bit `w*i + j` (R12). -/
theorem testBit_packNat {w i j x : Nat} {xs : List Nat} (h : xs[i]? = some x) (hj : j < w) :
    (packNat w xs).testBit (i * w + j) = x.testBit j := by
  have hfield := congrArg (Nat.testBit · j) (packNat_field (w := w) h)
  simpa [Nat.testBit_mod_two_pow, Nat.testBit_div_two_pow, hj, Nat.mul_comm w, Nat.add_comm j] using hfield

/-- The bits of `n` fields stand in `ceil(w*n/8)` bytes (R12). -/
theorem fieldBit_lt_stream {w n i j : Nat} (hi : i < n) (hj : j < w) : i * w + j < 8 * bytesFor (w * n) :=
  calc i * w + j < (i + 1) * w := by rw [Nat.succ_mul]; omega
    _ ≤ w * n := by rw [Nat.mul_comm]; exact Nat.mul_le_mul_left w hi
    _ ≤ 8 * bytesFor (w * n) := le_eight_mul_bytesFor _

/-- Past its fields a packed number has no bits, so the padding of `PACK` is zero (R12). -/
theorem testBit_packNat_padding {w k : Nat} {xs : List Nat} (h : w * xs.length ≤ k) :
    (packNat w xs).testBit k = false :=
  Nat.testBit_lt_two_pow ((packNat_lt w xs).trans_le (Nat.pow_le_pow_right two_pos h))

/-! ### `BP_PACK` -/

/-- What `BP_PACK` makes of the array in the source window (R201). -/
def packedOutput (ws : Width) (pw : Nat) (s : State) : Output where
  bytes := pack pw ((srcArray ws s).map BitVec.toNat)
  results := { srcEnd := resultOfNat (count s * ws.bytes), dstEnd := resultOfNat (bytesFor (pw * count s)) }

@[simp] theorem packedOutput_length (ws : Width) (pw : Nat) (s : State) :
    (packedOutput ws pw s).bytes.length = bytesFor (pw * count s) := by
  simp [packedOutput]

/-- The rule of `BP_PACK` on a source window that holds the array. -/
theorem bpPackRule_eq_ok {ws : Width} {s : State} (h : count s * ws.bytes ≤ s.operands.srcLen.toNat) (pw : Nat) :
    bpPackRule ws.bits pw s = .ok (packedOutput ws pw s) := by
  simp only [bpPackRule, srcElements_srcWindow h, bits_div_eight, packedOutput]

/-- The stream that `BP_PACK` leaves in memory is the packed number, bit by bit. -/
theorem streamBit_complete_packedOutput {ws : Width} {pw k : Nat} {s : State} (h : k < 8 * bytesFor (pw * count s)) :
    streamBit (complete (packedOutput ws pw s) s).mem s.operands.dstBase.toNat k =
      (packNat pw ((srcArray ws s).map BitVec.toNat)).testBit k := by
  obtain ⟨hbytes, _⟩ := wrote_complete (packedOutput ws pw s) s
  rw [packedOutput_length] at hbytes
  rw [streamBit_eq_testBit h, hbytes, packedOutput, leValue_pack]

/-- The result registers after a command that returns two cursors and nothing else (R201, R202). -/
theorem resultsAre_cursors {bs : List Byte} {srcEnd dstEnd : Nat} {s : State}
    (hsrc : srcEnd ≤ s.operands.srcLen.toNat) (hdst : dstEnd ≤ s.operands.dstCap.toNat) :
    ResultsAre (complete { bytes := bs, results := { srcEnd := resultOfNat srcEnd, dstEnd := resultOfNat dstEnd } } s)
      0 srcEnd dstEnd 0 0 :=
  ⟨rfl, toNat_resultOfNat (hsrc.trans_lt s.operands.srcLen.isLt),
    toNat_resultOfNat (hdst.trans_lt s.operands.dstCap.isLt), rfl, rfl⟩

/-- Settles O37: the bytes written hold the packed number, whose bits are those of the elements and then zeros. -/
theorem bpPackBits : Obligations.BpPackBits := by
  intro ws lane pw s _ hwin hsrc hdst
  have hexec : exec (.bpPack ws lane pw) s = .next (complete (packedOutput ws pw.toNat s) s) := by
    rw [exec, execBpPack, bpPackRule_eq_ok hsrc,
      runCommand_ok (argFault_eq_false_of_ready rfl hwin) (by simpa using hdst)]
  have hlen := packedOutput_length ws pw.toNat s
  refine ⟨_, (packedOutput ws pw.toNat s).bytes, hexec, rfl, sameElse_complete .., hlen, wrote_complete .., ?_, ?_,
    resultsAre_cursors hsrc hdst⟩
  · intro i j hi hj
    have helem : ((srcArray ws s).map BitVec.toNat)[i]? = some (srcElem ws s i).toNat := by simp [srcArray, hi]
    rw [streamBit_complete_packedOutput (fieldBit_lt_stream hi hj), testBit_packNat helem hj,
      BitVec.testBit_toNat]
  · intro k hk hlast
    rw [hlen] at hlast
    rw [streamBit_complete_packedOutput hlast, testBit_packNat_padding (by simpa using hk)]

/-! ### `BP_UNPACK` -/

@[simp] theorem unpackNat_length (w m v : Nat) : (unpackNat w m v).length = m := by
  induction m generalizing v with
  | zero => rfl
  | succ m ih => simp [unpackNat, ih]

/-- Field `i` of a stream of `n` fields of width `w` in memory, as a number (R13). -/
def fieldAt (m : Memory) (base w n i : Nat) : Nat :=
  leValue (bytesFrom m.read base (bytesFor (w * n))) / 2 ^ (w * i) % 2 ^ w

/-- Bit `j` of field `i` is stream bit `w*i + j`, and a field has no bits from `w` on (R13). -/
theorem testBit_fieldAt {n i : Nat} (hi : i < n) (m : Memory) (base w j : Nat) :
    (fieldAt m base w n i).testBit j = (decide (j < w) && streamBit m base (i * w + j)) := by
  rw [fieldAt, Nat.testBit_mod_two_pow, Nat.testBit_div_two_pow]
  by_cases hj : j < w
  · rw [streamBit_eq_testBit (fieldBit_lt_stream hi hj), Nat.mul_comm w i, Nat.add_comm j]
  · simp [hj]

/-- The array that `BP_UNPACK` makes of the stream in the source window (R202). -/
def unpackedArray (ws : Width) (pw : Nat) (s : State) : List (BitVec ws.bits) :=
  (unpack pw (bytesFrom s.mem.read s.operands.srcBase.toNat (bytesFor (pw * count s))) (count s)).map
    (BitVec.ofNat ws.bits)

/-- Its elements are the fields of the stream. -/
theorem unpackedArray_getElem? {i : Nat} {s : State} (hi : i < count s) (ws : Width) (pw : Nat) :
    (unpackedArray ws pw s)[i]? =
      some (BitVec.ofNat ws.bits (fieldAt s.mem s.operands.srcBase.toNat pw (count s) i)) := by
  rw [unpackedArray, unpack, List.getElem?_map, unpackNat_getElem? _ hi]
  rfl

@[simp] theorem unpackedArray_length (ws : Width) (pw : Nat) (s : State) :
    (unpackedArray ws pw s).length = count s := by
  simp [unpackedArray, unpack]

/-- What `BP_UNPACK` makes of the stream in the source window (R202). -/
def unpackedOutput (ws : Width) (pw : Nat) (s : State) : Output where
  bytes := arrBytes (unpackedArray ws pw s)
  results := { srcEnd := resultOfNat (bytesFor (pw * count s)), dstEnd := resultOfNat (count s * ws.bytes) }

/-- The rule of `BP_UNPACK` on a source window that holds the stream. -/
theorem bpUnpackRule_eq_ok {pw : Nat} {s : State} (h : bytesFor (pw * count s) ≤ s.operands.srcLen.toNat)
    (ws : Width) : bpUnpackRule ws.bits pw s = .ok (unpackedOutput ws pw s) := by
  have hread : srcRead (srcWindow s) 0 (bytesFor (pw * count s)) =
      .ok (bytesFrom s.mem.read s.operands.srcBase.toNat (bytesFor (pw * count s))) :=
    (srcRead_eq_ok ..).mpr ⟨by simpa using h, (bytesFrom_srcWindow s 0 _).symm⟩
  simp only [bpUnpackRule, hread, bits_div_eight, unpackedOutput, unpackedArray]

/-- The elements that `BP_UNPACK` leaves in memory are the fields of the stream. -/
theorem elemAt_complete_unpackedOutput {i : Nat} {s : State} (hi : i < count s) (ws : Width) (pw : Nat) :
    elemAt (complete (unpackedOutput ws pw s) s).mem ws s.operands.dstBase.toNat i =
      BitVec.ofNat ws.bits (fieldAt s.mem s.operands.srcBase.toNat pw (count s) i) := by
  have harray : arrayAt (complete (unpackedOutput ws pw s) s).mem ws s.operands.dstBase.toNat (count s) =
      unpackedArray ws pw s := by
    rw [← unpackedArray_length ws pw s]
    exact arrayAt_writeBytes ..
  have helem := unpackedArray_getElem? hi ws pw
  rw [← harray] at helem
  simpa [arrayAt, hi] using helem

/-- Settles O38: the array written holds the fields of the stream, whose bits are those of the stream below `PW` and
zeros above. -/
theorem bpUnpackBits : Obligations.BpUnpackBits := by
  intro ws lane pw s _ hwin hsrc hdst
  have hlen : (unpackedOutput ws pw.toNat s).bytes.length = count s * ws.bytes := by simp [unpackedOutput]
  have hexec : exec (.bpUnpack ws lane pw) s = .next (complete (unpackedOutput ws pw.toNat s) s) := by
    rw [exec, execBpUnpack, bpUnpackRule_eq_ok hsrc,
      runCommand_ok (argFault_eq_false_of_ready rfl hwin) (by rwa [hlen])]
  refine ⟨_, (unpackedOutput ws pw.toNat s).bytes, hexec, rfl, sameElse_complete .., hlen, wrote_complete ..,
    fun i j hi hj => ?_, resultsAre_cursors hsrc hdst⟩
  rw [elemAt_complete_unpackedOutput hi, BitVec.getLsbD_ofNat, testBit_fieldAt hi, decide_eq_true hj, Bool.true_and]

/-! ### The lane -/

/-- The shape of a command uses the command for its argument checks, for whether it writes memory and for its element
width, and for nothing else. -/
theorem runCommand_congr {i i' : Instr} {s : State} (harg : argFault i s.operands = argFault i' s.operands)
    (hwrites : writesMem i = writesMem i') (hwidth : widthOfInstr i = widthOfInstr i') (rule : Except Stop Output) :
    runCommand i rule s = runCommand i' rule s := by
  simp only [runCommand, harg, hwrites, hwidth]

/-- Settles O26: two commands that differ in the lane have the same rule, the same checks, the same element width, and
both write memory or neither does (R203). -/
theorem laneInvariance : Obligations.LaneInvariance := by
  intro ws tr l₁ l₂ pw gs bm1 s
  and_intros <;> exact congrArg Host.Outcome.next (runCommand_congr rfl rfl rfl _)

end Sys2Proof.Machine

/-! PROOFS. The width selector of the PFor coder and `PF_SELW` (spec/45_pfor.md R211, R217): the least of its candidates
with the least cost is the least width of least cost at all, for a width beyond the candidates only adds bits. -/

namespace Sys2Proof.Machine

/-! ### The width selector -/

theorem lt_bw_iff {x k : Nat} : k < bw x ↔ 2 ^ k ≤ x := by
  rw [← not_le, bw_le_iff, not_lt]

/-- R211: `c(k)` counts the elements that `k` bits do not hold. -/
theorem pfExceptionCount_eq (k : Nat) (d : List Nat) :
    pfExceptionCount k d = d.countP fun v => decide (2 ^ k ≤ v) := by
  simp only [pfExceptionCount, lt_bw_iff]

/-- A width of least cost, smaller than any other such width (R211). -/
def LeastCostAt (cost : Nat → Nat) (k : Nat) : Prop :=
  ∀ k', cost k ≤ cost k' ∧ (k' < k → cost k < cost k')

theorem leastCost_le (cost : Nat → Nat) (top : Nat) : leastCost cost top ≤ top := by
  induction top with
  | zero => exact le_rfl
  | succ top ih =>
    rw [leastCost]
    split <;> omega

/-- Among the candidates `0 .. top` the selector's width has the least cost, and a smaller one costs more (R211). -/
theorem leastCost_spec (cost : Nat → Nat) {top k' : Nat} (h : k' ≤ top) :
    cost (leastCost cost top) ≤ cost k' ∧ (k' < leastCost cost top → cost (leastCost cost top) < cost k') := by
  induction top with
  | zero =>
    obtain rfl := Nat.le_zero.mp h
    exact ⟨le_rfl, fun hlt => absurd hlt (Nat.not_lt_zero _)⟩
  | succ top ih =>
    have hle := leastCost_le cost top
    rcases Nat.lt_or_eq_of_le h with hk | rfl
    · obtain ⟨hleast, hfirst⟩ := ih (Nat.le_of_lt_succ hk)
      rw [leastCost]
      split <;> omega
    · rw [leastCost]
      split <;> omega

/-- No element needs more bits than the maximum (R211 a). -/
theorem pfExceptionCount_of_bw_listMax_le {d : List Nat} {k : Nat} (h : bw (listMax d) ≤ k) :
    pfExceptionCount k d = 0 := by
  rw [pfExceptionCount_eq, List.countP_eq_zero]
  intro v hv
  simpa using bw_listMax_le_iff.mp h v hv

/-- At a width that holds every element a block costs what plain packing does (R211 b). -/
theorem pfCost_of_bw_listMax_le {d : List Nat} {k : Nat} (h : bw (listMax d) ≤ k) (w b : Nat) :
    pfCost w b d k = k * d.length := by
  rw [pfCost, pfExceptionCount_of_bw_listMax_le h, Nat.zero_mul, Nat.add_zero]

theorem pfWidth_le (w b : Nat) (d : List Nat) : pfWidth w b d ≤ bw (listMax d) := leastCost_le _ _

/-- The selected width has the least cost of all, for beyond the candidates the cost only rises (R211). -/
theorem leastCostAt_pfWidth (w b : Nat) (d : List Nat) : LeastCostAt (pfCost w b d) (pfWidth w b d) := by
  intro k'
  rcases Nat.le_total k' (bw (listMax d)) with hk | hk
  · exact leastCost_spec _ hk
  · have hcost : pfCost w b d (bw (listMax d)) ≤ pfCost w b d k' := by
      rw [pfCost_of_bw_listMax_le le_rfl, pfCost_of_bw_listMax_le hk]
      exact Nat.mul_le_mul_right _ hk
    exact ⟨(leastCost_spec _ le_rfl).1.trans hcost, fun hlt => absurd (hlt.trans_le (pfWidth_le w b d)) hk.not_gt⟩

/-- R211 b: a block costs no more than plain packing at the width of its maximum. -/
theorem pfCost_pfWidth_le (w b : Nat) (d : List Nat) :
    pfCost w b d (pfWidth w b d) ≤ bw (listMax d) * d.length := by
  rw [← pfCost_of_bw_listMax_le (w := w) (b := b) le_rfl]
  exact (leastCostAt_pfWidth w b d _).1

/-! ### `PF_SELW` -/

theorem pfExceptionCount_srcArray (ws : Width) (s : State) (k : Nat) :
    pfExceptionCount k ((srcArray ws s).map BitVec.toNat) = tooWide (srcElem ws s) (count s) k := by
  simp [pfExceptionCount_eq, srcArray, tooWide, List.countP_map, Function.comp_def]

theorem pfCost_srcArray (ws : Width) (s : State) (b : Nat) :
    pfCost ws.bits b ((srcArray ws s).map BitVec.toNat) = blockCost (srcElem ws s) (count s) b := by
  funext k
  rw [pfCost, pfExceptionCount_srcArray, List.length_map, srcArray_length]
  rfl

/-- The width of `W`-bit values has no more than `W` bits. -/
theorem pfWidth_srcArray_le (ws : Width) (s : State) (b : Nat) :
    pfWidth ws.bits b ((srcArray ws s).map BitVec.toNat) ≤ ws.bits :=
  (pfWidth_le ..).trans (bw_listMax_srcArray_le_iff.mpr fun i _ => (srcElem ws s i).isLt)

theorem tooWide_le {w : Nat} (x : Nat → BitVec w) (n k : Nat) : tooWide x n k ≤ n :=
  List.countP_le_length.trans_eq List.length_range

/-- Settles O50: the rule reads the whole array and reports the width that the selector finds for it. -/
theorem pfSelwLeastCost : Obligations.PfSelwLeastCost := by
  intro ws bm1 s hsrc hblock hlen cost
  have hwidth := pfWidth_srcArray_le ws s (bm1.toNat + 1)
  have hleast := leastCostAt_pfWidth ws.bits (bm1.toNat + 1) ((srcArray ws s).map BitVec.toNat)
  rw [pfCost_srcArray] at hleast
  refine ⟨_, ?_, hwidth, hleast⟩
  have hindex : indexFault (.pfSelw ws bm1) s.operands = false := decide_eq_false (Nat.not_lt.mpr hblock)
  refine reports_of_rule rfl (argFault_eq_false_of_readOnly rfl hindex fun _ => hsrc) ?_ (toNat_resultOfNat ?_)
    (toNat_resultOfNat (hlen.trans_lt s.operands.srcLen.isLt))
  · simp only [pfSelwRule, srcElements_srcWindow hlen, bits_div_eight, pfExceptionCount_srcArray]
    rfl
  · have hexceptions := tooWide_le (srcElem ws s) (count s)
      (pfWidth ws.bits (bm1.toNat + 1) ((srcArray ws s).map BitVec.toNat))
    have := bits_le ws
    have := bm1.isLt
    omega

end Sys2Proof.Machine

/-! PROOFS. A PFor block (spec/45_pfor.md R212, R214, R218): its exceptions as rising positions, its header bytes, its
packed regions bit by bit, and its size. -/

namespace Sys2Proof.Machine

/-! ### The exceptions of a block -/

/-- The positions of the elements that `k` bits do not hold, rising (R212). -/
def pfPositions (k : Nat) (d : List Nat) : List Nat :=
  (List.range d.length).filter fun i => decide (2 ^ k ≤ d.getD i 0)

/-- The elements at some positions of a block. -/
def pfValues (d ps : List Nat) : List Nat := ps.map fun p => d.getD p 0

theorem mem_pfPositions {k p : Nat} {d : List Nat} : p ∈ pfPositions k d ↔ p < d.length ∧ 2 ^ k ≤ d.getD p 0 := by
  simp [pfPositions]

theorem pfPositions_rising (k : Nat) (d : List Nat) : (pfPositions k d).Pairwise (· < ·) :=
  List.pairwise_lt_range.filter _

/-- The recorder's list, from any first position on: the positions and the elements there (R212). -/
theorem pfExceptions_eq (k i : Nat) (d : List Nat) :
    pfExceptions k i d = (pfPositions k d).map fun p => (i + p, d.getD p 0) := by
  induction d generalizing i with
  | nil => rfl
  | cons v d ih =>
    have hrest : pfExceptions k (i + 1) d =
        (((List.range d.length).map Nat.succ).filter fun j => decide (2 ^ k ≤ (v :: d).getD j 0)).map
          fun p => (i + p, (v :: d).getD p 0) := by
      rw [ih, pfPositions, List.filter_map, List.map_map]
      simp [Function.comp_def, Nat.add_assoc, Nat.add_comm 1]
    rw [pfExceptions, pfPositions, List.length_cons, List.range_succ_eq_map, List.filter_cons, hrest]
    simp only [lt_bw_iff, List.getD_cons_zero, decide_eq_true_eq]
    split <;> rfl

theorem pfPositions_length (k : Nat) (d : List Nat) : (pfPositions k d).length = pfExceptionCount k d := by
  have hrecorded (i : Nat) : (pfExceptions k i d).length = pfExceptionCount k d := by
    induction d generalizing i with
    | nil => rfl
    | cons v d ih =>
      simp only [pfExceptions, pfExceptionCount, List.countP_cons] at ih ⊢
      split <;> simp [*]
  rw [← hrecorded 0, pfExceptions_eq, List.length_map]

@[simp] theorem pfValues_length (d ps : List Nat) : (pfValues d ps).length = ps.length := List.length_map _

theorem pfValues_getElem? {d ps : List Nat} {e p : Nat} (h : ps[e]? = some p) :
    (pfValues d ps)[e]? = some (d.getD p 0) := by
  rw [pfValues, List.getElem?_map, h, Option.map_some]

theorem pfValues_pfPositions_lt {k v n : Nat} {d : List Nat} (hvalues : ∀ v ∈ d, v < n)
    (h : v ∈ pfValues d (pfPositions k d)) : v < n := by
  obtain ⟨p, hp, rfl⟩ := List.mem_map.mp h
  obtain ⟨hlt, _⟩ := mem_pfPositions.mp hp
  rw [List.getD_eq_getElem _ _ hlt]
  exact hvalues _ (List.getElem_mem hlt)

@[simp] theorem gapsFrom_length (next : Nat) (ps : List Nat) : (gapsFrom next ps).length = ps.length := by
  induction ps generalizing next with
  | nil => rfl
  | cons p ps ih => simp [gapsFrom, ih]

/-- A gap counts from the position after the one before it, the first from `next` (R212). -/
theorem gapsFrom_getElem? {next e p : Nat} {ps : List Nat} (h : ps[e]? = some p) :
    (gapsFrom next ps)[e]? = some (if e = 0 then p - next else p - ps.getD (e - 1) 0 - 1) := by
  induction ps generalizing next e with
  | nil => cases h
  | cons q ps ih =>
    cases e with
    | zero =>
      obtain rfl : q = p := Option.some.inj h
      rfl
    | succ e =>
      rw [gapsFrom, List.getElem?_cons_succ, ih h]
      cases e <;> simp [Nat.sub_sub]

/-- A gap is no more than the position it leads to. -/
theorem exists_le_of_mem_gapsFrom {next g : Nat} {ps : List Nat} (h : g ∈ gapsFrom next ps) : ∃ p ∈ ps, g ≤ p := by
  induction ps generalizing next with
  | nil => cases h
  | cons p ps ih =>
    rcases List.mem_cons.mp h with rfl | h
    · exact ⟨p, List.mem_cons_self, Nat.sub_le ..⟩
    · obtain ⟨q, hq, hle⟩ := ih h
      exact ⟨q, List.mem_cons_of_mem _ hq, hle⟩

/-! ### The bytes of a block -/

/-- R212: the two header bytes, the packed elements, the gaps and the true values. -/
theorem pfBlock_eq {k : Nat} {ps : List Nat} {w b : Nat} {d : List Nat} (hk : pfWidth w b d = k)
    (hps : pfPositions k d = ps) :
    pfBlock w b d = [BitVec.ofNat 8 k] ++ ([BitVec.ofNat 8 ps.length] ++
      (pack k d ++ (pack (pfOffsetBits b) (gapsFrom 0 ps) ++ pack w (pfValues d ps)))) := by
  subst hk hps
  simp [pfBlock, pfExceptions_eq, pfValues, Function.comp_def]

/-- `W`-bit true values take `W/8` bytes each (R212). -/
theorem bytesFor_bits_mul (ws : Width) (c : Nat) : bytesFor (ws.bits * c) = c * ws.bytes := by
  rw [← eight_mul_bytes, bytesFor, Nat.mul_assoc, Nat.mul_comm c]
  omega

/-- R214: a block's length from its packing width and its number of exceptions. -/
theorem pfBlock_length (ws : Width) (b : Nat) (d : List Nat) :
    (pfBlock ws.bits b d).length = 2 + bytesFor (pfWidth ws.bits b d * d.length) +
      bytesFor (pfOffsetBits b * pfExceptionCount (pfWidth ws.bits b d) d) +
      pfExceptionCount (pfWidth ws.bits b d) d * ws.bytes := by
  simp only [pfBlock_eq rfl rfl, List.length_append, List.length_singleton, pack_length, gapsFrom_length,
    pfValues_length, pfPositions_length, bytesFor_bits_mul]
  omega

section
variable {ws : Width} {b : Nat} {d : List Nat} (hvalues : ∀ v ∈ d, v < 2 ^ ws.bits)
include hvalues

theorem pfWidth_le_bits : pfWidth ws.bits b d ≤ ws.bits :=
  (pfWidth_le ..).trans (bw_listMax_le_iff.mpr hvalues)

/-- R218: a block costs no more bits than the plain array. -/
theorem pfCost_le_bits : pfCost ws.bits b d (pfWidth ws.bits b d) ≤ ws.bits * d.length :=
  (pfCost_pfWidth_le ..).trans (Nat.mul_le_mul_right _ (bw_listMax_le_iff.mpr hvalues))

/-- R218: two header bytes and two bytes of padding more than the plain array. -/
theorem pfBlock_length_le : (pfBlock ws.bits b d).length ≤ ws.bytes * d.length + 4 := by
  have hcost := pfCost_le_bits (b := b) hvalues
  have hplain : 8 * (ws.bytes * d.length) = ws.bits * d.length := by rw [← Nat.mul_assoc, eight_mul_bytes]
  have hexceptions (c : Nat) : 8 * (c * ws.bytes) = c * ws.bits := by rw [Nat.mul_left_comm, eight_mul_bytes]
  rw [pfCost, Nat.mul_add, ← hexceptions, Nat.mul_comm _ (pfOffsetBits b), ← hplain] at hcost
  rw [pfBlock_length, bytesFor, bytesFor]
  omega

/-- R211 c: the number of exceptions fits its header byte. -/
theorem pfExceptionCount_lt (hlen : d.length ≤ b) (hb : b ≤ 256) :
    pfExceptionCount (pfWidth ws.bits b d) d < 256 := by
  have hle : pfExceptionCount (pfWidth ws.bits b d) d ≤ d.length := List.countP_le_length
  have hcost := pfCost_le_bits (b := b) hvalues
  by_contra hge
  obtain rfl : b = 256 := by omega
  have hoffset : pfOffsetBits 256 = 8 := by decide
  have hlength : d.length = 256 := by omega
  have hall : pfExceptionCount (pfWidth ws.bits 256 d) d = 256 := by omega
  rw [pfCost, hall, hlength, hoffset] at hcost
  omega

end

/-! ### The bits of a block -/

/-- A packed region at an offset of a byte string (R212). -/
def HoldsPacked (blk : List Byte) (base w : Nat) (xs : List Nat) : Prop :=
  ∃ pre post, blk = pre ++ (pack w xs ++ post) ∧ pre.length = base

section
variable {blk : List Byte} {base w j : Nat} {xs : List Nat} (h : HoldsPacked blk base w xs)
include h

/-- A bit of a packed region is a bit of the packed number (R11, R12). -/
theorem HoldsPacked.getLsbD (hj : j < 8 * bytesFor (w * xs.length)) :
    (blk.getD (base + j / 8) 0#8).getLsbD (j % 8) = (packNat w xs).testBit j := by
  obtain ⟨pre, post, rfl, rfl⟩ := h
  have hbyte : j / 8 < (pack w xs).length := by
    rw [pack_length]
    omega
  rw [List.getD_append_right _ _ _ _ (Nat.le_add_right ..), Nat.add_sub_cancel_left, List.getD_append _ _ _ _ hbyte,
    ← leValue_pack, testBit_leValue (List.getElem?_eq_getElem hbyte), List.getD_eq_getElem _ _ hbyte]

/-- Bit `j` of field `i`. -/
theorem HoldsPacked.field {i x : Nat} (hx : xs[i]? = some x) (hj : j < w) :
    (blk.getD (base + (i * w + j) / 8) 0#8).getLsbD ((i * w + j) % 8) = x.testBit j := by
  obtain ⟨hi, _⟩ := List.getElem?_eq_some_iff.mp hx
  rw [h.getLsbD (fieldBit_lt_stream hi hj), testBit_packNat hx hj]

/-- The bits after the fields are zero. -/
theorem HoldsPacked.padding (hfields : w * xs.length ≤ j) (hj : j < 8 * bytesFor (w * xs.length)) :
    (blk.getD (base + j / 8) 0#8).getLsbD (j % 8) = false := by
  rw [h.getLsbD hj, testBit_packNat_padding hfields]

end

theorem leValue_drop (n : Nat) (bs : List Byte) : leValue (bs.drop n) = leValue bs / 256 ^ n := by
  induction n generalizing bs with
  | zero => simp
  | succ n ih =>
    cases bs with
    | nil => simp [leValue]
    | cons b bs =>
      have hbyte : leValue (b :: bs) / 256 = leValue bs := by
        have := b.isLt
        rw [leValue]
        omega
      rw [List.drop_succ_cons, ih, ← hbyte, Nat.div_div_eq_div_mul, Nat.pow_succ']

theorem leValue_take (n : Nat) (bs : List Byte) : leValue (bs.take n) = leValue bs % 256 ^ n := by
  induction n generalizing bs with
  | zero => simp [leValue, Nat.mod_one]
  | succ n ih =>
    cases bs with
    | nil => simp [leValue]
    | cons b bs =>
      have hbyte : (leValue (b :: bs)) % 256 = b.toNat ∧ leValue (b :: bs) / 256 = leValue bs := by
        have := b.isLt
        rw [leValue]
        omega
      obtain ⟨hlow, hhigh⟩ := hbyte
      rw [List.take_succ_cons, Nat.pow_succ', Nat.mod_mul, hlow, hhigh, leValue, ih]

/-- A `W`-bit field of a packed stream is the value of the `W/8` bytes it stands in (R12, R14). -/
theorem leValue_pack_bytes {ws : Width} {e x : Nat} {xs : List Nat} (h : xs[e]? = some x) :
    leValue (((pack ws.bits xs).drop (e * ws.bytes)).take ws.bytes) = x % 2 ^ ws.bits := by
  have hbytes (n : Nat) : 256 ^ (n * ws.bytes) = 2 ^ (ws.bits * n) := by
    rw [← eight_mul_bytes, Nat.mul_assoc, Nat.pow_mul 2 8, Nat.mul_comm]
  have hone := hbytes 1
  rw [Nat.one_mul, Nat.mul_one] at hone
  rw [leValue_take, leValue_drop, leValue_pack, hbytes, hone, packNat_field h]

/-! ### The regions of a block -/

section
variable {ws : Width} {b k : Nat} {d ps : List Nat} (hk : pfWidth ws.bits b d = k) (hps : pfPositions k d = ps)
include hk

theorem toNat_pfBlock_width (hvalues : ∀ v ∈ d, v < 2 ^ ws.bits) :
    ((pfBlock ws.bits b d).getD 0 0#8).toNat = k := by
  have hwidth := (pfWidth_le_bits (b := b) hvalues).trans (bits_le ws)
  rw [hk] at hwidth
  simp only [pfBlock_eq hk rfl]
  exact Nat.mod_eq_of_lt (show k < 2 ^ 8 by omega)

include hps

theorem toNat_pfBlock_count (hvalues : ∀ v ∈ d, v < 2 ^ ws.bits) (hlen : d.length ≤ b) (hb : b ≤ 256) :
    ((pfBlock ws.bits b d).getD 1 0#8).toNat = ps.length := by
  have hfew := pfExceptionCount_lt hvalues hlen hb
  rw [hk, ← pfPositions_length, hps] at hfew
  simp only [pfBlock_eq hk hps]
  exact Nat.mod_eq_of_lt hfew

theorem pfBlock_holds_elements : HoldsPacked (pfBlock ws.bits b d) 2 k d :=
  ⟨[BitVec.ofNat 8 k, BitVec.ofNat 8 ps.length], _, pfBlock_eq hk hps, rfl⟩

theorem pfBlock_holds_gaps : HoldsPacked (pfBlock ws.bits b d) (2 + bytesFor (k * d.length)) (pfOffsetBits b)
    (gapsFrom 0 ps) :=
  ⟨[BitVec.ofNat 8 k, BitVec.ofNat 8 ps.length] ++ pack k d, _, pfBlock_eq hk hps, by simp; omega⟩

/-- The `W/8` bytes of each true value, after the header, the elements and the gaps (R212). -/
theorem pfBlock_holds_values {e p : Nat} (hvalues : ∀ v ∈ d, v < 2 ^ ws.bits) (hp : ps[e]? = some p) :
    leValue (((pfBlock ws.bits b d).drop (2 + bytesFor (k * d.length) + bytesFor (pfOffsetBits b * ps.length) +
      e * ws.bytes)).take ws.bytes) = d.getD p 0 := by
  obtain ⟨front, hfront, hsplit⟩ : ∃ front, front.length =
      2 + bytesFor (k * d.length) + bytesFor (pfOffsetBits b * ps.length) ∧
      pfBlock ws.bits b d = front ++ pack ws.bits (pfValues d ps) :=
    ⟨[BitVec.ofNat 8 k, BitVec.ofNat 8 ps.length] ++ pack k d ++ pack (pfOffsetBits b) (gapsFrom 0 ps),
      by simp; omega, by simp [pfBlock_eq hk hps]⟩
  have hvalue := pfValues_getElem? (d := d) hp
  have hlt := pfValues_pfPositions_lt hvalues (hps ▸ List.mem_of_getElem? hvalue)
  rw [hsplit, ← hfront, List.drop_length_add_append, leValue_pack_bytes hvalue, Nat.mod_eq_of_lt hlt]

end

/-- Settles O51: the header bytes hold the selected width and the number of exceptions, and the regions after them are
packed fields, read bit by bit. -/
theorem pforBlockSize : Obligations.PforBlockSize := by
  intro ws b d _ hlen hb hvalues blk k c ob cost pos gapsAt valuesAt bit
  have hk : pfWidth ws.bits b d = k := (toNat_pfBlock_width rfl hvalues).symm
  have hpos : pfPositions k d = pos := rfl
  have hcount : pfExceptionCount k d = pos.length := (pfPositions_length k d).symm
  have hc : c = pos.length := toNat_pfBlock_count hk hpos hvalues hlen hb
  have hcost : cost = pfCost ws.bits b d := by
    funext k'
    rw [pfCost, pfExceptionCount_eq]
    rfl
  have hgaps : HoldsPacked blk gapsAt ob (gapsFrom 0 pos) := pfBlock_holds_gaps hk hpos
  refine ⟨⟨hk ▸ pfWidth_le .., hcost ▸ hk ▸ leastCostAt_pfWidth ws.bits b d⟩, ?_, hc, ?_, pfBlock_length_le hvalues,
    fun i v j => (pfBlock_holds_elements hk hpos).field, fun j => (pfBlock_holds_elements hk hpos).padding,
    fun e p j hp => hgaps.field (gapsFrom_getElem? hp), fun j hfields hj => hgaps.padding ?_ ?_, fun e p hp => ?_⟩
  · rw [hc, ← hcount, pfExceptionCount_eq]
  · rw [pfBlock_length, hk, hcount, ← hc]
    rfl
  · rwa [gapsFrom_length, ← hc]
  · rwa [gapsFrom_length, ← hc]
  · simp only [valuesAt, hc]
    exact pfBlock_holds_values hk hpos hvalues hp

end Sys2Proof.Machine

/-! PROOFS. Reading PFor blocks back, and `PF_ENC` and `PF_DEC` (spec/45_pfor.md R213 to R219): the patcher restores a
block whose elements were truncated, the buffer is its blocks one at a time, and the two commands undo each other. -/

namespace Sys2Proof.Machine

/-! ### Reading a block back -/

/-- A number below 256 in a byte of its own. -/
theorem leValue_byte {n : Nat} (h : n < 256) : leValue [BitVec.ofNat 8 n] = n := Nat.mod_eq_of_lt h

/-- Fields that lose no bit are read back as they are (R13). -/
theorem unpack_pack_of_lt {w : Nat} {xs : List Nat} (h : ∀ x ∈ xs, x < 2 ^ w) :
    unpack w (pack w xs) xs.length = xs := by
  rw [unpack_pack, List.map_congr_left fun x hx => Nat.mod_eq_of_lt (h x hx), List.map_id']

/-- The patcher restores a block from a list that is wrong only at the positions still to come (R213). -/
theorem pfPatch_restores {next : Nat} {ps d l : List Nat} (hrising : ps.Pairwise (· < ·))
    (hbounds : ∀ p ∈ ps, next ≤ p ∧ p < d.length) (hlen : l.length = d.length)
    (hright : ∀ i, i ∉ ps → l[i]? = d[i]?) :
    pfPatch d.length next ((gapsFrom next ps).zip (pfValues d ps)) l = .ok d := by
  induction ps generalizing next l with
  | nil => exact congrArg Except.ok (List.ext_getElem? fun i => hright i List.not_mem_nil)
  | cons p ps ih =>
    obtain ⟨hnext, hp⟩ := hbounds p List.mem_cons_self
    obtain ⟨hfirst, hrest⟩ := List.pairwise_cons.mp hrising
    have hpos : next + (p - next) = p := Nat.add_sub_cancel' hnext
    have hcut : (gapsFrom next (p :: ps)).zip (pfValues d (p :: ps)) =
        (p - next, d.getD p 0) :: (gapsFrom (p + 1) ps).zip (pfValues d ps) := rfl
    rw [hcut, pfPatch, hpos, if_neg (Nat.not_le.mpr hp)]
    refine ih hrest (fun q hq => ⟨hfirst q hq, (hbounds q (List.mem_cons_of_mem _ hq)).2⟩)
      (by rw [List.length_set, hlen]) fun i hi => ?_
    by_cases h : p = i
    · subst h
      rw [List.getElem?_set_self (hlen ▸ hp), List.getD_eq_getElem _ _ hp, List.getElem?_eq_getElem hp]
    · rw [List.getElem?_set_ne h]
      exact hright i (by simp [hi, Ne.symm h])

/-- The truncated elements of a block are wrong only at its exceptions (R213). -/
theorem getElem?_truncated {k i : Nat} {d : List Nat} (h : i ∉ pfPositions k d) :
    (d.map fun v => v % 2 ^ k)[i]? = d[i]? := by
  rw [List.getElem?_map]
  rcases Nat.lt_or_ge i d.length with hi | hi
  · have hfits : d[i] < 2 ^ k := by simpa [mem_pfPositions, hi] using h
    rw [List.getElem?_eq_getElem hi, Option.map_some, Nat.mod_eq_of_lt hfits]
  · rw [List.getElem?_eq_none hi, Option.map_none]

/-- The patcher on the unpacked elements of a block and its exceptions answers the block (R213). -/
theorem pfPatch_pfPositions (k : Nat) (d : List Nat) :
    pfPatch d.length 0 ((gapsFrom 0 (pfPositions k d)).zip (pfValues d (pfPositions k d)))
      (d.map fun v => v % 2 ^ k) = .ok d :=
  pfPatch_restores (pfPositions_rising k d) (fun p hp => ⟨Nat.zero_le p, (mem_pfPositions.mp hp).1⟩)
    (List.length_map _) fun _ hi => getElem?_truncated hi

section
variable {ws : Width} {b : Nat} {d : List Nat}

/-- A gap fits the bits of an in-block offset (R212). -/
theorem gapsFrom_pfPositions_lt {k g : Nat} (hlen : d.length ≤ b) (h : g ∈ gapsFrom 0 (pfPositions k d)) :
    g < 2 ^ pfOffsetBits b := by
  obtain ⟨p, hp, hle⟩ := exists_le_of_mem_gapsFrom h
  obtain ⟨hlt, _⟩ := mem_pfPositions.mp hp
  have hoffset : b - 1 < 2 ^ pfOffsetBits b := bw_le_iff.mp le_rfl
  omega

/-- `pf_unblock` on a header and three regions of packed fields that a window holds: the exceptions are patched into
the truncated elements, whatever policy chose the width (R213, R216). -/
theorem pfUnblock_regions {v : Src} {pos k : Nat} {gaps vals : List Nat} {blk : List Byte} (hk : k ≤ ws.bits)
    (hcount : gaps.length ≤ d.length) (hfew : gaps.length < 256) (hpairs : vals.length = gaps.length)
    (hgaps : ∀ g ∈ gaps, g < 2 ^ pfOffsetBits b) (hvals : ∀ x ∈ vals, x < 2 ^ ws.bits)
    (hblk : blk = [BitVec.ofNat 8 k] ++ ([BitVec.ofNat 8 gaps.length] ++
      (pack k d ++ (pack (pfOffsetBits b) gaps ++ pack ws.bits vals))))
    (h : srcRead v pos blk.length = .ok blk) :
    pfUnblock v ws.bits b d.length pos =
      (pfPatch d.length 0 (gaps.zip vals) (d.map fun x => x % 2 ^ k)).map fun d' => (d', pos + blk.length) := by
  have hlegal : ¬ (ws.bits < k ∨ d.length < gaps.length) := by omega
  have hbits := bits_le ws
  have hgapsBack := unpack_pack_of_lt hgaps
  have hvalsBack := unpack_pack_of_lt hvals
  have hlength : blk.length = 2 + (bytesFor (k * d.length) + (bytesFor (pfOffsetBits b * gaps.length) +
      gaps.length * ws.bytes)) := by
    simp [hblk, hpairs, bytesFor_bits_mul]
    omega
  rw [hlength]
  subst hblk
  obtain ⟨hwidthByte, h⟩ := srcRead_append_iff.mp h
  obtain ⟨hcountByte, h⟩ := srcRead_append_iff.mp h
  obtain ⟨hpacked, h⟩ := srcRead_append_iff.mp h
  obtain ⟨hgapBytes, hvalBytes⟩ := srcRead_append_iff.mp h
  simp only [List.length_singleton, pack_length, hpairs, bytesFor_bits_mul, Nat.add_assoc, Nat.reduceAdd]
    at hwidthByte hcountByte hpacked hgapBytes hvalBytes hvalsBack
  simp only [pfUnblock, hwidthByte, hcountByte, leValue_byte (show k < 256 by omega), leValue_byte hfew,
    if_neg hlegal, hpacked, hgapBytes, hvalBytes, bits_div_eight, Nat.add_assoc, hgapsBack, hvalsBack, unpack_pack]
  cases pfPatch d.length 0 (gaps.zip vals) _ <;> rfl

/-- `pf_unblock` on the bytes of a block answers the block and the offset past it (R213). -/
theorem pfUnblock_pfBlock {v : Src} {pos : Nat} (hvalues : ∀ v ∈ d, v < 2 ^ ws.bits) (hlen : d.length ≤ b)
    (hb : b ≤ 256) (h : srcRead v pos (pfBlock ws.bits b d).length = .ok (pfBlock ws.bits b d)) :
    pfUnblock v ws.bits b d.length pos = .ok (d, pos + (pfBlock ws.bits b d).length) := by
  have hcount := (gapsFrom_length 0 (pfPositions (pfWidth ws.bits b d) d)).trans (pfPositions_length ..)
  have hblk := pfBlock_eq (w := ws.bits) (b := b) (d := d) rfl rfl
  rw [← gapsFrom_length 0] at hblk
  rw [pfUnblock_regions (pfWidth_le_bits hvalues) (hcount.trans_le List.countP_le_length)
    (hcount.trans_lt (pfExceptionCount_lt hvalues hlen hb)) (by simp) (fun _ => gapsFrom_pfPositions_lt hlen)
    (fun _ => pfValues_pfPositions_lt hvalues) hblk h, pfPatch_pfPositions]
  rfl

end

/-! ### The buffer of an array -/

@[simp] theorem pfLayout_nil (b : Nat) {w : Nat} : pfLayout b ([] : List (BitVec w)) = [] := rfl

/-- The first block of a buffer, then the buffer of the rest (R210). -/
theorem pfLayout_of_ne_nil {b w : Nat} (hb : 0 < b) {xs : List (BitVec w)} (h : xs ≠ []) :
    pfLayout b xs = pfBlock w b ((xs.take b).map BitVec.toNat) ++ pfLayout b (xs.drop b) := by
  rw [pfLayout, chunks_of_ne_nil hb (by simpa using h), List.flatMap_cons, List.map_take, pfLayout, List.map_drop]

theorem lt_of_mem_map_toNat {w v : Nat} {xs : List (BitVec w)} (h : v ∈ xs.map BitVec.toNat) : v < 2 ^ w := by
  obtain ⟨x, _, rfl⟩ := List.mem_map.mp h
  exact x.isLt

/-- R218: a buffer takes at most four bytes a block more than the plain array. -/
theorem pfLayout_length_le {ws : Width} {b : Nat} (hb : 0 < b) (xs : List (BitVec ws.bits)) :
    (pfLayout b xs).length ≤ xs.length * ws.bytes + 4 * ceilDiv xs.length b := by
  induction xs using chunks_induction hb with
  | nil => exact Nat.zero_le _
  | run xs hne ih =>
    have hfirst := pfBlock_length_le (b := b) fun _ hv => lt_of_mem_map_toNat (xs := xs.take b) hv
    have hbytes : xs.length * ws.bytes = ws.bytes * (xs.take b).length + (xs.drop b).length * ws.bytes := by
      rw [Nat.mul_comm ws.bytes, ← Nat.add_mul, ← List.length_append, List.take_append_drop]
    rw [List.length_map] at hfirst
    rw [List.length_drop] at ih hbytes
    rw [pfLayout_of_ne_nil hb hne, List.length_append, ← ceilDiv_sub_add_one hb (List.length_pos_iff.mpr hne)]
    omega

section
variable {ws : Width} {v : Src} {b : Nat}

/-- A block that a window holds is read, and the blocks after it follow from its end on (R216). -/
theorem pfBlocks_pfBlock (hb : b ≤ 256) {blocks left pos : Nat} {xs : List (BitVec ws.bits)}
    (hlen : xs.length = min b left)
    (h : srcRead v pos (pfBlock ws.bits b (xs.map BitVec.toNat)).length =
      .ok (pfBlock ws.bits b (xs.map BitVec.toNat))) :
    pfBlocks v ws.bits b (blocks + 1) left pos =
      (pfBlocks v ws.bits b blocks (left - b) (pos + (pfBlock ws.bits b (xs.map BitVec.toNat)).length)).map
        fun r => (xs ++ r.1, r.2) := by
  have hblock := pfUnblock_pfBlock (fun _ => lt_of_mem_map_toNat) (by rw [List.length_map]; omega) hb h
  have hback : (xs.map BitVec.toNat).map (BitVec.ofNat ws.bits) = xs := by simp [Function.comp_def]
  rw [List.length_map, hlen] at hblock
  simp only [pfBlocks, hblock, hback]
  cases pfBlocks v ws.bits b blocks (left - b) _ <;> rfl

/-- The blocks of a buffer that a window holds are the array (R216). -/
theorem pfBlocks_pfLayout (hpos : 0 < b) (hb : b ≤ 256) {pos : Nat} {xs : List (BitVec ws.bits)}
    (h : srcRead v pos (pfLayout b xs).length = .ok (pfLayout b xs)) :
    pfBlocks v ws.bits b (ceilDiv xs.length b) xs.length pos = .ok (xs, pos + (pfLayout b xs).length) := by
  induction xs using chunks_induction hpos generalizing pos with
  | nil =>
    rw [List.length_nil, ceilDiv_zero]
    rfl
  | run xs hne ih =>
    rw [pfLayout_of_ne_nil hpos hne] at h ⊢
    obtain ⟨hfirst, hrest⟩ := srcRead_append_iff.mp h
    have hblocks := ih hrest
    rw [List.length_drop] at hblocks
    rw [← ceilDiv_sub_add_one hpos (List.length_pos_iff.mpr hne), pfBlocks_pfBlock hb List.length_take hfirst, hblocks,
      List.length_append, ← Nat.add_assoc]
    exact congrArg (fun ys => Except.ok (ys, _)) (List.take_append_drop b xs)

end

theorem blockSize_pos (bm1 : BlockField) : 0 < blockSize bm1 := Nat.succ_pos _

theorem blockSize_le (bm1 : BlockField) : blockSize bm1 ≤ 256 := bm1.isLt

/-- The decoder on a window that begins with the buffer of transformed values (R216). -/
theorem pfDecode_pfLayout {ws : Width} (bm1 : BlockField) {s : State} {ys : List (BitVec ws.bits)}
    (h : BeginsWith s (pfLayout (blockSize bm1) ys)) (tr : Transform) :
    pfDecode ws.bits tr (blockSize bm1) s ys.length =
      .ok { seeded := xfi tr (seedElem ws.bits s) (seed2Elem ws.bits s) ys,
            pos := (pfLayout (blockSize bm1) ys).length } := by
  simp only [pfDecode, pfBlocks_pfLayout (blockSize_pos bm1) (blockSize_le bm1) (beginsWith_iff_srcRead.mp h),
    Nat.zero_add]

/-! ### The statements about the two commands -/

/-- Settles O52: the rule's output is the buffer of the transformed array, which takes at most the size of R317. -/
theorem pfEncWritesBuffer : Obligations.PfEncWritesBuffer := by
  intro ws tr lane bm1 s r out
  have hcount : r.xs.length = count s := sent_length ..
  refine ⟨hcount ▸ pfLayout_length_le (blockSize_pos bm1) r.xs, fun hwin hsrc hfit => ?_⟩
  have hexec : exec (.pfEnc ws tr lane bm1) s = .next (complete (sentOutput ws tr (pfLayout (blockSize bm1)) s) s) := by
    rw [exec, execPfEnc, encodeRule_eq_ok hsrc, runCommand_ok (argFault_eq_false_of_ready rfl hwin) hfit]
  exact ⟨_, hexec, rfl, sameElse_complete .., hcount, fun i hi => sent_getElem? hi tr,
    wrote_complete (sentOutput ws tr (pfLayout (blockSize bm1)) s) s, resultsAre_sentOutput hsrc hfit⟩

/-- Settles O53: the decoder reads the transformed array back, and the inverse transform takes it to the array. -/
theorem pfDecRestores : Obligations.PfDecRestores := by
  intro ws tr lane bm1 s xs hlen r hwin hbegins hfit
  exact restores_of_layout rfl rfl hwin hlen (fun ys h => pfDecode_pfLayout bm1 h tr) hbegins hfit

/-- Settles O54: `PF_ENC` left the buffer of the transformed source array in memory, which does not depend on its lane,
and `PF_DEC` restores the array from it. -/
theorem pfRoundTrip : Obligations.PfRoundTrip := by
  intro ws tr l₁ l₂ bm1 s t s' hexec hdone hn hseed hseed2 hwin hbegins hfit
  have ht : t = runCommand (.pfEnc ws tr l₁ bm1) (encodeRule ws.bits tr (pfLayout (blockSize bm1)) s) s := by
    cases hexec
    rfl
  have hcount : count s' = count s := congrArg BitVec.toNat hn
  exact roundTrip_of_restores ht hdone hn hseed hseed2 hbegins fun xs hlen hbuffer =>
    pfDecRestores ws tr l₂ bm1 s' xs hlen hwin hbuffer (by rwa [hcount])

end Sys2Proof.Machine

/-! PROOFS. An Elias-Fano block (spec/46_eliasfano.md R231 to R233, R239): its split width as the floor of a logarithm,
the bits of its bitvector, its three regions and its size. -/

namespace Sys2Proof.Machine

/-! ### The split width -/

/-- R231: `ef_L` is the floor of the logarithm of `U/Bk` when that is at least 1. -/
theorem efL_bounds {u bk : Nat} (hpos : 0 < bk) (h : bk ≤ u) :
    2 ^ efL u bk * bk ≤ u ∧ u < 2 ^ (efL u bk + 1) * bk := by
  have hquot : u / bk ≠ 0 := Nat.div_ne_zero_iff.mpr ⟨hpos.ne', h⟩
  have hlog : efL u bk = Nat.log2 (u / bk) := by rw [efL, if_pos h, bw, if_neg hquot, Nat.add_sub_cancel]
  rw [hlog]
  exact ⟨(Nat.le_div_iff_mul_le hpos).mp (Nat.log2_self_le hquot), (Nat.div_lt_iff_lt_mul hpos).mp Nat.lt_log2_self⟩

theorem efL_of_lt {u bk : Nat} (h : u < bk) : efL u bk = 0 := if_neg (Nat.not_le.mpr h)

/-- Beyond the split width the universe spans fewer than two values of the high part for each element. -/
theorem lt_two_pow_efL_mul {u bk : Nat} (hpos : 0 < bk) : u < 2 ^ (efL u bk + 1) * bk := by
  rcases Nat.lt_or_ge u bk with h | h
  · rw [efL_of_lt h]
    omega
  · exact (efL_bounds hpos h).2

theorem two_pow_efL_le {u bk : Nat} (hu : 0 < u) (hpos : 0 < bk) : 2 ^ efL u bk ≤ u := by
  rcases Nat.lt_or_ge u bk with h | h
  · rwa [efL_of_lt h]
  · exact (Nat.le_mul_of_pos_right _ hpos).trans (efL_bounds hpos h).1

/-- R231: `L <= bw(U) - 1`. -/
theorem efL_lt_bw {u bk : Nat} (hu : 0 < u) (hpos : 0 < bk) : efL u bk < bw u :=
  lt_bw_iff.mpr (two_pow_efL_le hu hpos)

/-- R231: `L <= W`. -/
theorem efL_le {u bk w : Nat} (hu : 0 < u) (hpos : 0 < bk) (h : u ≤ 2 ^ w) : efL u bk ≤ w :=
  (Nat.pow_le_pow_iff_right one_lt_two).mp ((two_pow_efL_le hu hpos).trans h)

/-- R232: the bitvector has at most five bits for an element. -/
theorem efHb_le {u bk : Nat} (hu : 0 < u) (hpos : 0 < bk) : efHb u bk ≤ 5 * bk := by
  have hl := efL_lt_bw hu hpos
  have htop : 2 ^ (bw u - 1) ≤ u := lt_bw_iff.mp (by omega)
  have hbuckets : 2 ^ efL u bk * 2 ^ (bw u - efL u bk) < 2 ^ efL u bk * (4 * bk) :=
    calc 2 ^ efL u bk * 2 ^ (bw u - efL u bk)
        = 2 * 2 ^ (bw u - 1) := by rw [← Nat.pow_add, ← Nat.pow_succ']; congr 1; omega
      _ ≤ 2 * u := Nat.mul_le_mul_left 2 htop
      _ < 2 * (2 ^ (efL u bk + 1) * bk) := Nat.mul_lt_mul_of_pos_left (lt_two_pow_efL_mul hpos) two_pos
      _ = 2 ^ efL u bk * (4 * bk) := by rw [Nat.pow_succ]; ring
  have := Nat.lt_of_mul_lt_mul_left hbuckets
  unfold efHb
  omega

/-- R232: the bits of a block lie below the end of its bitvector. -/
theorem efPosition_lt {ul v bk : Nat} (hv : v ≤ ul) (hpos : 0 < bk) :
    v / 2 ^ efL (ul + 1) bk + bk < efHb (ul + 1) bk := by
  have hl := efL_lt_bw (Nat.add_one_pos ul) hpos
  have huniverse : ul + 1 < 2 ^ bw (ul + 1) := bw_le_iff.mp le_rfl
  have hbucket : v / 2 ^ efL (ul + 1) bk < 2 ^ (bw (ul + 1) - efL (ul + 1) bk) := by
    rw [Nat.div_lt_iff_lt_mul (Nat.two_pow_pos _), ← Nat.pow_add, Nat.sub_add_cancel hl.le]
    omega
  unfold efHb
  omega

/-! ### The bitvector -/

/-- R233: exactly the bits `(u[j] >> L) + j` are set, counted from `i` on. -/
theorem testBit_efHighBits {l i k : Nat} {us : List Nat} :
    (efHighBits l i us).testBit k = true ↔ ∃ j v, us[j]? = some v ∧ k = v / 2 ^ l + (i + j) := by
  induction us generalizing i with
  | nil => simp [efHighBits]
  | cons v us ih =>
    rw [efHighBits, Nat.testBit_or, Bool.or_eq_true, ih, Nat.testBit_two_pow, decide_eq_true_eq]
    constructor
    · rintro (rfl | ⟨j, v, hv, rfl⟩)
      · exact ⟨0, v, rfl, rfl⟩
      · exact ⟨j + 1, v, hv, by omega⟩
    · rintro ⟨j, u, hu, rfl⟩
      cases j with
      | zero => exact .inl (by cases hu; rfl)
      | succ j => exact .inr ⟨j, u, hu, by omega⟩

/-- Bit `k` of a number in the `n` bytes of `LE` is bit `k mod 8` of byte `k/8` (R11, R14). -/
theorem getLsbD_leBytes {n k : Nat} (hk : k < 8 * n) (pre : List Byte) (v : Nat) :
    ((pre ++ leBytes n v).getD (pre.length + k / 8) 0#8).getLsbD (k % 8) = v.testBit k := by
  have hbyte : k / 8 < (leBytes n v).length := by
    rw [leBytes_length]
    omega
  rw [List.getD_append_right _ _ _ _ (Nat.le_add_right ..), Nat.add_sub_cancel_left, List.getD_eq_getElem _ _ hbyte,
    ← testBit_leValue (List.getElem?_eq_getElem hbyte), leValue_leBytes, Nat.testBit_mod_two_pow, decide_eq_true hk,
    Bool.true_and]

/-! ### The bytes of a block -/

theorem lastOr_eq_getLastD (d : Nat) (us : List Nat) : lastOr d us = us.getLastD d := by
  induction us generalizing d with
  | nil => rfl
  | cons x us ih => rw [lastOr, ih, List.getLastD_cons]

/-- R233: the header, the low bits and the bitvector. -/
theorem efBlock_eq {us : List Nat} {ul l : Nat} (hlast : us.getLast? = some ul) (hl : efL (ul + 1) us.length = l)
    (w : Nat) :
    efBlock w us = leBytes (w / 8) ul ++ (pack l us ++
      leBytes (bytesFor (efHb (ul + 1) us.length)) (efHighBits l 0 us)) := by
  have hul : lastOr 0 us = ul := by rw [lastOr_eq_getLastD, List.getLastD_eq_getLast?, hlast, Option.getD_some]
  subst hl
  rw [efBlock, hul, List.append_assoc]

/-- R238: a block's length from its header. -/
theorem efBlock_length {us : List Nat} {ul : Nat} (hlast : us.getLast? = some ul) (ws : Width) :
    (efBlock ws.bits us).length =
      ws.bytes + bytesFor (efL (ul + 1) us.length * us.length) + bytesFor (efHb (ul + 1) us.length) := by
  rw [efBlock_eq hlast rfl, List.length_append, List.length_append, leBytes_length, pack_length, leBytes_length,
    bits_div_eight, Nat.add_assoc]

/-- R239: the header, at most `W` low bits and at most five bits of bitvector for an element. -/
theorem efBlock_length_le {ws : Width} {us : List Nat} (hne : us ≠ []) (hvalues : ∀ v ∈ us, v < 2 ^ ws.bits) :
    (efBlock ws.bits us).length ≤ ws.bytes + us.length * ws.bytes + bytesFor (5 * us.length) := by
  have hlast := List.getLast?_eq_some_getLast hne
  have hpos := List.length_pos_iff.mpr hne
  have hlow : efL (us.getLast hne + 1) us.length * us.length ≤ ws.bits * us.length :=
    Nat.mul_le_mul_right _ (efL_le (Nat.add_one_pos _) hpos (hvalues _ (List.getLast_mem hne)))
  have hhigh := efHb_le (Nat.add_one_pos (us.getLast hne)) hpos
  have hplain := bytesFor_bits_mul ws us.length
  rw [efBlock_length hlast]
  unfold bytesFor at *
  omega

/-- Settles O56: the three regions one after another, the last two bit by bit. -/
theorem eliasFanoBlockFormat : Obligations.EliasFanoBlockFormat := by
  intro ws us ul hlast _ hul blk l hb lowAt highAt
  have hpos : 0 < us.length := List.length_pos_iff.mpr fun h => by simp [h] at hlast
  have hblk : blk = leBytes ws.bytes ul ++ (pack l us ++ leBytes (bytesFor hb) (efHighBits l 0 us)) :=
    bits_div_eight ws ▸ efBlock_eq hlast rfl ws.bits
  have hlow : HoldsPacked blk lowAt l us := ⟨_, _, hblk, leBytes_length ..⟩
  refine ⟨efL_bounds hpos, efL_of_lt, efBlock_length hlast ws, ?_, fun i v j => hlow.field, fun k hk => ?_⟩
  · rw [hblk, List.take_left' (leBytes_length ..), leValue_leBytes_of_lt (by rwa [eight_mul_bytes])]
  · have hfront : (leBytes ws.bytes ul ++ pack l us).length = highAt := by
      rw [List.length_append, leBytes_length, pack_length]
    rw [hblk, ← List.append_assoc, ← hfront, getLsbD_leBytes hk, testBit_efHighBits]
    simp only [Nat.zero_add]

end Sys2Proof.Machine

/-! PROOFS. The Elias-Fano codec on arrays, and `EF_ENC` and `EF_DEC` (spec/46_eliasfano.md R234 to R240): the scan of
the bitvector meets the values of a non-decreasing block in order, rebasing is undone, the encoder's blocks are those of
the rebased values, the decoder takes them back, and the two commands undo each other. -/

namespace Sys2Proof.Machine

/-! ### Reading a block back -/

theorem nonDecreasing_iff_isChain {us : List Nat} : nonDecreasing us = true ↔ us.IsChain (· ≤ ·) := by
  induction us with
  | nil => simp [nonDecreasing]
  | cons x us ih =>
    cases us with
    | nil => simp [nonDecreasing]
    | cons y us => simp [nonDecreasing, ih]

theorem nonDecreasing_iff_pairwise {us : List Nat} : nonDecreasing us = true ↔ us.Pairwise (· ≤ ·) :=
  nonDecreasing_iff_isChain.trans List.isChain_iff_pairwise

theorem le_getLast_of_nonDecreasing {us : List Nat} {ul v : Nat} (hmono : nonDecreasing us = true)
    (hlast : us.getLast? = some ul) (hv : v ∈ us) : v ≤ ul := by
  obtain ⟨front, rfl⟩ := List.getLast?_eq_some_iff.mp hlast
  obtain ⟨_, _, hfront⟩ := List.pairwise_append.mp (nonDecreasing_iff_pairwise.mp hmono)
  rcases List.mem_append.mp hv with h | h
  · exact hfront v h ul (List.mem_singleton_self ul)
  · exact (List.mem_singleton.mp h).le

/-- No bit of a bitvector stands before those of its smallest value. -/
theorem testBit_efHighBits_eq_false {l i k : Nat} {us : List Nat} (h : ∀ v ∈ us, k < v / 2 ^ l + i) :
    (efHighBits l i us).testBit k = false := by
  rw [← Bool.not_eq_true, testBit_efHighBits]
  rintro ⟨j, v, hv, rfl⟩
  have := h v (List.mem_of_getElem? hv)
  omega

/-- The scan of a bitvector, from a position on at which the bits of `us` are still to come, answers `us` from its
low parts (R234). -/
theorem efScan_efHighBits {w l h fuel pos i : Nat} {us : List Nat} (hmono : us.Pairwise (· ≤ ·))
    (hstart : ∀ v ∈ us, pos ≤ v / 2 ^ l + i) (hend : ∀ v ∈ us, v / 2 ^ l + (i + us.length) ≤ pos + fuel)
    (hbits : ∀ k, pos ≤ k → k < pos + fuel → h.testBit k = (efHighBits l i us).testBit k) :
    efScan w l h fuel pos i (us.map (· % 2 ^ l)) = us.map (BitVec.ofNat w) := by
  induction fuel generalizing pos i us with
  | zero =>
    cases us with
    | nil => rfl
    | cons v us =>
      have hfirst := hstart v List.mem_cons_self
      have hlast := hend v List.mem_cons_self
      rw [List.length_cons] at hlast
      omega
  | succ fuel ih =>
    cases us with
    | nil => rfl
    | cons v us =>
      obtain ⟨hle, hrest⟩ := List.pairwise_cons.mp hmono
      have hbucket (u : Nat) (hu : u ∈ us) : v / 2 ^ l ≤ u / 2 ^ l := Nat.div_le_div_right (hle u hu)
      have hbit := hbits pos le_rfl (by omega)
      rw [List.map_cons, efScan, hbit]
      rcases (hstart v List.mem_cons_self).lt_or_eq with hlt | heq
      · have hclear : (efHighBits l i (v :: us)).testBit pos = false :=
          testBit_efHighBits_eq_false (List.forall_mem_cons.mpr ⟨hlt, fun u hu => by have := hbucket u hu; omega⟩)
        have hstart' : ∀ u ∈ v :: us, pos + 1 ≤ u / 2 ^ l + i :=
          List.forall_mem_cons.mpr ⟨hlt, fun u hu => by have := hbucket u hu; omega⟩
        rw [hclear, if_neg Bool.false_ne_true]
        exact ih hmono hstart' (fun u hu => by have := hend u hu; omega) fun k hk hk' => hbits k (by omega) (by omega)
      · have hset : (efHighBits l i (v :: us)).testBit pos = true := testBit_efHighBits.mpr ⟨0, v, rfl, heq⟩
        have hvalue : (pos - i) * 2 ^ l + v % 2 ^ l = v := by
          rw [heq, Nat.add_sub_cancel, Nat.div_add_mod']
        rw [hset, if_pos rfl, hvalue, List.map_cons]
        refine congrArg _ (ih hrest (fun u hu => ?_) (fun u hu => ?_) fun k hk hk' => ?_)
        · have := hbucket u hu
          omega
        · have := hend u (List.mem_cons_of_mem v hu)
          rw [List.length_cons] at this
          omega
        · rw [hbits k (by omega) (by omega), efHighBits, ← heq, Nat.testBit_or,
            Nat.testBit_two_pow_of_ne (by omega), Bool.false_or]

/-- `ef_unblock` on the bytes of a non-decreasing block answers the block and the offset past it (R234). -/
theorem efUnblock_efBlock {ws : Width} {v : Src} {pos : Nat} {us : List Nat} (hne : us ≠ [])
    (hmono : nonDecreasing us = true) (hvalues : ∀ u ∈ us, u < 2 ^ ws.bits)
    (h : srcRead v pos (efBlock ws.bits us).length = .ok (efBlock ws.bits us)) :
    efUnblock v ws.bits us.length pos =
      .ok (us.map (BitVec.ofNat ws.bits), pos + (efBlock ws.bits us).length) := by
  obtain ⟨ul, hlast⟩ : ∃ ul, us.getLast? = some ul := ⟨_, List.getLast?_eq_some_getLast hne⟩
  obtain ⟨l, hl⟩ : ∃ l, efL (ul + 1) us.length = l := ⟨_, rfl⟩
  have hul : ul < 2 ^ ws.bits := hvalues ul (List.mem_of_getLast? hlast)
  have hheader : leValue (leBytes ws.bytes ul) = ul := leValue_leBytes_of_lt (by rwa [eight_mul_bytes])
  have hlow : unpack l (pack l us) us.length = us.map (· % 2 ^ l) := unpack_pack l us
  have hscan : efScan ws.bits l (leValue (leBytes (bytesFor (efHb (ul + 1) us.length)) (efHighBits l 0 us)))
      (efHb (ul + 1) us.length) 0 0 (us.map (· % 2 ^ l)) = us.map (BitVec.ofNat ws.bits) := by
    refine efScan_efHighBits (nonDecreasing_iff_pairwise.mp hmono) (fun u _ => Nat.zero_le _) (fun u hu => ?_)
      fun k _ hk => ?_
    · have := efPosition_lt (le_getLast_of_nonDecreasing hmono hlast hu) (List.length_pos_iff.mpr hne)
      rw [hl] at this
      omega
    · have hbytes := le_eight_mul_bytesFor (efHb (ul + 1) us.length)
      rw [leValue_leBytes, Nat.testBit_mod_two_pow, decide_eq_true (by omega), Bool.true_and]
  rw [efBlock_length hlast, hl]
  rw [efBlock_eq hlast hl] at h
  obtain ⟨hheaderBytes, h⟩ := srcRead_append_iff.mp h
  obtain ⟨hlowBytes, hhighBytes⟩ := srcRead_append_iff.mp h
  simp only [leBytes_length, pack_length, bits_div_eight, Nat.add_assoc] at hheaderBytes hlowBytes hhighBytes
  simp only [efUnblock, bits_div_eight, hheaderBytes, hheader, hl, hlowBytes, hhighBytes, hlow, hscan, List.length_map,
    Nat.lt_irrefl, if_false, Nat.add_assoc]

/-! ### Rebasing -/

theorem efUnbase_efRebase {w : Nat} (st i : Nat) (p : BitVec w) (xs : List (BitVec w)) :
    efUnbase st p i (efRebase st p i xs) = xs := by
  induction xs generalizing i with
  | nil => rfl
  | cons x xs ih =>
    have hback (c : BitVec w) : p + (x - p - c) + c = x := by grind
    rw [efRebase, efUnbase, hback, ih]

@[simp] theorem efRebase_length {w : Nat} (st i : Nat) (p : BitVec w) (xs : List (BitVec w)) :
    (efRebase st p i xs).length = xs.length := by
  induction xs generalizing i with
  | nil => rfl
  | cons x xs ih => rw [efRebase, List.length_cons, ih, List.length_cons]

/-- The rebased values of a block given by its elements (R235). -/
theorem efRebase_map_range {w : Nat} (st i : Nat) (p : BitVec w) (x : Nat → BitVec w) (n : Nat) :
    efRebase st p i ((List.range n).map x) =
      (List.range n).map fun j => x j - p - BitVec.ofNat w (st * (i + j + 1)) := by
  induction n generalizing i x with
  | zero => rfl
  | succ n ih =>
    rw [List.range_succ_eq_map, List.map_cons, List.map_map, efRebase, ih]
    simp [Function.comp_def, Nat.add_assoc, Nat.add_comm 1]

theorem lastElem_eq_getLastD {w : Nat} (p : BitVec w) (xs : List (BitVec w)) : lastElem p xs = xs.getLastD p := by
  induction xs generalizing p with
  | nil => rfl
  | cons x xs ih => rw [lastElem, ih, List.getLastD_cons]

theorem lastElem_map_range {w : Nat} (p : BitVec w) (x : Nat → BitVec w) (n : Nat) :
    lastElem p ((List.range n).map x) = prevOf p x n := by
  cases n with
  | zero => rfl
  | succ n => simp [lastElem_eq_getLastD, List.range_succ, prevOf]

/-! ### The encoder's blocks -/

/-- The encoder accepts a block exactly when its rebased values do not fall, and goes on from its last element (R236). -/
theorem efEncodeBlocks_cons_eq_ok {w st : Nat} {p last : BitVec w} {xs : List (BitVec w)}
    {runs : List (List (BitVec w))} {out : List Byte} :
    efEncodeBlocks st p (xs :: runs) = .ok (out, last) ↔
      nonDecreasing ((efRebase st p 0 xs).map BitVec.toNat) = true ∧
        ∃ rest, efEncodeBlocks st (lastElem p xs) runs = .ok (rest, last) ∧
          out = efBlock w ((efRebase st p 0 xs).map BitVec.toNat) ++ rest := by
  rw [efEncodeBlocks]
  by_cases hmono : nonDecreasing ((efRebase st p 0 xs).map BitVec.toNat) = true
  · cases efEncodeBlocks st (lastElem p xs) runs with
    | error e => simp [hmono]
    | ok r => simp [hmono, and_comm, Prod.ext_iff, eq_comm]
  · simp [hmono]

/-- An element below the block size is rebased to the seed (R235). -/
theorem rebased_of_lt {w b i : Nat} (st : Nat) (p : BitVec w) (x : Nat → BitVec w) (h : i < b) :
    rebased st p b x i = x i - p - BitVec.ofNat w (st * (i + 1)) := by
  rw [rebased, Nat.div_eq_of_lt h, if_pos rfl, Nat.mod_eq_of_lt h]

/-- Rebasing goes on from the last element of the first block (R235). -/
theorem rebased_add {w b : Nat} (hb : 0 < b) (st : Nat) (p : BitVec w) (x : Nat → BitVec w) (i : Nat) :
    rebased st p b x (b + i) = rebased st (prevOf p x b) b (fun j => x (b + j)) i := by
  have hdiv : (b + i) / b = i / b + 1 := by rw [Nat.add_div_left _ hb]
  have hseed : (i / b + 1) * b - 1 = if i / b = 0 then b - 1 else b + (i / b * b - 1) := by
    split
    · next h => rw [h]; omega
    · next h =>
      have := Nat.le_mul_of_pos_left b (Nat.pos_of_ne_zero h)
      rw [Nat.succ_mul]
      omega
  rw [rebased, rebased, hdiv, hseed, Nat.add_mod_left, prevOf, if_neg (Nat.succ_ne_zero _), if_neg hb.ne']
  split <;> rfl

theorem EfMonotone.drop {w st b n : Nat} {p : BitVec w} {x : Nat → BitVec w} (hb : 0 < b)
    (h : EfMonotone st p b x n) : EfMonotone st (prevOf p x b) b (fun j => x (b + j)) (n - b) := by
  intro i hi hinside
  rw [← rebased_add hb, ← rebased_add hb]
  exact h (b + i) (by omega) (by rwa [Nat.add_assoc, Nat.add_mod_left])

/-- The rebased values of the first block do not fall (R235). -/
theorem EfMonotone.first {w st b n m : Nat} {p : BitVec w} {x : Nat → BitVec w} (h : EfMonotone st p b x n)
    (hn : m ≤ n) (hb : m ≤ b) :
    nonDecreasing ((List.range m).map fun i => (rebased st p b x i).toNat) = true := by
  rw [nonDecreasing_iff_isChain, List.isChain_map, List.isChain_range]
  intro i hi
  exact h i (by omega) (by rw [Nat.mod_eq_of_lt (by omega)]; exact Nat.succ_ne_zero i)

/-- The rebased values of a first block are those that the encoder lays out. -/
theorem efRebase_first {w st b m : Nat} (p : BitVec w) (x : Nat → BitVec w) (hb : m ≤ b) :
    (efRebase st p 0 ((List.range m).map x)).map BitVec.toNat =
      (List.range m).map fun i => (rebased st p b x i).toNat := by
  rw [efRebase_map_range, List.map_map]
  refine List.map_congr_left fun i hi => ?_
  simp [rebased_of_lt st p x ((List.mem_range.mp hi).trans_le hb)]

/-- The first run of an array given by its elements, then the runs of the rest. -/
theorem chunks_map_range {α : Type} {b n : Nat} (hb : 0 < b) (hn : 0 < n) (f : Nat → α) :
    chunks b ((List.range n).map f) =
      (List.range (min b n)).map f :: chunks b ((List.range (n - b)).map fun i => f (b + i)) := by
  have hdrop : ((List.range n).map f).drop b = (List.range (n - b)).map fun i => f (b + i) :=
    List.ext_getElem (by simp) (by simp)
  rw [chunks_of_ne_nil hb (by simpa using hn.ne'), ← List.map_take, List.take_range, hdrop]

theorem prevOf_add {w : Nat} (p : BitVec w) (x : Nat → BitVec w) (b m : Nat) :
    prevOf (prevOf p x b) (fun i => x (b + i)) m = prevOf p x (b + m) := by
  cases m with
  | zero => rfl
  | succ m => simp [prevOf, ← Nat.add_assoc]

/-- On an array that meets the monotonicity precondition the encoder answers the blocks of the rebased values and the
last element (R236). -/
theorem efEncodeBlocks_eq_ok {w st b n : Nat} {p : BitVec w} {x : Nat → BitVec w} (hb : 0 < b)
    (hmono : EfMonotone st p b x n) :
    efEncodeBlocks st p (chunks b ((List.range n).map x)) =
      .ok ((chunks b ((List.range n).map fun i => (rebased st p b x i).toNat)).flatMap (efBlock w),
        prevOf p x n) := by
  induction n using Nat.strong_induction_on generalizing p x with
  | _ n ih =>
    rcases Nat.eq_zero_or_pos n with rfl | hn
    · rfl
    have hrest : efEncodeBlocks st (prevOf p x (min b n)) (chunks b ((List.range (n - b)).map fun i => x (b + i))) =
        .ok ((chunks b ((List.range (n - b)).map fun i => (rebased st p b x (b + i)).toNat)).flatMap (efBlock w),
          prevOf p x n) := by
      rcases Nat.le_total n b with hle | hle
      · rw [Nat.sub_eq_zero_of_le hle, Nat.min_eq_right hle]
        rfl
      · simp only [Nat.min_eq_left hle, rebased_add hb, ih (n - b) (by omega) (hmono.drop hb), prevOf_add,
          Nat.add_sub_cancel' hle]
    have hfirst := efRebase_first (st := st) p x (Nat.min_le_left b n)
    have hfirstMono := hmono.first (Nat.min_le_right b n) (Nat.min_le_left b n)
    rw [chunks_map_range hb hn, chunks_map_range hb hn, List.flatMap_cons]
    exact efEncodeBlocks_cons_eq_ok.mpr
      ⟨hfirst ▸ hfirstMono, _, by rw [lastElem_map_range, hrest], by rw [hfirst]⟩

/-- R239: the blocks of `n` values take at most the size of R317. -/
theorem efBlocks_length_le {ws : Width} {b : Nat} (hb : 0 < b) {us : List Nat} (hvalues : ∀ u ∈ us, u < 2 ^ ws.bits) :
    ((chunks b us).flatMap (efBlock ws.bits)).length ≤
      ceilDiv us.length b * (ws.bytes + 1) + us.length * ws.bytes + ceilDiv (5 * us.length) 8 := by
  induction us using chunks_induction hb with
  | nil => exact Nat.zero_le _
  | run us hne ih =>
    have hfirst : (efBlock ws.bits (us.take b)).length ≤
        ws.bytes + (us.take b).length * ws.bytes + bytesFor (5 * (us.take b).length) :=
      efBlock_length_le (by simp [hne, hb.ne']) fun u hu => hvalues u (List.mem_of_mem_take hu)
    have hrest := ih fun u hu => hvalues u (List.mem_of_mem_drop hu)
    have hcut : us.length = (us.take b).length + (us.drop b).length := by
      rw [← List.length_append, List.take_append_drop]
    have hplain : us.length * ws.bytes = (us.take b).length * ws.bytes + (us.drop b).length * ws.bytes := by
      rw [hcut, Nat.add_mul]
    have hblocks : ceilDiv us.length b * (ws.bytes + 1) =
        ceilDiv (us.drop b).length b * (ws.bytes + 1) + (ws.bytes + 1) := by
      rw [← ceilDiv_sub_add_one hb (List.length_pos_iff.mpr hne), List.length_drop, Nat.succ_mul]
    have hhigh : bytesFor (5 * (us.take b).length) + ceilDiv (5 * (us.drop b).length) 8 ≤
        ceilDiv (5 * us.length) 8 + 1 := by
      unfold bytesFor ceilDiv
      omega
    rw [chunks_of_ne_nil hb hne, List.flatMap_cons, List.length_append]
    omega

/-! ### Reading the blocks back -/

section
variable {ws : Width} {v : Src} {st b : Nat}

/-- A block that a window holds is read and rebased, and the blocks after it follow from its end and from its last
element on (R237). -/
theorem efBlocks_efBlock {blocks left pos : Nat} {p : BitVec ws.bits} {xs : List (BitVec ws.bits)} {blk : List Byte}
    (hne : xs ≠ []) (hlen : xs.length = min b left)
    (hmono : nonDecreasing ((efRebase st p 0 xs).map BitVec.toNat) = true)
    (hblk : blk = efBlock ws.bits ((efRebase st p 0 xs).map BitVec.toNat))
    (h : srcRead v pos blk.length = .ok blk) :
    efBlocks v ws.bits st b (blocks + 1) left p pos =
      (efBlocks v ws.bits st b blocks (left - b) (lastElem p xs) (pos + blk.length)).map
        fun r => (xs ++ r.1, r.2) := by
  subst hblk
  have hrebased : (efRebase st p 0 xs).map BitVec.toNat ≠ [] := by
    rwa [← List.length_pos_iff, List.length_map, efRebase_length, List.length_pos_iff]
  have hblock := efUnblock_efBlock hrebased hmono (fun _ => lt_of_mem_map_toNat) h
  have hback : ((efRebase st p 0 xs).map BitVec.toNat).map (BitVec.ofNat ws.bits) = efRebase st p 0 xs := by
    simp [Function.comp_def]
  rw [List.length_map, efRebase_length, hlen, hback] at hblock
  simp only [efBlocks, hblock, efUnbase_efRebase]
  cases efBlocks v ws.bits st b blocks (left - b) _ _ <;> rfl

/-- The encoder's blocks of an array that a window holds are the array (R237). -/
theorem efBlocks_efEncodeBlocks (hb : 0 < b) {pos : Nat} {p last : BitVec ws.bits} {xs : List (BitVec ws.bits)}
    {out : List Byte} (henc : efEncodeBlocks st p (chunks b xs) = .ok (out, last))
    (h : srcRead v pos out.length = .ok out) :
    efBlocks v ws.bits st b (ceilDiv xs.length b) xs.length p pos = .ok (xs, last, pos + out.length) := by
  induction xs using chunks_induction hb generalizing pos p out with
  | nil =>
    cases henc
    rw [List.length_nil, ceilDiv_zero]
    rfl
  | run xs hne ih =>
    rw [chunks_of_ne_nil hb hne] at henc
    obtain ⟨hmono, rest, hrest, rfl⟩ := efEncodeBlocks_cons_eq_ok.mp henc
    obtain ⟨hfirst, hafter⟩ := srcRead_append_iff.mp h
    have hblocks := ih hrest hafter
    rw [List.length_drop] at hblocks
    rw [← ceilDiv_sub_add_one hb (List.length_pos_iff.mpr hne),
      efBlocks_efBlock (by simp [hne, hb.ne']) List.length_take hmono rfl hfirst, hblocks, List.length_append,
      ← Nat.add_assoc]
    exact congrArg (fun ys => Except.ok (ys, _)) (List.take_append_drop b xs)

end

/-! ### The commands -/

/-- The size of R317: `W/8` bytes and one more a block, `W/8` bytes and five bits a value. -/
theorem efSent_length_le (ws : Width) (tr : Transform) (bm1 : BlockField) (s : State) :
    (efSent ws tr bm1 s).length ≤
      ceilDiv (count s) (blockSize bm1) * (ws.bytes + 1) + count s * ws.bytes + ceilDiv (5 * count s) 8 := by
  have hvalues : ∀ u ∈ (List.range (count s)).map fun i =>
      (rebased (strictStep tr) (seedElem ws.bits s) (blockSize bm1) (srcElem ws s) i).toNat, u < 2 ^ ws.bits := by
    simp only [List.mem_map]
    rintro _ ⟨i, _, rfl⟩
    exact BitVec.isLt _
  have hsize := efBlocks_length_le (blockSize_pos bm1) hvalues
  rwa [List.length_map, List.length_range] at hsize

/-- What `EF_ENC` makes of the array in the source window (R236). -/
def efOutput (ws : Width) (tr : Transform) (bm1 : BlockField) (s : State) : Output where
  bytes := efSent ws tr bm1 s
  results :=
    { srcEnd := resultOfNat (count s * ws.bytes)
      dstEnd := resultOfNat (efSent ws tr bm1 s).length
      rseed := resultOfElem (prevOf (seedElem ws.bits s) (srcElem ws s) (count s)) }

section
variable {ws : Width} {tr : Transform} {bm1 : BlockField} {s : State}
  (hmono : EfMonotone (strictStep tr) (seedElem ws.bits s) (bm1.toNat + 1) (srcElem ws s) (count s))

include hmono in
/-- The encoder's blocks of the array in the source window (R236). -/
theorem efEncodeBlocks_srcArray :
    efEncodeBlocks (strictStep tr) (seedElem ws.bits s) (chunks (blockSize bm1) (srcArray ws s)) =
      .ok (efSent ws tr bm1 s, prevOf (seedElem ws.bits s) (srcElem ws s) (count s)) :=
  efEncodeBlocks_eq_ok (blockSize_pos bm1) hmono

include hmono in
/-- The rule of `EF_ENC` on a source window that holds the array. -/
theorem efEncRule_eq_ok (h : count s * ws.bytes ≤ s.operands.srcLen.toNat) :
    efEncRule ws.bits tr (blockSize bm1) s = .ok (efOutput ws tr bm1 s) := by
  simp only [efEncRule, srcElements_srcWindow h, efEncodeBlocks_srcArray hmono, bits_div_eight]
  rfl

/-- The rule of `EF_ENC` on a source window that does not hold the array. -/
theorem efEncRule_eq_error (h : s.operands.srcLen.toNat < count s * ws.bytes) :
    efEncRule ws.bits tr (blockSize bm1) s = .error .srcBounds := by
  rw [efEncRule, (srcElements_eq_error _ _ _ .srcBounds).mpr ⟨by rwa [bits_div_eight], rfl⟩]

/-- The result registers after `EF_ENC` completed (R236). -/
theorem resultsAre_efOutput (hsrc : count s * ws.bytes ≤ s.operands.srcLen.toNat)
    (hfit : (efSent ws tr bm1 s).length ≤ s.operands.dstCap.toNat) :
    ResultsAre (complete (efOutput ws tr bm1 s) s) 0 (count s * ws.bytes) (efSent ws tr bm1 s).length
      (prevOf (seedElem ws.bits s) (srcElem ws s) (count s)).toNat 0 :=
  ⟨rfl, toNat_resultOfNat (hsrc.trans_lt s.operands.srcLen.isLt),
    toNat_resultOfNat (hfit.trans_lt s.operands.dstCap.isLt), toNat_resultOfElem _, rfl⟩

include hmono in
/-- `EF_ENC` in `DONE` on an array that meets the monotonicity precondition has completed with the blocks of the rebased
values, which fit. -/
theorem efEnc_done {i : Instr} (h : (runCommand i (efEncRule ws.bits tr (blockSize bm1) s) s).status = .done) :
    count s * ws.bytes ≤ s.operands.srcLen.toNat ∧ (efSent ws tr bm1 s).length ≤ s.operands.dstCap.toNat ∧
      runCommand i (efEncRule ws.bits tr (blockSize bm1) s) s = complete (efOutput ws tr bm1 s) s := by
  obtain ⟨_, hends⟩ := runCommand_done h
  by_cases hsrc : count s * ws.bytes ≤ s.operands.srcLen.toNat
  · rw [efEncRule_eq_ok hmono hsrc] at hends ⊢
    obtain ⟨_, ⟨⟩, hfit, hrun⟩ | ⟨⟨⟩⟩ | ⟨⟨⟩⟩ := hends
    exact ⟨hsrc, hfit, hrun⟩
  · simp [efEncRule_eq_error (Nat.not_le.mp hsrc)] at hends

end

/-- The decoder on a window that begins with the blocks of an array (R237). -/
theorem efDecode_efEncodeBlocks {ws : Width} {tr : Transform} {bm1 : BlockField} {s : State}
    {xs : List (BitVec ws.bits)} {out : List Byte} {last : BitVec ws.bits}
    (henc : efEncodeBlocks (strictStep tr) (seedElem ws.bits s) (chunks (blockSize bm1) xs) = .ok (out, last))
    (h : BeginsWith s out) :
    efDecode ws.bits tr (blockSize bm1) s xs.length =
      .ok { seeded := { xs := xs, p := last, q := 0#ws.bits }, pos := out.length } := by
  simp only [efDecode, efBlocks_efEncodeBlocks (blockSize_pos bm1) henc (beginsWith_iff_srcRead.mp h), Nat.zero_add]

/-! ### The statements about the two commands -/

/-- Settles O57: the rule's output is the blocks of the rebased values, which take at most the size of R317. -/
theorem efEncWritesBuffer : Obligations.EfEncWritesBuffer := by
  intro ws tr lane bm1 s _ hmono out
  refine ⟨efSent_length_le .., fun hwin hsrc hfit => ?_⟩
  have hexec : exec (.efEnc ws tr lane bm1) s = .next (complete (efOutput ws tr bm1 s) s) := by
    rw [exec, execEfEnc, efEncRule_eq_ok hmono hsrc, runCommand_ok (argFault_eq_false_of_ready rfl hwin) hfit]
  exact ⟨_, hexec, rfl, sameElse_complete .., wrote_complete (efOutput ws tr bm1 s) s, resultsAre_efOutput hsrc hfit⟩

/-- Settles O58: the decoder reads each block back and undoes its rebasing. -/
theorem efDecRestores : Obligations.EfDecRestores := by
  intro ws tr lane bm1 s xs out last _ hlen henc hwin hbegins hfit
  have hdecoder := efDecode_efEncodeBlocks henc hbegins
  rw [hlen] at hdecoder
  obtain ⟨hneed, _⟩ := hbegins
  exact exec_decode_writes rfl (argFault_eq_false_of_ready rfl hwin) hdecoder hlen hneed hfit

/-- Settles O59: `EF_ENC` left the blocks of the source array in memory, which do not depend on its lane, and `EF_DEC`
restores the array from them. -/
theorem efRoundTrip : Obligations.EfRoundTrip := by
  intro ws tr l₁ l₂ bm1 s t s' hlegal hmono hexec hdone hn hseed hwin hbegins hfit
  have hcount : count s' = count s := congrArg BitVec.toNat hn
  have hseedElem : seedElem ws.bits s' = seedElem ws.bits s := congrArg (BitVec.setWidth ws.bits) hseed
  have ht : t = runCommand (.efEnc ws tr l₁ bm1) (efEncRule ws.bits tr (blockSize bm1) s) s := by
    cases hexec
    rfl
  obtain ⟨hsrc, hsent, hrun⟩ := efEnc_done hmono (ht ▸ hdone)
  rw [hrun] at ht
  subst ht
  obtain ⟨_, _, hdstEnd, hrseed, _⟩ := resultsAre_efOutput hsrc hsent
  have hwritten : bytesFrom (complete (efOutput ws tr bm1 s) s).mem.read s.operands.dstBase.toNat
      (efSent ws tr bm1 s).length = efSent ws tr bm1 s := bytesFrom_writeBytes ..
  rw [hdstEnd, hwritten] at hbegins
  obtain ⟨t', hexec', hdone', _, hwrote, _, _, hsrcEnd', _, hrseed', _⟩ :=
    efDecRestores ws tr l₂ bm1 s' (srcArray ws s) _ _ hlegal (by rw [srcArray_length, hcount])
      (by rw [hseedElem, efEncodeBlocks_srcArray hmono]) hwin hbegins (by rwa [hcount])
  exact ⟨t', hexec', hdone', hwrote, BitVec.eq_of_toNat_eq (hsrcEnd'.trans hdstEnd.symm),
    BitVec.eq_of_toNat_eq (hrseed'.trans hrseed.symm)⟩

end Sys2Proof.Machine

/-! PROOFS. Random access and forward search (spec/47_random_access.md R250 to R265): `cover`, the elements up to the end
of a value, group or block; the first hit of a search taken one cover at a time; the three commands of a backend whose
decoder restores every cover of an array; and for each backend why its decoder does: the transform chains, and whole
values, groups or blocks of a buffer are a buffer. -/

namespace Sys2Proof.Machine

/-! ### The cover of an element -/

/-- The value, group or block that holds an element ends after it (R250). -/
theorem lt_cover {unit n i : Nat} (hunit : 0 < unit) (hi : i < n) : i < cover unit n i :=
  lt_min hi ((Nat.div_lt_iff_lt_mul hunit).mp (Nat.lt_succ_self _))

theorem cover_le (unit n i : Nat) : cover unit n i ≤ n := min_le_left ..

/-- Of an array held up to `m`, in whole units or to its end, an element below `m` has its whole cover there:
all of the `m` elements, or whole units of them. -/
theorem cover_le_held {unit n m i : Nat} (hunit : 0 < unit) (hm : m ≤ n) (hwhole : m = n ∨ unit ∣ m) (hi : i < m) :
    cover unit n i ≤ m ∧ (cover unit n i = m ∨ unit ∣ cover unit n i) := by
  have hle : cover unit n i ≤ m := by
    obtain rfl | ⟨k, rfl⟩ := hwhole
    · exact cover_le ..
    · have hk : i / unit < k := (Nat.div_lt_iff_lt_mul hunit).mpr (by rwa [Nat.mul_comm])
      exact (min_le_right ..).trans (Nat.mul_comm unit k ▸ Nat.mul_le_mul_right unit hk)
  refine ⟨hle, ?_⟩
  rcases Nat.le_total n ((i / unit + 1) * unit) with h | h
  · rw [cover, min_eq_left h] at hle ⊢
    exact .inl (Nat.le_antisymm hle hm)
  · rw [cover, min_eq_right h]
    exact .inr (Nat.dvd_mul_left ..)

/-! ### The first hit -/

section
variable {w : Nat} {hit : BitVec w → Bool} {xs : List (BitVec w)}

/-- The first index from `i` on whose element is a hit, the length of the array if there is none (R251). -/
def firstHit (hit : BitVec w → Bool) (xs : List (BitVec w)) (i : Nat) : Nat :=
  ((xs.drop i).findIdx? hit).elim xs.length (i + ·)

/-- `firstHit` is the index the statements ask for. -/
theorem firstFrom_firstHit (hit : BitVec w → Bool) (xs : List (BitVec w)) (i : Nat) :
    FirstFrom (fun k => ∃ x, xs[k]? = some x ∧ hit x = true) i xs.length (firstHit hit xs i) := by
  unfold firstHit
  cases hfind : (xs.drop i).findIdx? hit with
  | none =>
    refine ⟨.inl rfl, ?_⟩
    rintro _ hik _ _ ⟨x, hx, hhit⟩
    obtain ⟨d, rfl⟩ := Nat.exists_eq_add_of_le hik
    have hmem : x ∈ xs.drop i := List.mem_iff_getElem?.mpr ⟨d, by rwa [List.getElem?_drop]⟩
    simp [List.findIdx?_eq_none_iff.mp hfind x hmem] at hhit
  | some j =>
    obtain ⟨hj, hhit, hbefore⟩ := List.findIdx?_eq_some_iff_getElem.mp hfind
    rw [List.length_drop] at hj
    rw [Option.elim_some]
    refine ⟨.inr ⟨Nat.le_add_right .., by omega, _, by simp, hhit⟩, ?_⟩
    rintro _ hik hk hkj ⟨x, hx, hx'⟩
    obtain ⟨d, rfl⟩ := Nat.exists_eq_add_of_le hik
    rw [List.getElem?_eq_getElem hk, Option.some.injEq] at hx
    exact hbefore d (Nat.lt_of_add_lt_add_left hkj) (by rwa [List.getElem_drop, hx])

theorem firstHit_le (hit : BitVec w → Bool) (xs : List (BitVec w)) (i : Nat) : firstHit hit xs i ≤ xs.length := by
  obtain ⟨h | ⟨_, h, _⟩, _⟩ := firstFrom_firstHit hit xs i
  · exact h.le
  · exact h.le

theorem le_firstHit {i : Nat} (hi : i ≤ xs.length) : i ≤ firstHit hit xs i := by
  obtain ⟨h | ⟨h, _⟩, _⟩ := firstFrom_firstHit hit xs i
  · exact h ▸ hi
  · exact h

/-- Past the end of the array there is no hit. -/
theorem firstHit_of_length_le {i : Nat} (hi : xs.length ≤ i) : firstHit hit xs i = xs.length := by
  rw [firstHit, List.drop_of_length_le hi]
  rfl

/-- The first hit is the one among the first `c` elements, or the first from `c` on. -/
theorem firstHit_of_prefix {i c : Nat} (hic : i ≤ c) (hc : c ≤ xs.length) :
    firstHit hit xs i = (((xs.take c).drop i).findIdx? hit).elim (firstHit hit xs c) (i + ·) := by
  have hcut : xs.drop i = (xs.take c).drop i ++ xs.drop c := by
    rw [← List.drop_append_of_le_length (by rw [List.length_take]; omega), List.take_append_drop]
  have hlen : ((xs.take c).drop i).length = c - i := by
    rw [List.length_drop, List.length_take, min_eq_left hc]
  rw [firstHit, hcut, List.findIdx?_append, hlen]
  cases ((xs.take c).drop i).findIdx? hit with
  | some j => rfl
  | none =>
    rw [firstHit]
    cases (xs.drop c).findIdx? hit with
    | none => rfl
    | some j =>
      simp only [Option.none_or, Option.map_some, Option.elim_some, Option.elim_none]
      omega

/-! ### The rules on a decoder that restores the covers -/

/-- The decoder answers the cover of every element below `m`. -/
def RestoresCovers (decoder : Nat → Except Stop (Decoded w)) (unit m : Nat) (xs : List (BitVec w)) : Prop :=
  ∀ i, i < m → ∃ d, decoder (cover unit xs.length i) = .ok d ∧ d.seeded.xs = xs.take (cover unit xs.length i)

variable {decoder : Nat → Except Stop (Decoded w)} {unit m : Nat} (hunit : 0 < unit)
  (hdec : RestoresCovers decoder unit m xs)

include hunit hdec

/-- A get of an element below `m` answers it (R250). -/
theorem getxRule_eq_ok {s : State} (hlen : xs.length = count s) (hi : s.operands.index.toNat < xs.length)
    (hm : s.operands.index.toNat < m) :
    getxRule decoder unit s = .ok (resOnly (resultOfElem xs[s.operands.index.toNat])) := by
  obtain ⟨d, hd, hxs⟩ := hdec _ hm
  rw [hlen] at hd hxs
  have hprefix := lt_cover hunit (hlen ▸ hi)
  simp only [getxRule, hd, hxs, List.getD_eq_getElem?_getD, List.getElem?_take_of_lt hprefix,
    List.getElem?_eq_getElem hi, Option.getD_some]

/-- A search answers the first hit when that lies below `m`, or all elements do, or it starts past the end (R251). -/
theorem searchFrom_eq_ok {fuel i : Nat} (hfuel : xs.length ≤ fuel + i)
    (hheld : firstHit hit xs i < m ∨ m = xs.length ∨ xs.length ≤ i) :
    searchFrom decoder unit xs.length hit fuel i = .ok (firstHit hit xs i) := by
  induction fuel generalizing i with
  | zero => rw [searchFrom, firstHit_of_length_le (by omega)]
  | succ fuel ih =>
    by_cases hi : i < xs.length
    · have hfirst : i ≤ firstHit hit xs i := le_firstHit hi.le
      obtain ⟨d, hd, hxs⟩ := hdec i (by omega)
      have hlt := lt_cover hunit hi
      have hstep := firstHit_of_prefix (hit := hit) hlt.le (cover_le unit xs.length i)
      rw [searchFrom, if_pos hi]
      simp only [hd, hxs]
      cases hfind : ((xs.take (cover unit xs.length i)).drop i).findIdx? hit with
      | some j => rw [hstep, hfind, Option.elim_some]
      | none =>
        rw [hfind, Option.elim_none] at hstep
        rw [hstep]
        exact ih (by omega) (by omega)
    · rw [searchFrom, if_neg hi, firstHit_of_length_le (Nat.not_lt.mp hi)]

/-- A search of the array from `INDEX` on answers its first hit (R251, R252). -/
theorem searchRule_eq_ok {s : State} (hlen : xs.length = count s)
    (hheld : firstHit hit xs s.operands.index.toNat < m ∨ m = count s ∨ count s ≤ s.operands.index.toNat) :
    searchRule decoder unit hit s = .ok (resOnly (resultOfNat (firstHit hit xs s.operands.index.toNat))) := by
  rw [← hlen] at hheld
  rw [searchRule, ← hlen, searchFrom_eq_ok hunit hdec (Nat.le_add_right ..) hheld]

end

/-! ### The three commands of a backend -/

/-- A command that runs its rule and writes no memory; `indexed` says whether `INDEX` is checked against `N` (R283). -/
structure AccessCommand (i : Instr) (indexed : Bool) (rule : Except Stop Output) (s : State) : Prop where
  exec_eq : exec i s = .next (runCommand i rule s)
  writes_eq : writesMem i = false
  index_eq : indexFault i s.operands = (indexed && decide (count s ≤ s.operands.index.toNat))

/-- Such a command reports what its rule gives, when the source window exists and `INDEX` passes its check. -/
theorem AccessCommand.reports {i : Instr} {indexed : Bool} {rule : Except Stop Output} {s : State} {v : Word}
    {res : Nat} (h : AccessCommand i indexed rule s) (hsrc : SrcValid s)
    (hindex : indexed = true → s.operands.index.toNat < count s) (hrule : rule = .ok (resOnly v))
    (hres : v.toNat = res) :
    Reports i s res 0 := by
  have hchecked : indexFault i s.operands = false := by
    rw [h.index_eq]
    simpa using hindex
  exact reports_of_rule h.exec_eq (argFault_eq_false_of_readOnly h.writes_eq hchecked fun _ => hsrc) hrule hres rfl

theorem hitEq_iff {w : Nat} {s : State} {x : BitVec w} : hitEq w s x = true ↔ x = keyElem w s := by
  rw [hitEq, beq_iff_eq]

theorem hitGeq_iff {w : Nat} {s : State} {x : BitVec w} : hitGeq w s x = true ↔ (keyElem w s).toNat ≤ x.toNat := by
  rw [hitGeq, decide_eq_true_iff]

/-- A backend whose decoder restores the covers below `m` agrees with the array. -/
theorem accessAgrees_of_restoresCovers {getx geteq getgeq : Instr} {ws : Width} {s : State} {xs : List (BitVec ws.bits)}
    {decoder : Nat → Except Stop (Decoded ws.bits)} {unit m : Nat}
    (hgetx : AccessCommand getx true (getxRule decoder unit s) s)
    (hgeteq : AccessCommand geteq false (searchRule decoder unit (hitEq ws.bits s) s) s)
    (hgetgeq : AccessCommand getgeq false (searchRule decoder unit (hitGeq ws.bits s) s) s)
    (hunit : 0 < unit) (hlen : xs.length = count s) (hsrc : SrcValid s) (hdec : RestoresCovers decoder unit m xs) :
    AccessAgrees getx geteq getgeq s xs m := by
  have hindex (hit : BitVec ws.bits → Bool) :
      (resultOfNat (firstHit hit xs s.operands.index.toNat)).toNat = firstHit hit xs s.operands.index.toNat :=
    toNat_resultOfNat ((firstHit_le ..).trans_lt (hlen ▸ s.operands.n.isLt))
  refine ⟨fun hlo hm => ?_, ⟨firstHit (hitEq ws.bits s) xs s.operands.index.toNat, ?_, fun hheld => ?_⟩,
    ⟨firstHit (hitGeq ws.bits s) xs s.operands.index.toNat, ?_, fun hheld => ?_⟩⟩
  · exact hgetx.reports hsrc (fun _ => hlen ▸ hlo) (getxRule_eq_ok hunit hdec hlen hlo hm) (toNat_resultOfElem _)
  · simpa [hitEq_iff, hlen] using firstFrom_firstHit (hitEq ws.bits s) xs s.operands.index.toNat
  · exact hgeteq.reports hsrc nofun (searchRule_eq_ok hunit hdec hlen hheld) (hindex _)
  · simpa only [hitGeq_iff, hlen] using firstFrom_firstHit (hitGeq ws.bits s) xs s.operands.index.toNat
  · exact hgetgeq.reports hsrc nofun (searchRule_eq_ok hunit hdec hlen hheld) (hindex _)

/-! ### Prefixes of an encoded array -/

/-- A decoder that restores the first part of what the window holds, cut after whole units or at its end, restores the
covers. -/
theorem restoresCovers_of_prefixes {w : Nat} {decoder : Nat → Except Stop (Decoded w)} {unit m : Nat}
    {xs : List (BitVec w)} (hunit : 0 < unit) (hm : m ≤ xs.length) (hwhole : m = xs.length ∨ unit ∣ m)
    (h : ∀ a b, xs.take m = a ++ b → b = [] ∨ unit ∣ a.length → ∃ d, decoder a.length = .ok d ∧ d.seeded.xs = a) :
    RestoresCovers decoder unit m xs := by
  intro i hi
  obtain ⟨hle, hunits⟩ := cover_le_held hunit hm hwhole hi
  have hlen : (xs.take (cover unit xs.length i)).length = cover unit xs.length i := by
    rw [List.length_take, min_eq_left (cover_le ..)]
  have hcut := (List.take_append_drop (cover unit xs.length i) (xs.take m)).symm
  rw [List.take_take, min_eq_left hle] at hcut
  have hdecoded := h _ _ hcut (hunits.imp (fun hall => List.drop_eq_nil_of_le (by simp [hall])) (hlen.symm ▸ ·))
  rwa [hlen] at hdecoded

/-- A window that begins with some bytes begins with the first of them. -/
theorem BeginsWith.of_prefix {s : State} {a b : List Byte} (hb : BeginsWith s b) (h : a <+: b) : BeginsWith s a := by
  obtain ⟨c, rfl⟩ := h
  exact beginsWith_iff_srcRead.mpr (srcRead_append_iff.mp (beginsWith_iff_srcRead.mp hb)).1

/-- Whole runs of a list come first (R210). -/
theorem chunks_append {α : Type} {b : Nat} (hb : 0 < b) {xs : List α} (h : b ∣ xs.length) (ys : List α) :
    chunks b (xs ++ ys) = chunks b xs ++ chunks b ys := by
  induction xs using chunks_induction hb with
  | nil => rfl
  | run xs hne ih =>
    have hle : b ≤ xs.length := Nat.le_of_dvd (List.length_pos_iff.mpr hne) h
    rw [chunks_of_ne_nil hb hne, chunks_of_ne_nil hb (List.append_ne_nil_of_left_ne_nil hne ys),
      List.take_append_of_le_length hle, List.drop_append_of_le_length hle,
      ih (by rw [List.length_drop]; exact Nat.dvd_sub h (dvd_refl b)), List.cons_append]

/-- A backend that lays out whole units one after the other, and whose decoder inverts the layout and takes the inverse
transform, restores the covers of the elements that the window holds (R165, R250, R265). -/
theorem restoresCovers_of_layout {ws : Width} {tr : Transform} {s : State} {xs : List (BitVec ws.bits)} {unit m : Nat}
    {layout : List (BitVec ws.bits) → List Byte} {decoder : Nat → Except Stop (Decoded ws.bits)} (hunit : 0 < unit)
    (happend : ∀ a b, unit ∣ a.length → layout (a ++ b) = layout a ++ layout b)
    (hdecoder : ∀ ys, BeginsWith s (layout ys) → decoder ys.length =
      .ok { seeded := xfi tr (seedElem ws.bits s) (seed2Elem ws.bits s) ys, pos := (layout ys).length })
    (hm : m ≤ xs.length) (hwhole : m = xs.length ∨ unit ∣ m)
    (hbegins : BeginsWith s (layout (stored ws tr s (xs.take m)).xs)) : RestoresCovers decoder unit m xs := by
  refine restoresCovers_of_prefixes hunit hm hwhole fun a b hcut hunits => ?_
  have hprefix : layout (stored ws tr s a).xs <+: layout (stored ws tr s (xs.take m)).xs := by
    rw [hcut]
    obtain rfl | hdvd := hunits
    · rw [List.append_nil]
    · rw [stored, stored, xf_append, happend _ _ (by rwa [xf_length])]
      exact List.prefix_append ..
  have hdecoded := hdecoder _ (hbegins.of_prefix hprefix)
  rw [stored, xf_length, xfi_xf] at hdecoded
  exact ⟨_, hdecoded, rfl⟩

theorem vbLayout_append {w : Nat} (a b : List (BitVec w)) : vbLayout (a ++ b) = vbLayout a ++ vbLayout b :=
  List.flatMap_append

theorem tbLayout_append {g w : Nat} (hg : 0 < g) {a : List (BitVec w)} (h : g ∣ a.length) (b : List (BitVec w)) :
    tbLayout g (a ++ b) = tbLayout g a ++ tbLayout g b := by
  rw [tbLayout, List.map_append, chunks_append hg (by rwa [List.length_map]), List.flatMap_append, tbLayout, tbLayout]

theorem pfLayout_append {b w : Nat} (hb : 0 < b) {xs : List (BitVec w)} (h : b ∣ xs.length) (ys : List (BitVec w)) :
    pfLayout b (xs ++ ys) = pfLayout b xs ++ pfLayout b ys := by
  rw [pfLayout, List.map_append, chunks_append hb (by rwa [List.length_map]), List.flatMap_append, pfLayout, pfLayout]

/-- The encoder's output for the first blocks begins its output for all (R236). -/
theorem efEncodeBlocks_append_prefix {w st : Nat} {p last : BitVec w} {runs runs' : List (List (BitVec w))}
    {out : List Byte} (h : efEncodeBlocks st p (runs ++ runs') = .ok (out, last)) :
    ∃ first p', efEncodeBlocks st p runs = .ok (first, p') ∧ first <+: out := by
  induction runs generalizing p out with
  | nil => exact ⟨[], p, rfl, List.nil_prefix⟩
  | cons xs runs ih =>
    obtain ⟨hmono, rest, hrest, rfl⟩ := efEncodeBlocks_cons_eq_ok.mp h
    obtain ⟨first, p', hfirst, hprefix⟩ := ih hrest
    exact ⟨_, p', efEncodeBlocks_cons_eq_ok.mpr ⟨hmono, first, hfirst, rfl⟩,
      (List.prefix_append_right_inj _).mpr hprefix⟩

/-- The Elias-Fano decoder restores the covers of the elements that the window holds (R250, R265). -/
theorem restoresCovers_efDecode {ws : Width} {tr : Transform} {bm1 : BlockField} {s : State}
    {xs : List (BitVec ws.bits)} {m : Nat} {out : List Byte} {last : BitVec ws.bits} (hm : m ≤ xs.length)
    (hwhole : m = xs.length ∨ blockSize bm1 ∣ m)
    (henc : efEncodeBlocks (strictStep tr) (seedElem ws.bits s) (chunks (blockSize bm1) (xs.take m)) = .ok (out, last))
    (hbegins : BeginsWith s out) : RestoresCovers (efDecode ws.bits tr (blockSize bm1) s) (blockSize bm1) m xs := by
  refine restoresCovers_of_prefixes (blockSize_pos bm1) hm hwhole fun a b hcut hunits => ?_
  have hfirst : ∃ first p', efEncodeBlocks (strictStep tr) (seedElem ws.bits s) (chunks (blockSize bm1) a) =
      .ok (first, p') ∧ first <+: out := by
    rw [hcut] at henc
    obtain rfl | hdvd := hunits
    · rw [List.append_nil] at henc
      exact ⟨out, last, henc, List.prefix_rfl⟩
    · rw [chunks_append (blockSize_pos bm1) hdvd] at henc
      exact efEncodeBlocks_append_prefix henc
  obtain ⟨first, p', hencoded, hprefix⟩ := hfirst
  exact ⟨_, efDecode_efEncodeBlocks hencoded (hbegins.of_prefix hprefix), rfl⟩

/-! ### The statements -/

/-- Settles O44: the first values of a VByte buffer are the buffer of the first elements. -/
theorem vbAccessAgrees : Obligations.VbAccessAgrees := by
  intro ws tr s xs m hlen hsrc hm hbegins
  have hdec : RestoresCovers (vbDecode ws.bits tr s) 1 m xs :=
    restoresCovers_of_layout Nat.one_pos (fun a b _ => vbLayout_append a b) (fun _ h => vbDecode_vbLayout h tr)
      (hlen ▸ hm) (.inr (one_dvd m)) hbegins
  exact accessAgrees_of_restoresCovers ⟨rfl, rfl, rfl⟩ ⟨rfl, rfl, rfl⟩ ⟨rfl, rfl, rfl⟩ Nat.one_pos hlen hsrc hdec

/-- Settles O49: whole groups of a TurboByte buffer are the buffer of their elements. -/
theorem tbAccessAgrees : Obligations.TbAccessAgrees := by
  intro ws tr lane gs s xs m hlegal hlen hsrc hm hwhole hbegins
  have hg := groupCount_pos gs
  have hdec : RestoresCovers (tbDecode ws.bits tr gs.count s) gs.count m xs :=
    restoresCovers_of_layout hg (fun _ b h => tbLayout_append hg h b)
      (fun _ h => tbDecode_tbLayout hg (bytes_le_four_of_turboLegal hlegal) h tr) (hlen ▸ hm)
      (hwhole.imp (hlen ▸ ·) Nat.dvd_of_mod_eq_zero) hbegins
  exact accessAgrees_of_restoresCovers ⟨rfl, rfl, rfl⟩ ⟨rfl, rfl, rfl⟩ ⟨rfl, rfl, rfl⟩ hg hlen hsrc hdec

/-- Settles O55: whole blocks of a PFor buffer are the buffer of their elements. -/
theorem pfAccessAgrees : Obligations.PfAccessAgrees := by
  intro ws tr lane bm1 s xs m hlen hsrc hm hwhole hbegins
  have hb := blockSize_pos bm1
  have hdec : RestoresCovers (pfDecode ws.bits tr (blockSize bm1) s) (blockSize bm1) m xs :=
    restoresCovers_of_layout hb (fun _ ys h => pfLayout_append hb h ys) (fun _ h => pfDecode_pfLayout bm1 h tr)
      (hlen ▸ hm) (hwhole.imp (hlen ▸ ·) Nat.dvd_of_mod_eq_zero) hbegins
  exact accessAgrees_of_restoresCovers ⟨rfl, rfl, rfl⟩ ⟨rfl, rfl, rfl⟩ ⟨rfl, rfl, rfl⟩ hb hlen hsrc hdec

/-- Settles O60: whole blocks of an Elias-Fano encoding are the encoding of their elements. -/
theorem efAccessAgrees : Obligations.EfAccessAgrees := by
  intro ws tr lane bm1 s xs m out last _ hlen hsrc hm hwhole henc hbegins
  have hdec := restoresCovers_efDecode (hlen ▸ hm) (hwhole.imp (hlen ▸ ·) Nat.dvd_of_mod_eq_zero) henc hbegins
  exact accessAgrees_of_restoresCovers ⟨rfl, rfl, rfl⟩ ⟨rfl, rfl, rfl⟩ ⟨rfl, rfl, rfl⟩ (blockSize_pos bm1) hlen
    hsrc hdec

end Sys2Proof.Machine

/-! PROOFS. The unit's turn from outside, resets, and a source byte written while BUSY: what each leaves of the state,
said once, and the statements that follow (spec/60_exceptions.md R286, R288, R300; spec/70_reset_and_hazards.md R310,
R311, R316, R319). -/

namespace Sys2Proof.Machine

/-! ### The unit's turn -/

/-- The step of a busy unit with no event listed is its execute step (R45). -/
theorem step_of_busy {s : State} (hbusy : s.status = .busy) (hevents : s.events = []) : step s = execute s :=
  (step_of_no_events hevents).trans (unitTurn_busy hbusy)

/-- The execute step answers a next state on every word, legal or not (R319). -/
theorem execute_answers (s : State) : ∃ t, execute s = .next t := by
  cases hd : decode s.cmd with
  | error e => exact ⟨_, execute_of_illegal hd⟩
  | ok i =>
    obtain ⟨t, heq, _⟩ := execute_ends hd
    exact ⟨t, heq⟩

/-- The execute step keeps what the end of a command keeps, on every word: an illegal word writes no memory (R282). -/
theorem execute_kept {s t : State} (hmarks : MarksInWindow s) (ht : execute s = .next t) :
    Kept (currentWrites s) (clearTouched s) t := by
  cases hd : decode s.cmd with
  | error e =>
    cases (execute_of_illegal hd).symm.trans ht
    exact raise_kept .illegalCmd (currentWrites s) (clearTouched s)
  | ok i =>
    obtain ⟨t', heq, _, hkept⟩ := execute_ends hd
    cases heq.symm.trans ht
    rw [currentWrites_of_decode hd]
    exact hkept hmarks

/-- A byte outside the destination window is kept, and every byte by a command that writes no memory (R286 c). -/
theorem Kept.read_eq {writes : Bool} {s t : State} (h : Kept writes s t) {a : Nat}
    (ha : writes = false ∨ inDstWindow s.operands a = false) : t.mem.read a = s.mem.read a := by
  rcases ha with hw | hout
  · rw [h.memory hw]
  · exact h.outside a hout

/-- Settles O9: the unit's turn is the execute step, and the end of a command keeps the rest. -/
theorem unitWritesOnlyItsWindow : Obligations.UnitWritesOnlyItsWindow := by
  intro s t hbusy hevents hmarks ht
  rw [step_of_busy hbusy hevents] at ht
  have hkept := execute_kept hmarks ht
  exact ⟨hkept.operands, hkept.cmd, fun a ha => hkept.read_eq ha⟩

/-- Settles O8: the execute step answers a next state, and its status is `DONE` or `FAULT`. -/
theorem busyUnitTerminates : Obligations.BusyUnitTerminates := by
  intro s hbusy hevents
  obtain ⟨t, ht⟩ := execute_answers s
  exact ⟨t, (step_of_busy hbusy hevents).trans ht, execute_status ht⟩

/-- Settles O12: in both forms of the unit's turn. -/
theorem quiescentUnit : Obligations.QuiescentUnit := by
  intro s es hquiet
  exact ⟨unitTurn_quiet (s := { s with events := [] }) hquiet, unitTurn_quiet (s := { s with events := es }) hquiet⟩

/-! ### Resets -/

/-- A write to `CTRL` with bit 0 set resets the unit (R36). -/
theorem hostWriteReg_ctrl_set {v : Word} (h : v.getLsbD 0 = true) (s : State) :
    hostWriteReg .ctrl v s = resetUnit (currentWrites s) s := by
  simp only [hostWriteReg, h, if_true]

/-- A reset touches no byte of memory but those of the window that a running command leaves free (R311). -/
theorem resetUnit_read {leavesFree : Bool} {s : State} {a : Nat}
    (ha : ¬ (s.status = .busy ∧ leavesFree = true ∧ inDstWindow s.operands a = true)) :
    (resetUnit leavesFree s).mem.read a = s.mem.read a := by
  unfold resetUnit
  split
  · next hfree =>
    obtain ⟨hbusy, hleaves⟩ := hfree
    exact freeDstWindow_outside s a (Bool.eq_false_iff.mpr fun hin => ha ⟨hbusy, hleaves, hin⟩)
  · rfl

/-- A reset that leaves nothing free changes the registers and the marks, nothing else (R310). -/
theorem resetUnit_false (s : State) :
    resetUnit false s =
      { s with
        operands := {}, results := {}, cmd := 0#32, status := .idle
        srcTouched := false, dstTouched := [] } := by
  simp [resetUnit]

/-- Settles O14: the write to `CTRL` is a reset that leaves a running command's window free. -/
theorem softResetClears : Obligations.SoftResetClears := by
  intro s es v hv
  refine ⟨resetUnit (currentWrites s) { s with events := es }, ?_, resetUnit_operands .., resetUnit_results ..,
    resetUnit_cmd .., resetUnit_status .., resetUnit_events .., resetUnit_readData .., fun a ha => ?_⟩
  · rw [step_regWrite (r := .ctrl) rfl, hostWriteReg_ctrl_set hv]
    rfl
  · exact resetUnit_read (s := { s with events := es }) ha

/-- Settles O15. -/
theorem hardResetClears : Obligations.HardResetClears := by
  intro s es
  rw [step_cons, takeEvent, resetUnit_false]

/-! ### A source byte written while BUSY -/

/-- A legal command in `CMD` is the one whose source window the marks speak of. -/
theorem currentReads_of_decode {s : State} {i : Instr} (h : decode s.cmd = .ok i) :
    currentReads s = readsMem i := by
  simp only [currentReads, currentInstr, h]
  rfl

/-- Another agent's write into the source window of a running command that reads memory marks that window (R316). -/
theorem agentWriteByte_source {s : State} {i : Instr} {a : Nat} (hbusy : s.status = .busy)
    (hd : decode s.cmd = .ok i) (hreads : readsMem i = true) (ha : inSrcWindow s.operands a = true) (b : Byte) :
    ∃ marks, agentWriteByte a b s =
      { s with mem := s.mem.write a b, srcTouched := true, dstTouched := marks } := by
  have hmark : (s.srcTouched || (currentReads s && inSrcWindow s.operands a)) = true := by
    rw [currentReads_of_decode hd, hreads, ha, Bool.and_self, Bool.or_true]
  exact ⟨_, hmark ▸ agentWriteByte_busy hbusy a b⟩

/-- A command that passes its argument checks and whose source window was touched has a free outcome (R316). -/
theorem execute_of_srcTouched {s : State} {i : Instr} (hd : decode s.cmd = .ok i)
    (harg : argFault i s.operands = false) (htouched : s.srcTouched = true) :
    execute s = .next (touchedOutcome (writesMem i) (clearTouched s)) := by
  simp [execute, hd, untouched, executeTouched, harg, htouched]

/-- The statuses that a touched source window leaves (R316). -/
theorem touchedOutcome_status (writes : Bool) (s : State) :
    (touchedOutcome writes s).status = .done ∨ (touchedOutcome writes s).status = .fault .srcBounds ∨
      (writes = true ∧ (touchedOutcome writes s).status = .fault .dstCapacity) := by
  obtain ⟨t, _, h | ⟨hw, h⟩ | h⟩ := touchedOutcome_cases writes s <;> rw [h]
  · exact .inl (completeFree_status ..)
  · exact .inr (.inr ⟨hw, raise_status ..⟩)
  · exact .inr (.inl (raise_status ..))

/-- The unit's turn after that takes the free outcome, and keeps what the end of a command keeps (R316). -/
theorem step_of_srcTouched {s : State} {i : Instr} (hbusy : s.status = .busy) (hevents : s.events = [])
    (hd : decode s.cmd = .ok i) (harg : argFault i s.operands = false) (htouched : s.srcTouched = true) :
    ∃ t, step s = .next t ∧ Kept (writesMem i) (clearTouched s) t ∧
      (t.status = .done ∨ t.status = .fault .srcBounds ∨ (writesMem i = true ∧ t.status = .fault .dstCapacity)) :=
  ⟨_, (step_of_busy hbusy hevents).trans (execute_of_srcTouched hd harg htouched), touchedOutcome_kept ..,
    touchedOutcome_status ..⟩

/-- Settles O22: the write marks the source window, and the unit's turn takes the free outcome of a touched window,
which drops the marks and keeps the bytes outside the destination window. -/
theorem touchedSourceWindow : Obligations.TouchedSourceWindow := by
  intro s i a b hbusy _ hevents hd hreads harg hexists ha
  obtain ⟨marks, hwrite⟩ := agentWriteByte_source (s := { s with events := [] }) hbusy hd hreads ha b
  have hfirst : step s = .next (agentWriteByte a b { s with events := [] }) := by
    simp only [step, hevents, takeEvent, if_pos hexists]
  rw [hwrite] at hfirst
  obtain ⟨t, hsecond, hkept, hstatus⟩ := step_of_srcTouched (s := { s with
    events := [], mem := s.mem.write a b, srcTouched := true, dstTouched := marks }) hbusy rfl hd harg rfl
  refine ⟨_, t, hfirst, hsecond, hstatus, hkept.operands, hkept.cmd, ?_, fun x hne hx => ?_⟩
  · rw [untouched, hkept.srcTouched, hkept.dstTouched]
    rfl
  · exact (hkept.read_eq hx).trans (read_write_other _ _ _ _ hne)

end Sys2Proof.Machine

/-! PROOFS. The faults of a decoded command (spec/60_exceptions.md R283 to R287): the argument checks as the five causes
they are, the rules that begin with a read of the whole array, and what every rule that writes memory answers on an
input it accepts. The shape every command runs in turns each into the fault that is raised. -/

namespace Sys2Proof.Machine

/-! ### The status a command ends with -/

/-- A malformed input ends in `DONE`, `SRC_BOUNDS` or `DST_CAPACITY` (R288), never in `ARG`. -/
theorem malformedOutcome_status_ne_arg (writes : Bool) (need : Nat) (s : State) :
    (malformedOutcome writes need s).status ≠ .fault .arg := by
  obtain ⟨t, _, h | ⟨_, _, h⟩ | ⟨_, h⟩⟩ := malformedOutcome_cases writes need s <;> simp [h]

/-- A non-monotone array ends in `DONE` or `DST_CAPACITY` (R289). -/
theorem contractOutcome_status (need : Nat) (s : State) :
    (contractOutcome need s).status = .done ∨ (contractOutcome need s).status = .fault .dstCapacity := by
  obtain h | ⟨_, _, _, h⟩ := contractOutcome_cases need s <;> rw [h]
  · exact .inr (raise_status ..)
  · exact .inl rfl

/-- `ARG` comes from the argument checks, which stand before the rule, and from nothing else (R283, R287). -/
theorem runCommand_status_arg_iff (i : Instr) (rule : Except Stop Output) (s : State) :
    (runCommand i rule s).status = .fault .arg ↔ argFault i s.operands = true := by
  rcases runCommand_cases i rule s with
    ⟨harg, h⟩ | ⟨harg, ⟨_, _, _, h⟩ | ⟨_, _, _, h⟩ | ⟨_, h⟩ | ⟨_, h⟩ | ⟨_, h⟩⟩ <;> rw [h, harg]
  · simp
  · simp
  · simp
  · simp
  · simp [malformedOutcome_status_ne_arg]
  · rcases contractOutcome_status (count s * (widthOfInstr i).bytes) s with hs | hs <;> simp [hs]

/-- After the argument checks, `SRC_BOUNDS` comes from a read that the rule makes beyond the source window, unless the
input is malformed (R284, R288). -/
theorem runCommand_status_srcBounds_iff {i : Instr} {rule : Except Stop Output} {s : State}
    (harg : argFault i s.operands = false) (hrule : rule ≠ .error .malformed) :
    (runCommand i rule s).status = .fault .srcBounds ↔ rule = .error .srcBounds := by
  rcases runCommand_cases i rule s with
    ⟨h, _⟩ | ⟨_, ⟨_, rfl, _, h⟩ | ⟨_, rfl, _, h⟩ | ⟨rfl, h⟩ | ⟨hmal, _⟩ | ⟨rfl, h⟩⟩
  · simp [harg] at h
  · simp [h]
  · simp [h]
  · simp [h]
  · exact absurd hmal hrule
  · rcases contractOutcome_status (count s * (widthOfInstr i).bytes) s with hs | hs <;> simp [h, hs]

/-- After the argument checks, a rule's output completes the command or raises `DST_CAPACITY` (R285). -/
theorem runCommand_ok_status {i : Instr} {o : Output} {s : State} (harg : argFault i s.operands = false) :
    (runCommand i (.ok o) s).status =
      if s.operands.dstCap.toNat < o.bytes.length then .fault .dstCapacity else .done := by
  rcases runCommand_cases i (.ok o) s with
    ⟨h, _⟩ | ⟨_, ⟨_, ⟨⟩, hlong, h⟩ | ⟨_, ⟨⟩, hfit, h⟩ | ⟨⟨⟩, _⟩ | ⟨⟨⟩, _⟩ | ⟨⟨⟩, _⟩⟩
  · simp [harg] at h
  · rw [h, if_pos hlong, raise_status]
  · rw [h, if_neg (Nat.not_lt.mpr hfit), complete_status]

/-! ### The argument checks -/

/-- The commands that R77 lets work in place. -/
theorem inPlaceAllowed_iff (i : Instr) :
    inPlaceAllowed i = true ↔ ∃ ws tr, i = .xfFwd ws tr ∨ i = .xfInv ws tr := by
  cases i <;> simp [inPlaceAllowed]

/-- The checks of R283 d and e: the index of a get, and the count of `PF_SELW`. -/
theorem indexFault_iff (i : Instr) (o : OperandRegs) :
    indexFault i o = true ↔
      (((∃ ws tr, i = .vbGetx ws tr) ∨ (∃ ws tr lane gs, i = .tbGetx ws tr lane gs) ∨
          (∃ ws tr lane bm1, i = .pfGetx ws tr lane bm1 ∨ i = .efGetx ws tr lane bm1)) ∧
        o.n.toNat ≤ o.index.toNat) ∨
      ∃ ws bm1, i = .pfSelw ws bm1 ∧ blockSize bm1 < o.n.toNat := by
  cases i <;> simp [indexFault]

/-- The windows that the argument checks refuse, and the two further checks (R283). -/
theorem argFault_iff (i : Instr) (s : State) :
    argFault i s.operands = true ↔
      (readsMem i = true ∧ ¬ SrcValid s) ∨ (writesMem i = true ∧ ¬ DstValid s) ∨
      (writesMem i = true ∧ ¬ Disjoint s ∧ ¬ (inPlaceAllowed i = true ∧ s.operands.srcBase = s.operands.dstBase)) ∨
      indexFault i s.operands = true := by
  rw [← windowsOverlap_eq_false_iff]
  simp [argFault, windowWraps, or_assoc, and_assoc, imp_iff_not_or]

/-- A command that fails its argument checks changes `STATUS` alone (R286 a). -/
theorem exec_of_argFault {i : Instr} {s : State} (h : argFault i s.operands = true) :
    exec i s = .next { s with status := .fault .arg } := by
  obtain ⟨rule, hexec, _⟩ := exec_eq_runCommand i s
  simp [hexec, runCommand, h]

/-- A command that passes them ends otherwise. -/
theorem exec_of_not_argFault {i : Instr} {s : State} (h : argFault i s.operands ≠ true) :
    ∃ t, exec i s = .next t ∧ t.status ≠ .fault .arg := by
  obtain ⟨rule, hexec, _⟩ := exec_eq_runCommand i s
  exact ⟨_, hexec, mt (runCommand_status_arg_iff i rule s).mp h⟩

/-- Settles O23: the argument checks are the five causes. -/
theorem argumentFaults : Obligations.ArgumentFaults := by
  intro i s inPlace isGetx cause
  have hcause : argFault i s.operands = true ↔ cause := by
    rw [argFault_iff, inPlaceAllowed_iff, indexFault_iff]
    rfl
  exact ⟨fun h => exec_of_argFault (hcause.mpr h), fun h => exec_of_not_argFault (mt hcause.mp h)⟩

/-! ### Reads of the whole array -/

/-- A whole-array read of a window that does not hold the array. -/
theorem srcElements_short {ws : Width} {s : State} (h : s.operands.srcLen.toNat < count s * ws.bytes) :
    srcElements (srcWindow s) ws.bits (count s) = .error .srcBounds :=
  (srcElements_eq_error ..).mpr ⟨by rwa [bits_div_eight], rfl⟩

/-- A rule that begins with a read of the whole array and answers whatever it reads, but for the encoder contract
(R284, R289). -/
structure ReadsArray (ws : Width) (s : State) (rule : Except Stop Output) : Prop where
  short : s.operands.srcLen.toNat < count s * ws.bytes → rule = .error .srcBounds
  whole : count s * ws.bytes ≤ s.operands.srcLen.toNat → (∃ o, rule = .ok o) ∨ rule = .error .contract

theorem encodeRule_readsArray (ws : Width) (tr : Transform) (layout : List (BitVec ws.bits) → List Byte) (s : State) :
    ReadsArray ws s (encodeRule ws.bits tr layout s) :=
  ⟨fun h => encodeRule_eq_error h tr layout, fun h => .inl ⟨_, encodeRule_eq_ok h tr layout⟩⟩

theorem xfInvRule_readsArray (ws : Width) (tr : Transform) (s : State) :
    ReadsArray ws s (xfInvRule ws.bits tr s) :=
  ⟨fun h => by rw [xfInvRule, srcElements_short h], fun h => .inl ⟨_, xfInvRule_eq_ok h tr⟩⟩

theorem bpPackRule_readsArray (ws : Width) (pw : Nat) (s : State) : ReadsArray ws s (bpPackRule ws.bits pw s) :=
  ⟨fun h => by rw [bpPackRule, srcElements_short h], fun h => .inl ⟨_, bpPackRule_eq_ok h pw⟩⟩

theorem blkbitwRule_readsArray (ws : Width) (s : State) : ReadsArray ws s (blkbitwRule ws.bits s) :=
  ⟨fun h => by rw [blkbitwRule, srcElements_short h], fun h => .inl ⟨_, by rw [blkbitwRule, srcElements_srcWindow h]⟩⟩

theorem pfSelwRule_readsArray (ws : Width) (b : Nat) (s : State) : ReadsArray ws s (pfSelwRule ws.bits b s) :=
  ⟨fun h => by rw [pfSelwRule, srcElements_short h], fun h => .inl ⟨_, by rw [pfSelwRule, srcElements_srcWindow h]⟩⟩

/-- The Elias-Fano encoder stops only on its contract (R235, R289). -/
theorem efEncodeBlocks_error {w st : Nat} {p : BitVec w} {runs : List (List (BitVec w))} {e : Stop}
    (h : efEncodeBlocks st p runs = .error e) : e = .contract := by
  induction runs generalizing p with
  | nil => cases h
  | cons xs runs ih =>
    rw [efEncodeBlocks] at h
    split at h
    · split at h
      · next hrest =>
        cases h
        exact ih hrest
      · cases h
    · cases h
      rfl

theorem efEncRule_readsArray (ws : Width) (tr : Transform) (bm1 : BlockField) (s : State) :
    ReadsArray ws s (efEncRule ws.bits tr (blockSize bm1) s) where
  short := efEncRule_eq_error
  whole h := by
    simp only [efEncRule, srcElements_srcWindow h]
    cases henc : efEncodeBlocks (strictStep tr) (seedElem ws.bits s) (chunks (blockSize bm1) (srcArray ws s)) with
    | ok r => exact .inl ⟨_, rfl⟩
    | error e =>
      cases efEncodeBlocks_error henc
      exact .inr rfl

/-- Such a rule stops at the window's end exactly when the window does not hold the array. -/
theorem ReadsArray.eq_srcBounds_iff {ws : Width} {s : State} {rule : Except Stop Output} (h : ReadsArray ws s rule) :
    rule = .error .srcBounds ↔ s.operands.srcLen.toNat < count s * ws.bytes := by
  refine ⟨fun hrule => ?_, h.short⟩
  by_contra hlen
  rcases h.whole (Nat.not_lt.mp hlen) with ⟨o, ho⟩ | hcontract
  · cases ho.symm.trans hrule
  · cases hcontract.symm.trans hrule

theorem ReadsArray.ne_malformed {ws : Width} {s : State} {rule : Except Stop Output} (h : ReadsArray ws s rule) :
    rule ≠ .error .malformed := by
  intro hrule
  rcases Nat.lt_or_ge s.operands.srcLen.toNat (count s * ws.bytes) with hshort | hwhole
  · cases (h.short hshort).symm.trans hrule
  · rcases h.whole hwhole with ⟨o, ho⟩ | hcontract
    · cases ho.symm.trans hrule
    · cases hcontract.symm.trans hrule

/-- The rule of every command that reads a whole array does so. -/
theorem exec_readsArray {i : Instr} (s : State)
    (hi : (∃ ws, i = .blkbitw ws) ∨ (∃ ws bm1, i = .pfSelw ws bm1) ∨
      (∃ ws tr, i = .xfFwd ws tr ∨ i = .xfInv ws tr ∨ i = .vbEnc ws tr) ∨
      (∃ ws lane pw, i = .bpPack ws lane pw) ∨ (∃ ws tr lane gs, i = .tbEnc ws tr lane gs) ∨
      (∃ ws tr lane bm1, i = .pfEnc ws tr lane bm1 ∨ i = .efEnc ws tr lane bm1)) :
    ∃ rule, exec i s = .next (runCommand i rule s) ∧ ReadsArray (widthOfInstr i) s rule := by
  rcases hi with ⟨ws, rfl⟩ | ⟨ws, bm1, rfl⟩ | ⟨ws, tr, rfl | rfl | rfl⟩ | ⟨ws, lane, pw, rfl⟩ |
    ⟨ws, tr, lane, gs, rfl⟩ | ⟨ws, tr, lane, bm1, rfl | rfl⟩
  · exact ⟨_, rfl, blkbitwRule_readsArray ws s⟩
  · exact ⟨_, rfl, pfSelwRule_readsArray ws (blockSize bm1) s⟩
  · exact ⟨_, rfl, encodeRule_readsArray ws tr arrBytes s⟩
  · exact ⟨_, rfl, xfInvRule_readsArray ws tr s⟩
  · exact ⟨_, rfl, encodeRule_readsArray ws tr vbLayout s⟩
  · exact ⟨_, rfl, bpPackRule_readsArray ws pw.toNat s⟩
  · exact ⟨_, rfl, encodeRule_readsArray ws tr (tbLayout gs.count) s⟩
  · exact ⟨_, rfl, encodeRule_readsArray ws tr (pfLayout (blockSize bm1)) s⟩
  · exact ⟨_, rfl, efEncRule_readsArray ws tr bm1 s⟩

/-- Settles O24: after the argument checks the command ends as its rule's first read says. -/
theorem sourceBoundsExact : Obligations.SourceBoundsExact := by
  intro i s harg hi
  obtain ⟨rule, hexec, hreads⟩ := exec_readsArray s hi
  exact ⟨_, hexec, (runCommand_status_srcBounds_iff harg hreads.ne_malformed).trans hreads.eq_srcBounds_iff⟩

/-! ### Room for the output -/

/-- The rule of the command answers an output of `out` bytes. -/
def Yields (i : Instr) (s : State) (out : Nat) : Prop :=
  ∃ o : Output, exec i s = .next (runCommand i (.ok o) s) ∧ o.bytes.length = out

theorem Yields.of_rule {i : Instr} {s : State} {rule : Except Stop Output} {o : Output} {out : Nat}
    (hexec : exec i s = .next (runCommand i rule s)) (hrule : rule = .ok o) (hlen : o.bytes.length = out) :
    Yields i s out :=
  ⟨o, hrule ▸ hexec, hlen⟩

/-- A decoder that answers `N` elements yields their bytes. -/
theorem yields_of_decoder {i : Instr} {ws : Width} {decoder : Nat → Except Stop (Decoded ws.bits)}
    {d : Decoded ws.bits} {s : State} (hexec : exec i s = .next (runCommand i (decodeRule decoder s) s))
    (hdecoder : decoder (count s) = .ok d) (hlen : d.seeded.xs.length = count s) :
    Yields i s (count s * ws.bytes) :=
  .of_rule hexec (by simp only [decodeRule, hdecoder]; rfl) (by rw [arrBytes_length, hlen])

/-- A decoder that inverts its format's layout yields the array that the buffer in its source window holds. -/
theorem yields_of_decodesFrom {i : Instr} {ws : Width} {tr : Transform} {s : State} {need out : Nat}
    {layout : List (BitVec ws.bits) → List Byte} {decoder : Nat → Except Stop (Decoded ws.bits)}
    (hexec : exec i s = .next (runCommand i (decodeRule decoder s) s))
    (hdecoder : ∀ ys, BeginsWith s (layout ys) → decoder ys.length =
      .ok { seeded := xfi tr (seedElem ws.bits s) (seed2Elem ws.bits s) ys, pos := (layout ys).length })
    (h : DecodesFrom ws s need out fun xs => layout (stored ws tr s xs).xs) : Yields i s out := by
  obtain ⟨rfl, xs, hlen, hbegins, _⟩ := h
  have hdecoded := hdecoder _ hbegins
  rw [stored, xf_length, xfi_xf, hlen] at hdecoded
  exact yields_of_decoder hexec hdecoded hlen

/-- Every command that writes memory yields an output of the size that `Footprint` gives, on an input that its rule
accepts and that the source window holds. -/
theorem yields_of_footprint {i : Instr} {s : State} {need out : Nat} (hwf : wellFormed i = true)
    (h : Footprint i s need out) (hneed : need ≤ s.operands.srcLen.toNat) : Yields i s out := by
  cases i
  case xfFwd ws tr =>
    obtain ⟨rfl, rfl⟩ := h
    exact .of_rule rfl (encodeRule_eq_ok hneed tr arrBytes) (by simp [sentOutput])
  case xfInv ws tr =>
    obtain ⟨rfl, rfl⟩ := h
    exact .of_rule rfl (xfInvRule_eq_ok hneed tr) (by simp [arrayOutput])
  case bpPack ws lane pw =>
    obtain ⟨rfl, rfl⟩ := h
    exact .of_rule rfl (bpPackRule_eq_ok hneed pw.toNat) (packedOutput_length ..)
  case bpUnpack ws lane pw =>
    obtain ⟨rfl, rfl⟩ := h
    exact .of_rule rfl (bpUnpackRule_eq_ok hneed ws) (by simp [unpackedOutput])
  case vbEnc ws tr =>
    obtain ⟨rfl, rfl⟩ := h
    exact .of_rule rfl (encodeRule_eq_ok hneed tr vbLayout) rfl
  case tbEnc ws tr lane gs =>
    obtain ⟨rfl, rfl⟩ := h
    exact .of_rule rfl (encodeRule_eq_ok hneed tr (tbLayout gs.count)) rfl
  case pfEnc ws tr lane bm1 =>
    obtain ⟨rfl, rfl⟩ := h
    exact .of_rule rfl (encodeRule_eq_ok hneed tr (pfLayout (blockSize bm1))) rfl
  case efEnc ws tr lane bm1 =>
    obtain ⟨hmono, rfl, rfl⟩ := h
    exact .of_rule rfl (efEncRule_eq_ok hmono hneed) rfl
  case vbDec ws tr => exact yields_of_decodesFrom rfl (fun _ hys => vbDecode_vbLayout hys tr) h
  case tbDec ws tr lane gs =>
    have hbytes := bytes_le_four_of_turboLegal hwf
    exact yields_of_decodesFrom rfl (fun _ hys => tbDecode_tbLayout (groupCount_pos gs) hbytes hys tr) h
  case pfDec ws tr lane bm1 => exact yields_of_decodesFrom rfl (fun _ hys => pfDecode_pfLayout bm1 hys tr) h
  case efDec ws tr lane bm1 =>
    obtain ⟨rfl, xs, buf, last, hlen, henc, hbegins, _⟩ := h
    have hdecoder := efDecode_efEncodeBlocks henc hbegins
    rw [hlen] at hdecoder
    exact yields_of_decoder rfl hdecoder hlen
  all_goals exact h.elim

/-- Settles O25: the command yields its output, and ends as the room for it says. -/
theorem capacityFaults : Obligations.CapacityFaults := by
  intro i s need out hwf harg hfootprint hneed
  obtain ⟨o, hexec, rfl⟩ := yields_of_footprint hwf hfootprint hneed
  obtain ⟨t, ht, _, hkept⟩ := exec_ends i s
  have hstatus : t.status = if s.operands.dstCap.toNat < o.bytes.length then .fault .dstCapacity else .done := by
    cases hexec.symm.trans ht
    exact runCommand_ok_status harg
  exact ⟨t, ht, by simp [hstatus], by simp [hstatus], hkept.operands, hkept.cmd, hkept.outside⟩

end Sys2Proof.Machine
